-- ==== Sys2Proof/Word.lean ====
section
/-!
DEFINITION. The unit of both streams, of every operand and of every sample: the 32-bit word
(`00_scope.md` R5, `20_memory.md` R49, R50). All other arithmetic of the spec is over unbounded
integers and stands in `Sys2Proof/Machine/Fixed.lean`.
-/

namespace Sys2Proof

/-- R5: a word is 32 bits, bit 0 the least significant. -/
abbrev Word := BitVec 32

/-- R48: the unit of a byte transport; the core itself has no byte access. -/
abbrev Byte := BitVec 8

end Sys2Proof
end

