-- ==== Sys2Proof/Syntax.lean ====
section
/-!
DEFINITION. The command set LMC-1: one constructor per row of the opcode map
(`30_encoding.md` R65), each operand one whole word, read as it is (R63).
-/

namespace Sys2Proof

/-- R65: the 21 rows of the opcode map, in its order. -/
inductive Instr
  /-- NOP (R210). -/
  | nop
  /-- RESET (R211). -/
  | reset
  /-- CONFIG (R201): the thirteen operand words of R63, in their order. -/
  | config (fs n kind coupling int f0 fc q gain attackMs decayMs sustain releaseMs : Word)
  /-- SET_FREQ (R203): `f`, UQ16.16. -/
  | setFreq (f : Word)
  /-- SET_INT (R204): `i`, UQ1.23. -/
  | setInt (i : Word)
  /-- TOGGLE (R205): the flag `on`, bit 0 of `arg`. -/
  | toggle (on : Bool)
  /-- FILT_UPDATE (R206): `fc`, `q`, `gain`, UQ16.16 each. -/
  | filtUpdate (fc q gain : Word)
  /-- FILT_SWEEP (R208): `target_fc` in UQ16.16 and `total_samples`. -/
  | filtSweep (targetFc totalSamples : Word)
  /-- PROCESS (R207). -/
  | process
  /-- GET with selector 0 (R209). -/
  | getStatus
  /-- GET with selector 1. -/
  | getFreq1
  /-- GET with selector 2. -/
  | getFreq2
  /-- GET with selector 3. -/
  | getInt
  /-- GET with selector 4. -/
  | getFc
  /-- GET with selector 5. -/
  | getQ
  /-- GET with selector 6. -/
  | getGain
  /-- GET with selector 7. -/
  | getStage
  /-- GET with selector 8. -/
  | getFactor
  /-- GET with selector 9. -/
  | getFs
  /-- GET with selector 10. -/
  | getN
  /-- GET with selector 11. -/
  | getMode
  deriving DecidableEq, Repr

end Sys2Proof
end

