-- ==== Sys2Proof/Decode.lean ====
section
/-!
DEFINITION. The encoding of LMC-1 (`30_encoding.md`): header fields (R60), operand counts (R62), the
opcode map (R65), the reserved encodings (R66), the decoder of the front of a command stream
(steps 1 to 4 of R61), total on any list of words, and after it the encoder.
-/

namespace Sys2Proof

/-! ### Header fields (R60) -/

/-- R60: `op`, bits 31:24 of the header. -/
def opField (h : Word) : BitVec 8 := h.extractLsb' 24 8

/-- R60: `sel`, bits 23:16 of the header. -/
def selField (h : Word) : BitVec 8 := h.extractLsb' 16 8

/-- R60: `arg`, bits 15:0 of the header. -/
def argField (h : Word) : BitVec 16 := h.extractLsb' 0 16

/-- R60: the header with the given fields. -/
def header (op sel : BitVec 8) (arg : BitVec 16) : Word := op ++ sel ++ arg

/-! ### The opcode map (R62, R65, R66) -/

/-- R62, R65: the operand count of an opcode; `none` where `op` is not in the opcode map. -/
def operandCount (op : BitVec 8) : Option Nat :=
  match op.toNat with
  | 0x00 => some 0
  | 0x01 => some 0
  | 0x02 => some 13
  | 0x10 => some 1
  | 0x11 => some 1
  | 0x12 => some 0
  | 0x20 => some 3
  | 0x21 => some 2
  | 0x30 => some 0
  | 0x40 => some 0
  | _ => none

/-- R62: the longest command is CONFIG, a header and thirteen operand words. -/
def longestCommand : Nat := 14

/-- R51, R65, R209: the GET command of a selector; `none` for the reserved selectors 12 .. 255. -/
def getCommand (sel : BitVec 8) : Option Instr :=
  match sel.toNat with
  | 0 => some .getStatus
  | 1 => some .getFreq1
  | 2 => some .getFreq2
  | 3 => some .getInt
  | 4 => some .getFc
  | 5 => some .getQ
  | 6 => some .getGain
  | 7 => some .getStage
  | 8 => some .getFactor
  | 9 => some .getFs
  | 10 => some .getN
  | 11 => some .getMode
  | _ => none

/-- R65: the command of a format-`Z` opcode with the operand words given. -/
def formatZ (op : BitVec 8) (ws : List Word) : Option Instr :=
  match op.toNat, ws with
  | 0x00, [] => some .nop
  | 0x01, [] => some .reset
  | 0x02, [fs, n, kind, coupling, int, f0, fc, q, gain, att, dec, sus, rel] =>
      some (.config fs n kind coupling int f0 fc q gain att dec sus rel)
  | 0x10, [f] => some (.setFreq f)
  | 0x11, [i] => some (.setInt i)
  | 0x20, [fc, q, gain] => some (.filtUpdate fc q gain)
  | 0x21, [targetFc, totalSamples] => some (.filtSweep targetFc totalSamples)
  | 0x30, [] => some .process
  | _, _ => none

/-- R66 (b): the command of a header whose opcode is in the map, `none` where the reserved-field
check fails. Format `S` (GET): `arg = 0` and a selector of at most 11; format `A` (TOGGLE):
`sel = 0` and `arg[15:1] = 0`; format `Z`: `sel = 0` and `arg = 0`. -/
def commandOf (h : Word) (ws : List Word) : Option Instr :=
  if opField h = 0x40#8 then
    if argField h = 0#16 then getCommand (selField h) else none
  else if opField h = 0x12#8 then
    if selField h = 0#8 ∧ (argField h).extractLsb' 1 15 = 0#15 then
      some (.toggle ((argField h).getLsbD 0))
    else none
  else if selField h = 0#8 ∧ argField h = 0#16 then formatZ (opField h) ws
  else none

/-! ### The decoder (R61 steps 1 to 4) -/

/-- What stands at the front of the command stream. `rest` is the stream after the words consumed. -/
inductive Decoded
  /-- A command, all of whose words have arrived. -/
  | command (i : Instr) (rest : List Word)
  /-- R61 step 2, R66 (a): `op` is not in the opcode map; the header alone is consumed. -/
  | unknownOpcode (rest : List Word)
  /-- R61 step 4, R66 (b): a reserved field or selector; the operand words are consumed too. -/
  | reservedField (rest : List Word)
  /-- R49: the stream is empty or ends in the middle of a command. -/
  | incomplete
  deriving DecidableEq, Repr

/-- R61 steps 1 to 4, total on any words. -/
def decode (ws : List Word) : Decoded :=
  match ws with
  | [] => .incomplete
  | h :: tail =>
    match operandCount (opField h) with
    | none => .unknownOpcode tail
    | some k =>
      if tail.length < k then .incomplete
      else
        match commandOf h (tail.take k) with
        | some i => .command i (tail.drop k)
        | none => .reservedField (tail.drop k)

/-! ### The encoder (R60, R63, R65) -/

/-- R60, R63, R65: the words of a command, the header first. -/
def encode : Instr → List Word
  | .nop => [header 0x00#8 0#8 0#16]
  | .reset => [header 0x01#8 0#8 0#16]
  | .config fs n kind coupling int f0 fc q gain attackMs decayMs sustain releaseMs =>
      [header 0x02#8 0#8 0#16, fs, n, kind, coupling, int, f0, fc, q, gain, attackMs, decayMs,
        sustain, releaseMs]
  | .setFreq f => [header 0x10#8 0#8 0#16, f]
  | .setInt i => [header 0x11#8 0#8 0#16, i]
  | .toggle on => [header 0x12#8 0#8 (if on then 1#16 else 0#16)]
  | .filtUpdate fc q gain => [header 0x20#8 0#8 0#16, fc, q, gain]
  | .filtSweep targetFc totalSamples => [header 0x21#8 0#8 0#16, targetFc, totalSamples]
  | .process => [header 0x30#8 0#8 0#16]
  | .getStatus => [header 0x40#8 0#8 0#16]
  | .getFreq1 => [header 0x40#8 1#8 0#16]
  | .getFreq2 => [header 0x40#8 2#8 0#16]
  | .getInt => [header 0x40#8 3#8 0#16]
  | .getFc => [header 0x40#8 4#8 0#16]
  | .getQ => [header 0x40#8 5#8 0#16]
  | .getGain => [header 0x40#8 6#8 0#16]
  | .getStage => [header 0x40#8 7#8 0#16]
  | .getFactor => [header 0x40#8 8#8 0#16]
  | .getFs => [header 0x40#8 9#8 0#16]
  | .getN => [header 0x40#8 10#8 0#16]
  | .getMode => [header 0x40#8 11#8 0#16]

/-! ### The rows of the opcode map as masks and patterns -/

/-- One row of `opcode_table.json`: a header word is one of the row's when `h &&& mask = pattern`. -/
structure OpcodeRow where
  pattern : Word
  mask : Word
  deriving DecidableEq, Repr

/-- A header word that is one of the row's. -/
def OpcodeRow.accepts (r : OpcodeRow) (h : Word) : Bool := h &&& r.mask == r.pattern

/-- R65: the 21 rows, in the order of the map. -/
def opcodeRows : List OpcodeRow :=
  [⟨0x00000000#32, 0xFFFFFFFF#32⟩, ⟨0x01000000#32, 0xFFFFFFFF#32⟩, ⟨0x02000000#32, 0xFFFFFFFF#32⟩,
   ⟨0x10000000#32, 0xFFFFFFFF#32⟩, ⟨0x11000000#32, 0xFFFFFFFF#32⟩, ⟨0x12000000#32, 0xFFFFFFFE#32⟩,
   ⟨0x20000000#32, 0xFFFFFFFF#32⟩, ⟨0x21000000#32, 0xFFFFFFFF#32⟩, ⟨0x30000000#32, 0xFFFFFFFF#32⟩,
   ⟨0x40000000#32, 0xFFFFFFFF#32⟩, ⟨0x40010000#32, 0xFFFFFFFF#32⟩, ⟨0x40020000#32, 0xFFFFFFFF#32⟩,
   ⟨0x40030000#32, 0xFFFFFFFF#32⟩, ⟨0x40040000#32, 0xFFFFFFFF#32⟩, ⟨0x40050000#32, 0xFFFFFFFF#32⟩,
   ⟨0x40060000#32, 0xFFFFFFFF#32⟩, ⟨0x40070000#32, 0xFFFFFFFF#32⟩, ⟨0x40080000#32, 0xFFFFFFFF#32⟩,
   ⟨0x40090000#32, 0xFFFFFFFF#32⟩, ⟨0x400A0000#32, 0xFFFFFFFF#32⟩, ⟨0x400B0000#32, 0xFFFFFFFF#32⟩]

/-! ### Words numbered as the opcode table numbers them -/

/-- The first `k` words of the bit string `w`, bit 0 the least significant bit of the first word. -/
def tableWords : Nat → Nat → List Word
  | 0, _ => []
  | k + 1, w => BitVec.ofNat 32 w :: tableWords k (w / 2 ^ 32)

/-- The words of the command whose bits are the low `nbits` bits of `w`, every bit above them 0: the
header and as many operand words as its opcode takes (R62); the header alone where `op` is not in
the map (R66 (a)). -/
def tableCommand (nbits w : Nat) : List Word :=
  (tableWords longestCommand (w % 2 ^ nbits)).take
    (1 + (operandCount (opField (BitVec.ofNat 32 (w % 2 ^ nbits)))).getD 0)

/-- The instruction the decoder reads from the command whose bits are `w`, numbered as
`spec/opcode_table.json` numbers them; `none` where it refuses. -/
def decodeTableWord (nbits w : Nat) : Option Instr :=
  match decode (tableCommand nbits w) with
  | .command i _ => some i
  | .unknownOpcode _ => none
  | .reservedField _ => none
  | .incomplete => none

end Sys2Proof
end

