-- ==== Sys2Proof/Config.lean ====
section
/-!
DEFINITION. What an implementation fixes: the named constants of `00_scope.md` R4, the shape of the
open parameters (`92_eei_decisions.md`, "Open parameters in one place") and the two free values the
spec leaves without a number. The parameters are one record, `Params`, which every operation that
depends on one takes as an argument, the commands and the step of `Machine/Parametric.lean` among
them, so that a statement can quantify over it (R4); the machine itself runs with
`Sys2Proof.Machine.chip` (`Machine/Reference.lean`), the spec's own definitions
and defaults.
-/

namespace Sys2Proof

/-- R28: a 5-tuple of filter coefficients, each an s32 in Q3.28, in the order b0, b1, b2, a1, a2. -/
structure Coeffs where
  b0 : BitVec 32
  b1 : BitVec 32
  b2 : BitVec 32
  a1 : BitVec 32
  a2 : BitVec 32
  deriving DecidableEq, Repr

/-- R4: the parameters a model takes as named configuration constants. -/
structure Params where
  /-- `SINROM` (R14, R42): phase word to amplitude. -/
  sinrom : Word → Int
  /-- `DESIGN` (R15, R161): `fc`, `q`, `gain`, `fs` to five coefficients; `none` is `FAIL`. -/
  design : Word → Word → Word → Word → Option Coeffs
  /-- `XFADE[0..255]` (R43): each entry is a UQ0.8 value 0 .. 255, which the type says. -/
  xfade : BitVec 8 → BitVec 8
  /-- `FRAME_MAX` (R4, R47, D28): the largest frame size. -/
  frameMax : Nat

namespace Config

/-- R4: `ONE`, 1.0 in UQ1.23. -/
def one : Nat := 8388608

/-- R4: `FSC`, the full-scale magnitude of a Sample. -/
def fsc : Nat := 8388607

/-- R4: `XF_LEN`, samples in one coefficient crossfade. -/
def xfLen : Nat := 256

/-- R4: `FT_LEN`, entries of a sine frequency transition. -/
def ftLen : Nat := 256

/-- R4: `IR_LEN`, samples of a sine intensity ramp. -/
def irLen : Nat := 1000

/-- FREE VALUE (log 5). The frequency `O2` holds when the coupled product does not fit the u32 of
`O.f` (R23, R202): the spec names no way to bring it to the register's width. A function of the
coupling code and of the primary frequency, with no body. -/
opaque coupledOverflow : Nat → Nat → Word

/-- FREE VALUE (log 6). The half-period a square holds when `sq_half` does not fit the u32 of
`O.half` (R25, R110): the spec names no way to bring it to the register's width. A function of the
frequency word and of the sampling rate, with no body. -/
opaque halfOverflow : Nat → Nat → Word

end Config

/-- R48: the order of the four bytes of a word on a byte transport. -/
inductive ByteOrder
  | little
  | big
  deriving DecidableEq, Repr

/-- R4, R48: `BYTE_ORDER`, default little-endian; it matters to a byte transport only. -/
def Config.byteOrder : ByteOrder := .little

end Sys2Proof
end

