-- ==== Sys2Proof/Machine/Fixed.lean ====
section
/-!
DEFINITION. The arithmetic primitives of `00_scope.md` R7 to R12, over unbounded integers (R5).
-/

namespace Sys2Proof.Machine

/-- R7: `wrap_N(v)`, the signed N-bit integer congruent to `v`. -/
def wrapS (n : Nat) (v : Int) : Int := v.bmod (2 ^ n)

/-- R7: `wrapu_N(v)`, the unsigned N-bit integer congruent to `v`. -/
def wrapU (n : Nat) (v : Int) : Nat := (v % 2 ^ n).toNat

/-- R8: `asr(v, k)`, the floor of `v / 2^k`. -/
def asr (v : Int) (k : Nat) : Int := v / 2 ^ k

/-- R9: `rshr_sym(v, k)`, `v / 2^k` to the nearest integer, ties away from zero; for `k >= 1`. -/
def rshrSym (v : Int) (k : Nat) : Int :=
  if 0 ≤ v then asr (v + 2 ^ (k - 1)) k else -asr (-v + 2 ^ (k - 1)) k

/-- R10: `sat_fs(v)`, the clamp to plus and minus `FSC`. -/
def satFs (v : Int) : Int :=
  if v > Config.fsc then Config.fsc else if v < -Config.fsc then -Config.fsc else v

/-- R11: `fdiv(a, b)`, the floor of the quotient, for `b > 0`. -/
def fdiv (a b : Int) : Int := a / b

/-- R11: `tdiv(a, b)`, the quotient truncated toward zero, for `b > 0`. -/
def tdiv (a b : Int) : Int := if 0 ≤ a then a / b else -(-a / b)

/-- R11: `cdiv(a, b)`, the ceiling of the quotient, for `b > 0`. -/
def cdiv (a b : Nat) : Nat := (a + b - 1) / b

/-- R12: `rha` of the rational `num / den`: the nearest integer, ties away from zero. -/
def rha (num : Int) (den : Nat) : Int :=
  if 0 ≤ num then (2 * num + den) / (2 * den) else -((-(2 * num) + den) / (2 * den))

/-- The integer `v` as the bits of an `n`-bit two's-complement register. -/
def sreg (n : Nat) (v : Int) : BitVec n := BitVec.ofInt n v

/-- The integer `v` as the bits of an `n`-bit unsigned register. -/
def ureg (n : Nat) (v : Nat) : BitVec n := BitVec.ofNat n v

end Sys2Proof.Machine
end

