-- ==== Sys2Proof/Machine/Trig.lean ====
section
/-!
DEFINITION. Sine and cosine of a rational part of a turn as fixed-point integers with 256 fractional
bits, for the reference functions of `00_scope.md` R14 and R15. The argument is reduced exactly, on
the rational number, to the first eighth of a turn; there the alternating Taylor series is summed by
Horner's rule. Multiples of a quarter turn come out exact. The truncation error is below 2^-250
(log 3 says what rests on it).
-/

namespace Sys2Proof.Machine

/-- 1.0 with 256 fractional bits. -/
def trigOne : Nat := 2 ^ 256

/-- The floor of `pi * 2^256`. -/
def trigPi : Nat := 0x3243F6A8885A308D313198A2E03707344A4093822299F31D0082EFA98EC4E6C89

/-- `1 - x²/(n(n+1)) (1 - x²/((n+2)(n+3)) (1 - ...))`, `terms` deep, with `x2` for x². -/
def trigHorner (x2 : Nat) : (terms n : Nat) → Nat
  | 0, _ => trigOne
  | terms + 1, n => trigOne - x2 * trigHorner x2 terms (n + 2) / (trigOne * (n * (n + 1)))

/-- Terms of the series: for an argument of at most pi/4 the first one left out is below 2^-260. -/
def trigTerms : Nat := 28

/-- The sine of `x / 2^256`, for an argument of at most pi/4. -/
def sinSmall (x : Nat) : Nat := x * trigHorner (x * x / trigOne) trigTerms 2 / trigOne

/-- The cosine of `x / 2^256`, for an argument of at most pi/4. -/
def cosSmall (x : Nat) : Nat := trigHorner (x * x / trigOne) trigTerms 1

/-- The sine of the `r / b` part of a quarter turn, `r <= b`. -/
def sinQuarter (r b : Nat) : Nat :=
  if 2 * r ≤ b then sinSmall (trigPi * r / (2 * b)) else cosSmall (trigPi * (b - r) / (2 * b))

/-- The sine of `a / b` turns, for `b > 0`: by quadrant. -/
def sinTurns (a b : Nat) : Int :=
  let r := 4 * (a % b) % b
  match 4 * (a % b) / b with
  | 0 => sinQuarter r b
  | 1 => sinQuarter (b - r) b
  | 2 => -sinQuarter r b
  | _ => -sinQuarter (b - r) b

/-- The cosine of `a / b` turns: the sine a quarter turn on. -/
def cosTurns (a b : Nat) : Int := sinTurns (4 * a + b) (4 * b)

end Sys2Proof.Machine
end

