-- ==== Sys2Proof/Machine/Reference.lean ====
section
/-!
DEFINITION. The open parameters at the values the spec gives them: the reference functions `SINROM`
(`00_scope.md` R14) and `DESIGN` (R15), the default crossfade table (`20_memory.md` R43) and the
default `FRAME_MAX` (R4, D28). `chip` is the machine's parameter set (log 2).
-/

namespace Sys2Proof.Machine

/-- R14: `SINROM(p) = rha(2^23 sin(2 pi p / 2^32))`. -/
def sinrom (p : Word) : Int := rshrSym (sinTurns p.toNat (2 ^ 32)) (256 - 23)

/-- R15: an integer that fits the Q3.28 container. -/
def fitsS32 (v : Int) : Bool := decide (-2 ^ 31 ≤ v ∧ v < 2 ^ 31)

/-- R15: the five integers `rha(B0 * 2^28) .. rha(A2 * 2^28)`. With `phi = 2 pi Fc / fs`, `C` its
cosine and `S` its sine, multiplying numerator and denominator of the rule's expressions by
`2 cos²(phi / 2)` gives, over the common denominator `2 Q + S`, `B0 = G Q (1 - C)`, `B1 = 2 B0`,
`B2 = B0`, `A1 = -4 Q C` and `A2 = 2 Q - S`; `q`, `gain` are UQ16.16 words (log 3). -/
def designInts (fc q gain fs : Nat) : Int × Int × Int × Int × Int :=
  let s : Int := sinTurns fc (2 ^ 16 * fs)
  let c : Int := cosTurns fc (2 ^ 16 * fs)
  let den : Nat := (2 * q * trigOne + 2 ^ 16 * s).toNat
  let b : Int := 2 ^ 12 * gain * q * (trigOne - c)
  (rha b den, rha (2 * b) den, rha b den, rha (-(2 ^ 30) * q * c) den,
    rha (2 ^ 28 * (2 * q * trigOne - 2 ^ 16 * s)) den)

/-- R15: `DESIGN(fc, q, gain, fs)`; `none` is `FAIL`. -/
def design (fc q gain fs : Word) : Option Coeffs :=
  if q = 0#32 ∨ fs = 0#32 ∨ fc = 0#32 ∨ fc.toNat ≥ 2 ^ 15 * fs.toNat then none
  else
    match designInts fc.toNat q.toNat gain.toNat fs.toNat with
    | (b0, b1, b2, a1, a2) =>
      if fitsS32 b0 && fitsS32 b1 && fitsS32 b2 && fitsS32 a1 && fitsS32 a2 then
        some ⟨sreg 32 b0, sreg 32 b1, sreg 32 b2, sreg 32 a1, sreg 32 a2⟩
      else none

/-- R4, R14, R15, R43: the parameters with which the machine runs. -/
def chip : Params :=
  { sinrom := sinrom
    design := design
    xfade := fun i => i
    frameMax := 65536 }

end Sys2Proof.Machine
end

