-- ==== Sys2Proof/Machine/State.lean ====
section
/-!
DEFINITION. The architectural state (`10_state.md` R20 to R31), plain data. The core has no
addressable memory, no program counter, no numbered register file, no mode and no exception
register (R29, R35, `20_memory.md` R40, `60_exceptions.md` R246 to R249); what it has is the tree
of component registers and the two word streams (`20_memory.md` R41).
-/

namespace Sys2Proof.Machine

/-! ### Enumerations -/

/-- R21: `CFG.kind`, 0 saw, 1 sine, 2 square. -/
inductive Waveform
  | saw
  | sine
  | square
  deriving DecidableEq, Repr

/-- R21: `CFG.coupling`, 0 none, 1 minor third, 2 major third, 3 fifth, 4 octave. -/
inductive Coupling
  | uncoupled
  | minorThird
  | majorThird
  | fifth
  | octave
  deriving DecidableEq, Repr

/-- R27, R140: the stages of the envelope, 0 `IDLE` .. 4 `RELEASE`. -/
inductive Stage
  | idle
  | attack
  | decay
  | sustain
  | release
  deriving DecidableEq, Repr

/-- R26, R121: the sub-state of a sine frequency transition, 0 `NONE`, 1 `ARMED`, 2 `RUN`. -/
inductive Transition
  | none
  | armed
  | run
  deriving DecidableEq, Repr

/-- R25: `O.sign` of a square, +1 or -1. -/
inductive Sign
  | plus
  | minus
  deriving DecidableEq, Repr

/-- R240: the status codes. `enomem` is never produced (R245). -/
inductive Status
  | ok
  | einval
  | eagain
  | enomem
  | enotready
  | ebadop
  deriving DecidableEq, Repr

/-! ### The oscillator (R23 to R26) -/

/-- R24: the registers of the saw. `amp` is an s32. -/
structure SawRegs where
  max : BitVec 23
  step : BitVec 24
  amp : BitVec 32
  deriving DecidableEq, Repr

/-- R25: the registers of the square. -/
structure SquareRegs where
  max : BitVec 23
  sign : Sign
  cnt : Word
  half : Word
  deriving DecidableEq, Repr

/-- R26: the registers of the sine. -/
structure SineRegs where
  n : Word
  fCur : Word
  pPrev : Word
  tr : Transition
  trK : BitVec 8
  pt : Vector Word 256
  iEff : BitVec 24
  iStart : BitVec 24
  iTgt : BitVec 24
  rampK : BitVec 10
  rampOn : Bool
  deriving DecidableEq, Repr

/-- R20: an oscillator has the registers of the one variant its kind selects. -/
inductive WaveRegs
  | saw (r : SawRegs)
  | sine (r : SineRegs)
  | square (r : SquareRegs)
  deriving DecidableEq, Repr

/-- R23: an oscillator, `O.f` (UQ16.16) and `O.i` (UQ1.23) beside the registers of its variant. -/
structure Osc where
  f : Word
  i : BitVec 24
  wave : WaveRegs
  deriving DecidableEq, Repr

/-! ### The envelope (R21, R27) -/

/-- R21, R27: the envelope, its segment lengths and sustain factor, and its four moving registers. -/
structure Envelope where
  na : Word
  nd : Word
  nr : Word
  s : BitVec 24
  stage : Stage
  idx : Word
  factor : BitVec 24
  cap : BitVec 24
  deriving DecidableEq, Repr

/-! ### The filter (R28) -/

/-- R28: the filter. `swDelta` is an s33 in Q16.16; the delay lines are s32 in Q8.23. -/
structure Filter where
  cur : Coeffs
  start : Coeffs
  tgt : Coeffs
  xfOn : Bool
  xfIdx : BitVec 8
  x1 : BitVec 32
  x2 : BitVec 32
  y1 : BitVec 32
  y2 : BitVec 32
  fc : Word
  q : Word
  gain : Word
  swOn : Bool
  swTarget : Word
  swRem : Word
  swDelta : BitVec 33
  deriving DecidableEq, Repr

/-! ### The voice and the core (R20 to R22, R30) -/

/-- R21: the configuration registers that belong to no component. -/
structure Cfg where
  fs : Word
  n : Word
  kind : Waveform
  coupling : Coupling
  deriving DecidableEq, Repr

/-- R20, R22: the Voice. `o2` is present if and only if `CFG.coupling` is not none. -/
structure Voice where
  cfg : Cfg
  int : BitVec 24
  o1 : Osc
  o2 : Option Osc
  env : Envelope
  filt : Filter
  deriving DecidableEq, Repr

/-- R30: the three sticky bits of `STATUS`. -/
structure Sticky where
  filtOvf : Bool
  designErr : Bool
  idxWrap : Bool
  deriving DecidableEq, Repr

/-- R30: no sticky bit set. -/
def Sticky.clear : Sticky := ⟨false, false, false⟩

/-- R20, R30, R41: the state of the core. -/
structure State where
  /-- R41: the words of the command stream that the core has not consumed, the oldest first. -/
  cmd : List Word
  /-- R41: the words of the response stream that the host has not taken, the oldest first. -/
  resp : List Word
  /-- R20, R33, R34: the Voice and all its registers; `none` while `V.configured = 0`, where no
  component register holds a value. -/
  voice : Option Voice
  /-- R30: the sticky bits of `STATUS`. -/
  sticky : Sticky
  deriving DecidableEq, Repr

/-- R246, R247, R253: the core raises no interrupt, takes no trap and has no exception; every
failure is a status word. So there is no reason a step could stop with a fault, and this type has no
constructor. Safe: the spec gives every header word and every state a behaviour (R66 (c)). -/
inductive Fault
  deriving DecidableEq, Repr

/-- The refusals of the model. -/
inductive Refusal
  /-- Raised by an arm of `exec` whose instruction has no meaning yet; no arm raises it. Safe: the
  model stops where the hardware goes on. -/
  | notModelled (mnemonic : String)
  deriving DecidableEq, Repr

/-- R33, R260, R261: the core after hardware reset. Both streams are empty, `V.configured = 0`, so
that no component register exists, and every sticky bit is 0. -/
def State.reset : State :=
  { cmd := [], resp := [], voice := none, sticky := Sticky.clear }

end Sys2Proof.Machine
end

