-- ==== Sys2Proof/Machine/Operands.lean ====
section
/-!
DEFINITION. What an operand word means (`30_encoding.md` R63): the enumerated operands, the range
checks, the amplitude of an intensity, the coupling ratios and the coupled frequency
(`40_oscillator.md` R101, R103, `20_memory.md` R44, `43_voice.md` R202), and the number that stands
for each enumeration in a response word (R21, R27, R209).
-/

namespace Sys2Proof.Machine

/-! ### Enumerated operands and their numbers -/

/-- R63: `kind`, 0 saw, 1 sine, 2 square; any other word names none. -/
def Waveform.ofWord (w : Word) : Option Waveform :=
  match w.toNat with
  | 0 => some .saw
  | 1 => some .sine
  | 2 => some .square
  | _ => none

/-- R21: the number of a waveform kind. -/
def Waveform.code : Waveform → Nat
  | .saw => 0
  | .sine => 1
  | .square => 2

/-- R63: `coupling`, 0 none .. 4 octave; any other word names none. -/
def Coupling.ofWord (w : Word) : Option Coupling :=
  match w.toNat with
  | 0 => some .uncoupled
  | 1 => some .minorThird
  | 2 => some .majorThird
  | 3 => some .fifth
  | 4 => some .octave
  | _ => none

/-- R21: the number of a coupling mode. -/
def Coupling.code : Coupling → Nat
  | .uncoupled => 0
  | .minorThird => 1
  | .majorThird => 2
  | .fifth => 3
  | .octave => 4

/-- R140: the number of an envelope stage. -/
def Stage.code : Stage → Nat
  | .idle => 0
  | .attack => 1
  | .decay => 2
  | .sustain => 3
  | .release => 4

/-- R25: the value of a sign. -/
def Sign.toInt : Sign → Int
  | .plus => 1
  | .minus => -1

/-- R113: the other sign. -/
def Sign.flip : Sign → Sign
  | .plus => .minus
  | .minus => .plus

/-! ### Range checks and scalings -/

/-- R101: `freq_ok(f, fs)`, the frequency lies strictly inside (0, fs/2). -/
abbrev FreqOk (f fs : Nat) : Prop := 0 < f ∧ f < 2 ^ 15 * fs

/-- R6, R204: an intensity or a sustain factor in [0, 1]. -/
abbrev UnitOk (i : Nat) : Prop := i ≤ Config.one

/-- R103: `amp_of(i)`, the peak amplitude of an intensity. -/
def ampOf (i : Nat) : Nat := Config.fsc * i / 2 ^ 23

/-! ### Coupling -/

/-- R44: `RATIO[c]`, UQ2.30; the mode none has no entry. -/
def Coupling.ratio : Coupling → Option Nat
  | .uncoupled => none
  | .minorThird => some 1276901417
  | .majorThird => some 1352829926
  | .fifth => some 1608794974
  | .octave => some 2147483648

/-- R202: `couple(f)` as an integer, the product rounded down; none where there is no `O2`. -/
def coupled (c : Coupling) (f : Word) : Option Nat :=
  c.ratio.map fun r => f.toNat * r / 2 ^ 30

/-- A free word kept inside the limit that R23, R25 set on the register: at least 1. -/
def atLeastOne (w : Word) : Word := if w = 0#32 then 1#32 else w

/-- R202, R23: the word `O2.f` takes for the coupled frequency `f2` of the primary `f`. Where `f2`
does not fit the u32 register the value is free (log 5), at least 1 as R32 requires. -/
def coupledWord (c : Coupling) (f : Word) (f2 : Nat) : Word :=
  if f2 < 2 ^ 32 then ureg 32 f2 else atLeastOne (Config.coupledOverflow c.code f.toNat)

/-- R201, R203: the coupled frequency, where there is one, is in range. -/
def coupledOk (c : Coupling) (f fs : Word) : Bool :=
  match coupled c f with
  | none => true
  | some f2 => decide (FreqOk f2 fs.toNat)

end Sys2Proof.Machine
end

