-- ==== Sys2Proof/Machine/Envelope.lean ====
section
/-!
DEFINITION. The envelope (`41_envelope.md`): segment lengths, the factor of a stage, entering a
stage, `construct`, `trigger`, `sample` and `process`.
-/

namespace Sys2Proof.Machine

/-- R141: the length in samples of a segment of `ms` milliseconds. -/
def segmentLen (ms fs : Nat) : Nat := ms * fs / 1000

/-- R142: `fac(stage, k)`, which is also entry `k` of the ramp table of the stage (R45). -/
def Envelope.fac (e : Envelope) (stage : Stage) (k : Nat) : Nat :=
  match stage with
  | .attack => Config.one * k / e.na.toNat
  | .decay => Config.one - k * (Config.one - e.s.toNat) / e.nd.toNat
  | .release => e.s.toNat - k * e.s.toNat / e.nr.toNat
  | .sustain => e.s.toNat
  | .idle => 0

/-- R143: the stage entered on a request for `stage`: a stage whose table is empty is skipped. -/
def Envelope.landing (e : Envelope) (stage : Stage) : Stage :=
  let s1 := if stage = .attack ∧ e.na = 0#32 then .decay else stage
  let s2 := if s1 = .decay ∧ e.nd = 0#32 then .sustain else s1
  if s2 = .release ∧ e.nr = 0#32 then .idle else s2

/-- R143: `enter(stage)`. -/
def Envelope.enter (e : Envelope) (stage : Stage) : Envelope :=
  { e with
    stage := e.landing stage
    idx := 0#32
    factor := ureg 24 (e.fac (e.landing stage) 0) }

/-- R150: `construct(E, fs, attack_ms, decay_ms, S, release_ms)`. -/
def envInit (fs attackMs decayMs sustain releaseMs : Word) : Envelope :=
  { na := ureg 32 (segmentLen attackMs.toNat fs.toNat)
    nd := ureg 32 (segmentLen decayMs.toNat fs.toNat)
    nr := ureg 32 (segmentLen releaseMs.toNat fs.toNat)
    s := ureg 24 sustain.toNat
    stage := .idle
    idx := 0#32
    factor := 0#24
    cap := 0#24 }

/-- R30, R242: the stages in which the envelope is busy. -/
def Stage.busy : Stage → Bool
  | .attack => true
  | .decay => true
  | .release => true
  | .idle => false
  | .sustain => false

/-- R144: `trigger(E, 1, i)`, note on. -/
def Envelope.noteOn (i : BitVec 24) (e : Envelope) : Except Status Envelope :=
  match e.stage with
  | .idle => .ok (Envelope.enter { e with cap := i } .attack)
  | .sustain => .ok e
  | .attack => .error .eagain
  | .decay => .error .eagain
  | .release => .error .eagain

/-- R145, R149: `trigger(E, 0, i)`, note off; the release starts from the sustain factor. -/
def Envelope.noteOff (e : Envelope) : Envelope :=
  match e.stage with
  | .idle => e
  | .release => e
  | .attack => e.enter .release
  | .decay => e.enter .release
  | .sustain => e.enter .release

/-- R144, R145: `trigger(E, on, i)`. -/
def Envelope.trigger (on : Bool) (i : BitVec 24) (e : Envelope) : Except Status Envelope :=
  if on then e.noteOn i else .ok e.noteOff

/-- R146: the length of the running segment and the stage that follows it; none where the envelope
does not advance. -/
def Envelope.segment (e : Envelope) : Option (Word × Stage) :=
  match e.stage with
  | .attack => some (e.na, .decay)
  | .decay => some (e.nd, .sustain)
  | .release => some (e.nr, .idle)
  | .idle => none
  | .sustain => none

/-- R146: the step of the state machine after a sample. -/
def Envelope.advance (e : Envelope) : Envelope :=
  match e.segment with
  | none => e
  | some (len, next) =>
    if e.idx.toNat + 1 ≥ len.toNat then e.enter next
    else
      { e with
        idx := ureg 32 (e.idx.toNat + 1)
        factor := ureg 24 (e.fac e.stage (e.idx.toNat + 1)) }

/-- R146: the gain of the sample, UQ1.23, rounded down. -/
def Envelope.gain (e : Envelope) : Nat := e.cap.toNat * e.factor.toNat / 2 ^ 23

/-- R146: `sample(E)`. -/
def Envelope.sample (e : Envelope) : Nat × Envelope := (e.gain, e.advance)

/-- R147: `process(E, n)`: `n` gains in order. -/
def Envelope.process : Nat → Envelope → List Nat × Envelope
  | 0, e => ([], e)
  | n + 1, e =>
    match Envelope.process n e.advance with
    | (gs, e2) => (e.gain :: gs, e2)

end Sys2Proof.Machine
end

