-- ==== Sys2Proof/Machine/Filter.lean ====
section
/-!
DEFINITION. The low-pass filter (`42_filter.md`): `construct`, `update`, `start_fc_sweep`,
`next_segment`, the crossfade advance, the difference equation, `sample` and `process`. `DESIGN` and
`XFADE` come from the parameters.
-/

namespace Sys2Proof.Machine

/-- R162: `construct(F, fs, fc, q, gain)` with the coefficients `d` that `DESIGN` gave. -/
def filterInit (d : Coeffs) (fc q gain : Word) : Filter :=
  { cur := d, start := d, tgt := d, xfOn := false, xfIdx := 0#8
    x1 := 0#32, x2 := 0#32, y1 := 0#32, y2 := 0#32
    fc := fc, q := q, gain := gain
    swOn := false, swTarget := 0#32, swRem := 0#32, swDelta := 0#33 }

/-- R163, R165: a crossfade from the coefficients in effect to `d` starts. -/
def Filter.fadeTo (d : Coeffs) (F : Filter) : Filter :=
  { F with start := F.cur, tgt := d, xfIdx := 0#8, xfOn := true }

/-- R163: `update(F, fc, q, gain)`. -/
def Filter.update (P : Params) (fs fc q gain : Word) (F : Filter) : Except Status Filter :=
  match P.design fc q gain fs with
  | none => .error .einval
  | some d =>
    if F.swOn then .error .eagain
    else .ok (Filter.fadeTo d { F with fc := fc, q := q, gain := gain })

/-- R165: the cutoff of the next sweep segment. -/
def Filter.nextFc (F : Filter) : Word :=
  if F.swRem = 1#32 then F.swTarget else BitVec.ofInt 32 (F.fc.toNat + F.swDelta.toInt)

/-- R165: `next_segment(F)`: the filter after it and whether `DESIGN` failed. -/
def Filter.nextSegment (P : Params) (fs : Word) (F : Filter) : Filter × Bool :=
  match P.design F.nextFc F.q F.gain fs with
  | none =>
    ({ F with fc := F.nextFc, swRem := 0#32, swOn := false, xfOn := false, xfIdx := 0#8 }, true)
  | some d => (Filter.fadeTo d { F with fc := F.nextFc, swRem := F.swRem - 1#32 }, false)

/-- R164: the sweep registers as `start_fc_sweep` sets them, before the first segment. -/
def Filter.armSweep (targetFc totalSamples : Word) (F : Filter) : Filter :=
  let steps := totalSamples.toNat / Config.xfLen
  { F with
    swTarget := targetFc
    swDelta := sreg 33 (tdiv ((targetFc.toNat : Int) - F.fc.toNat) steps)
    swRem := ureg 32 steps
    swOn := true }

/-- R164: `start_fc_sweep(F, target_fc, total_samples)`: the filter and whether `DESIGN` failed. -/
def Filter.startSweep (P : Params) (fs targetFc totalSamples : Word) (F : Filter) :
    Except Status (Filter × Bool) :=
  if totalSamples.toNat < Config.xfLen ∨ ¬FreqOk targetFc.toNat fs.toNat then .error .einval
  else if F.swOn ∨ F.xfOn then .error .eagain
  else .ok ((F.armSweep targetFc totalSamples).nextSegment P fs)

/-- R166: one coefficient of the crossfade at table entry `x`. -/
def fadeCoeff (x : BitVec 8) (start tgt : BitVec 32) : BitVec 32 :=
  sreg 32 (start.toInt + asr ((tgt.toInt - start.toInt) * x.toNat) 8)

/-- R166: the five coefficients of the crossfade at table entry `x`. -/
def fade (x : BitVec 8) (start tgt : Coeffs) : Coeffs :=
  { b0 := fadeCoeff x start.b0 tgt.b0
    b1 := fadeCoeff x start.b1 tgt.b1
    b2 := fadeCoeff x start.b2 tgt.b2
    a1 := fadeCoeff x start.a1 tgt.a1
    a2 := fadeCoeff x start.a2 tgt.a2 }

/-- R166: the crossfade advance while `F.xf_on = 1`: the filter and whether `DESIGN` failed. -/
def Filter.fadeStep (P : Params) (fs : Word) (F : Filter) : Filter × Bool :=
  if F.xfIdx.toNat + 1 < Config.xfLen then
    ({ F with
        xfIdx := F.xfIdx + 1#8
        cur := fade (P.xfade (F.xfIdx + 1#8)) F.start F.tgt }, false)
  else if F.swOn ∧ F.swRem ≠ 0#32 then
    Filter.nextSegment P fs { F with cur := F.tgt, xfIdx := 0#8 }
  else ({ F with cur := F.tgt, xfIdx := 0#8, xfOn := false, swOn := false }, false)

/-- R173 step 1. -/
def Filter.advance (P : Params) (fs : Word) (F : Filter) : Filter × Bool :=
  if F.xfOn then F.fadeStep P fs else (F, false)

/-- R172: the accumulator, wrapped to 64 bits. -/
def Filter.accumulate (x : Int) (F : Filter) : Int :=
  wrapS 64
    (F.cur.b0.toInt * x + F.cur.b1.toInt * F.x1.toInt + F.cur.b2.toInt * F.x2.toInt
      - F.cur.a1.toInt * F.y1.toInt - F.cur.a2.toInt * F.y2.toInt)

/-- R172: the shifted result, before it is brought to 32 bits. -/
def Filter.result (x : Int) (F : Filter) : Int := rshrSym (F.accumulate x) 28

/-- R172: the difference equation: the output, the filter after it and whether the result was
wrapped. -/
def Filter.biquad (x : Int) (F : Filter) : Int × Filter × Bool :=
  let y := wrapS 32 (F.result x)
  (y, { F with x2 := F.x1, x1 := sreg 32 x, y2 := F.y1, y1 := sreg 32 y }, y != F.result x)

/-- R172, R173: what one filter sample gives: the output, the filter after it, whether the result
was wrapped (`FILT_OVF`) and whether a segment's `DESIGN` failed (`DESIGN_ERR`). -/
structure FilterOut where
  y : Int
  filt : Filter
  ovf : Bool
  designErr : Bool

/-- R173: `sample(F, x)`. -/
def Filter.sample (P : Params) (fs : Word) (x : Int) (F : Filter) : FilterOut :=
  match F.advance P fs with
  | (F1, e) =>
    match F1.biquad x with
    | (y, F2, o) => { y := y, filt := F2, ovf := o, designErr := e }

/-- R174: `process(F, samples, n)`: the outputs in order, the filter after them, and whether any
sample was wrapped and any segment's `DESIGN` failed. -/
def Filter.process (P : Params) (fs : Word) :
    List Int → Filter → List Int × Filter × Bool × Bool
  | [], F => ([], F, false, false)
  | x :: xs, F =>
    let o := F.sample P fs x
    match Filter.process P fs xs o.filt with
    | (ys, F2, ovf, err) => (o.y :: ys, F2, o.ovf || ovf, o.designErr || err)

end Sys2Proof.Machine
end

