-- ==== Sys2Proof/Machine/Oscillator.lean ====
section
/-!
DEFINITION. The oscillator (`40_oscillator.md`): `construct`, `set_frequency`, `set_intensity` and
`sample` of the saw, the square and the sine. A failed operation returns a status and no state
(`60_exceptions.md` R243).
-/

namespace Sys2Proof.Machine

/-! ### Saw (R105 to R108) -/

/-- R105: `saw_step(max, f, fs)`. -/
def sawStep (max f fs : Nat) : Nat := 2 * max * f / (2 ^ 16 * fs)

/-- R105: the saw at construction. -/
def sawInit (fs f : Word) (i : BitVec 24) : SawRegs :=
  { max := ureg 23 (ampOf i.toNat)
    step := ureg 24 (sawStep (ampOf i.toNat) f.toNat fs.toNat)
    amp := ureg 32 (ampOf i.toNat) }

/-- R106: the registers after `set_frequency`. -/
def sawSetFreq (fs f : Word) (r : SawRegs) : SawRegs :=
  { r with step := ureg 24 (sawStep r.max.toNat f.toNat fs.toNat) }

/-- R107: the registers after `set_intensity`, the amplitude clamped into the new range. -/
def sawSetInt (fs f : Word) (i : BitVec 24) (r : SawRegs) : SawRegs :=
  let m : Int := ampOf i.toNat
  { max := ureg 23 (ampOf i.toNat)
    step := ureg 24 (sawStep (ampOf i.toNat) f.toNat fs.toNat)
    amp := sreg 32 (min (max r.amp.toInt (-m)) m) }

/-- R108: one saw sample and the registers after it. -/
def sawSample (r : SawRegs) : Int × SawRegs :=
  let m : Int := r.max.toNat
  let t : Int := r.amp.toInt - r.step.toNat
  (r.amp.toInt, { r with amp := sreg 32 (if t < -m then m - (-m - t) else t) })

/-! ### Square (R110 to R113) -/

/-- R110: `sq_half(f, fs)` as an integer. -/
def sqHalf (f fs : Nat) : Nat := (2 ^ 16 * fs + f) / (2 * f)

/-- R25, R110: the word `O.half` takes. Where `sq_half` does not fit the u32 register the value is
free (log 6), at least 1 as R25 requires. -/
def sqHalfWord (f fs : Word) : Word :=
  if sqHalf f.toNat fs.toNat < 2 ^ 32 then ureg 32 (sqHalf f.toNat fs.toNat)
  else atLeastOne (Config.halfOverflow f.toNat fs.toNat)

/-- R110: the square at construction. -/
def squareInit (fs f : Word) (i : BitVec 24) : SquareRegs :=
  { max := ureg 23 (ampOf i.toNat), sign := .plus, cnt := 0#32, half := sqHalfWord f fs }

/-- R111: the registers after `set_frequency`. -/
def squareSetFreq (fs f : Word) (r : SquareRegs) : SquareRegs :=
  { r with half := sqHalfWord f fs, cnt := 0#32 }

/-- R112: the registers after `set_intensity`. -/
def squareSetInt (i : BitVec 24) (r : SquareRegs) : SquareRegs :=
  { r with max := ureg 23 (ampOf i.toNat) }

/-- R113: one square sample and the registers after it. -/
def squareSample (r : SquareRegs) : Int × SquareRegs :=
  (r.sign.toInt * r.max.toNat,
    if r.cnt.toNat + 1 ≥ r.half.toNat then { r with sign := r.sign.flip, cnt := 0#32 }
    else { r with cnt := ureg 32 (r.cnt.toNat + 1) })

/-! ### Sine: value, phase and slope (R116, R117, R124) -/

/-- R116: `phase(f, n, fs)`. -/
def phase (f n fs : Nat) : Word := ureg 32 (2 ^ 16 * (f * n) / fs)

/-- R117: `sine_value(ieff, p)`. -/
def sineValue (P : Params) (ieff : BitVec 24) (p : Word) : Int :=
  rshrSym (ampOf ieff.toNat * P.sinrom p) 23

/-- R124: the phase is in the first or the last quarter turn. -/
def ascending (p : Word) : Bool := p.extractLsb' 30 2 == 0#2 || p.extractLsb' 30 2 == 3#2

/-- R115: the sine at construction. -/
def sineInit (f : Word) (i : BitVec 24) : SineRegs :=
  { n := 0#32, fCur := f, pPrev := 0#32, tr := .none, trK := 0#8, pt := Vector.replicate 256 0#32
    iEff := i, iStart := i, iTgt := i, rampK := 0#10, rampOn := false }

/-! ### Sine: the intensity ramp (R118, R119) -/

/-- R118: the registers after `set_intensity`. -/
def sineSetInt (i : BitVec 24) (r : SineRegs) : SineRegs :=
  { r with iStart := r.iEff, iTgt := i, rampK := 0#10, rampOn := true }

/-- R119: the intensity in effect `k` steps into the ramp, `k < 1000`. -/
def rampValue (iStart iTgt : BitVec 24) (k : Nat) : Int :=
  iStart.toNat + fdiv (((iTgt.toNat : Int) - iStart.toNat) * k) Config.irLen

/-- R119, R126 step 1: one step of the ramp while it runs. -/
def rampStep (r : SineRegs) : SineRegs :=
  if r.rampOn then
    if r.rampK.toNat + 1 ≥ Config.irLen then
      { r with iEff := r.iTgt, rampOn := false, rampK := 0#10 }
    else
      { r with
        rampK := ureg 10 (r.rampK.toNat + 1)
        iEff := sreg 24 (rampValue r.iStart r.iTgt (r.rampK.toNat + 1)) }
  else r

/-! ### Sine: the frequency transition (R120 to R123) -/

/-- R120: the instantaneous frequency of transition entry `j`. -/
def transitionFreq (fCur f : Word) (j : Nat) : Int :=
  fCur.toNat + asr (((f.toNat : Int) - fCur.toNat) * (j + 1)) 8

/-- R120: the phase increment of transition entry `j`. -/
def transitionInc (fCur f fs : Word) (j : Nat) : Nat :=
  (2 ^ 16 * transitionFreq fCur f j / fs.toNat).toNat

/-- R120: `k` entries of the transition table from entry `j` on, `acc` the phase before them. -/
def transitionEntries (fCur f fs : Word) : (k j : Nat) → (acc : Word) → List Word
  | 0, _, _ => []
  | k + 1, j, acc =>
    (acc + ureg 32 (transitionInc fCur f fs j)) ::
      transitionEntries fCur f fs k (j + 1) (acc + ureg 32 (transitionInc fCur f fs j))

/-- The table has as many entries as asked for. -/
theorem transitionEntries_length (fCur f fs : Word) (k j : Nat) (acc : Word) :
    (transitionEntries fCur f fs k j acc).length = k := by
  induction k generalizing j acc with
  | zero => rfl
  | succ k ih => simp [transitionEntries, ih]

/-- R46, R120: `O.pt[0..255]`, the phases of the transition from `fCur` to `f`. -/
def transitionTable (fCur f fs : Word) : Vector Word 256 :=
  ⟨(transitionEntries fCur f fs 256 0 0#32).toArray, by simp [transitionEntries_length]⟩

/-- R120: the registers after an accepted `set_frequency`. -/
def sineSetFreq (fs f : Word) (r : SineRegs) : SineRegs :=
  { r with pt := transitionTable r.fCur f fs, tr := .armed, trK := 0#8 }

/-- What the phase step of one sine sample leaves (R122, R123): the phase of the sample, the
registers, whether the sample index wrapped (R127) and whether the transition is done. -/
structure PhaseStep where
  p : Word
  regs : SineRegs
  wrapped : Bool
  done : Bool

/-- R122, R127: the phase step in `NONE` and `ARMED`. -/
def steadyStep (fs : Word) (r : SineRegs) : PhaseStep :=
  let p := phase r.fCur.toNat r.n.toNat fs.toNat
  { p := p
    regs :=
      if r.tr = .armed ∧ p < r.pPrev then { r with n := r.n + 1#32, tr := .run, trK := 0#8 }
      else { r with n := r.n + 1#32 }
    wrapped := r.n == BitVec.allOnes 32
    done := false }

/-- R123: the phase step in `RUN`. -/
def runStep (r : SineRegs) : PhaseStep :=
  { p := r.pt[r.trK.toNat]'r.trK.isLt
    regs := { r with trK := r.trK + 1#8 }
    wrapped := false
    done := r.trK.toNat + 1 == Config.ftLen }

/-- R126 step 2. -/
def phaseStep (fs : Word) (r : SineRegs) : PhaseStep :=
  match r.tr with
  | .run => runStep r
  | .none => steadyStep fs r
  | .armed => steadyStep fs r

/-! ### Sine: resynchronisation (R125) -/

/-- R125: the search over `k` indices from `m` on; `best` is the best index so far with its
deviation, none before the first candidate. The strict comparison keeps the lowest index. -/
def resyncSearch (P : Params) (fs f : Word) (ieff : BitVec 24) (want : Bool) (out : Int) :
    (k m : Nat) → (best : Option (Nat × Nat)) → Option (Nat × Nat)
  | 0, _, best => best
  | k + 1, m, best =>
    let pm := phase f.toNat m fs.toNat
    let d := (sineValue P ieff pm - out).natAbs
    let best' :=
      if ascending pm = want then
        match best with
        | none => some (m, d)
        | some (b, bd) => if d < bd then some (m, d) else some (b, bd)
      else best
    resyncSearch P fs f ieff want out k (m + 1) best'

/-- R125: one period window, `ceil(fs / f)` indices. -/
def resyncWindow (fs f : Word) : Nat := cdiv (2 ^ 16 * fs.toNat) f.toNat

/-- R125: the index of the window whose ideal value is closest to `out` on the slope of `p`. -/
def resyncIndex (P : Params) (fs f : Word) (ieff : BitVec 24) (p : Word) (out : Int) : Nat :=
  match resyncSearch P fs f ieff (ascending p) out (resyncWindow fs f) 0 none with
  | none => 0
  | some (m, _) => m

/-- R125: the registers after the resynchronisation on the sample `out` of phase `p`. -/
def resync (P : Params) (fs f : Word) (p : Word) (out : Int) (r : SineRegs) : SineRegs :=
  let best := resyncIndex P fs f r.iEff p out
  { r with
    fCur := f
    pPrev := phase f.toNat best fs.toNat
    n := ureg 32 (best + 1)
    tr := .none
    trK := 0#8 }

/-- R126: one sine sample: the value, the registers after it and whether the index wrapped. -/
def sineSample (P : Params) (fs f : Word) (r : SineRegs) : Int × SineRegs × Bool :=
  let st := phaseStep fs (rampStep r)
  let out := sineValue P st.regs.iEff st.p
  let r3 : SineRegs := { st.regs with pPrev := st.p }
  (out, if st.done then resync P fs f st.p out r3 else r3, st.wrapped)

/-! ### The operations common to the three kinds -/

/-- R104: `construct(O, kind, fs, f, i)`. -/
def oscInit (kind : Waveform) (fs f : Word) (i : BitVec 24) : Osc :=
  { f := f
    i := i
    wave :=
      match kind with
      | .saw => .saw (sawInit fs f i)
      | .sine => .sine (sineInit f i)
      | .square => .square (squareInit fs f i) }

/-- R102: `busy(O)`. -/
def Osc.busy (o : Osc) : Bool :=
  match o.wave with
  | .saw _ => false
  | .sine r => r.tr != .none
  | .square _ => false

/-- R106, R111, R120: `set_frequency(O, f)`. -/
def Osc.setFrequency (fs f : Word) (o : Osc) : Except Status Osc :=
  if ¬FreqOk f.toNat fs.toNat then .error .einval
  else if o.busy then .error .eagain
  else
    .ok
      { o with
        f := f
        wave :=
          match o.wave with
          | .saw r => .saw (sawSetFreq fs f r)
          | .sine r => .sine (sineSetFreq fs f r)
          | .square r => .square (squareSetFreq fs f r) }

/-- R107, R112, R118: `set_intensity(O, i)`. -/
def Osc.setIntensity (fs i : Word) (o : Osc) : Except Status Osc :=
  if ¬UnitOk i.toNat then .error .einval
  else
    .ok
      { o with
        i := ureg 24 i.toNat
        wave :=
          match o.wave with
          | .saw r => .saw (sawSetInt fs o.f (ureg 24 i.toNat) r)
          | .sine r => .sine (sineSetInt (ureg 24 i.toNat) r)
          | .square r => .square (squareSetInt (ureg 24 i.toNat) r) }

/-- R108, R113, R126: `sample(O)`: the sample, the oscillator after it and whether a sine sample
index wrapped (R127). -/
def Osc.sample (P : Params) (fs : Word) (o : Osc) : Int × Osc × Bool :=
  match o.wave with
  | .saw r => ((sawSample r).1, { o with wave := .saw (sawSample r).2 }, false)
  | .square r => ((squareSample r).1, { o with wave := .square (squareSample r).2 }, false)
  | .sine r =>
    ((sineSample P fs o.f r).1, { o with wave := .sine (sineSample P fs o.f r).2.1 },
      (sineSample P fs o.f r).2.2)

/-- R129: `process(O, n)`: `n` samples in order. -/
def Osc.process (P : Params) (fs : Word) : Nat → Osc → List Int × Osc × Bool
  | 0, o => ([], o, false)
  | n + 1, o =>
    match o.sample P fs with
    | (x, o1, w1) =>
      match Osc.process P fs n o1 with
      | (xs, o2, w2) => (x :: xs, o2, w1 || w2)

end Sys2Proof.Machine
end

