-- ==== Sys2Proof/Machine/Flags.lean ====
section
/-!
DEFINITION. The flags of the core: the status word of a response (`30_encoding.md` R64,
`60_exceptions.md` R240), the sticky bits and the read-only `STATUS` view (`10_state.md` R30).
-/

namespace Sys2Proof.Machine

/-- R240: the number of a status code. -/
def Status.code : Status → Nat
  | .ok => 0
  | .einval => 1
  | .eagain => 2
  | .enomem => 3
  | .enotready => 4
  | .ebadop => 5

/-- R64: the status word, the code in bits 7:0 and 0 above. -/
def Status.word (st : Status) : Word := ureg 32 st.code

/-- R30: sticky bits set by either of two events stay set. -/
def Sticky.or (a b : Sticky) : Sticky :=
  { filtOvf := a.filtOvf || b.filtOvf
    designErr := a.designErr || b.designErr
    idxWrap := a.idxWrap || b.idxWrap }

/-- R30: the event of a failed segment design alone. -/
def Sticky.ofDesignErr (e : Bool) : Sticky := { Sticky.clear with designErr := e }

/-- The word with bit `k` as the flag says and every other bit 0. -/
def flagBit (k : Nat) (b : Bool) : Word := if b then 1#32 <<< k else 0#32

/-- R30: the sticky bits of `STATUS`, bits 3:1. -/
def Sticky.bits (st : Sticky) : Word :=
  flagBit 1 st.filtOvf ||| flagBit 2 st.designErr ||| flagBit 3 st.idxWrap

/-- R30: `OSC2_BUSY`. -/
def Voice.osc2Busy (v : Voice) : Bool :=
  match v.o2 with
  | none => false
  | some o => o.busy

/-- R30: the live bits of a configured core, bits 12:8 and bit 0. -/
def Voice.liveBits (v : Voice) : Word :=
  flagBit 0 true ||| flagBit 8 v.filt.xfOn ||| flagBit 9 v.filt.swOn ||| flagBit 10 v.o1.busy
    ||| flagBit 11 v.osc2Busy ||| flagBit 12 v.env.stage.busy

/-- R30: the `STATUS` view; every live bit reads 0 while `V.configured = 0`. -/
def State.statusView (s : State) : Word :=
  match s.voice with
  | none => s.sticky.bits
  | some v => v.liveBits ||| s.sticky.bits

end Sys2Proof.Machine
end

