-- ==== Sys2Proof/Machine/Ops.lean ====
section
/-!
DEFINITION. The shared operations of a step: the updates of the state, the response of a command
(`30_encoding.md` R61 steps 5 to 7, R64), the readiness check, and the step around a way to perform
commands (R61). There is no memory to read or write (`20_memory.md` R40), no exception to take and
none to return from (`60_exceptions.md` R247, R248): what a failure does is `fail`, one status word
and nothing else (R243).
-/

namespace Sys2Proof.Machine

/-! ### Updates of the state -/

/-- R41: words appended to the response stream. -/
def State.emit (ws : List Word) (s : State) : State := { s with resp := s.resp ++ ws }

/-- R41, R61: the command stream after a command's words were consumed. -/
def State.consume (rest : List Word) (s : State) : State := { s with cmd := rest }

/-- The Voice replaced. -/
def State.setVoice (v : Voice) (s : State) : State := { s with voice := some v }

/-- R30: events recorded in the sticky bits. -/
def State.raise (ev : Sticky) (s : State) : State := { s with sticky := s.sticky.or ev }

/-- R201, R33: a new Voice, every sticky bit cleared. -/
def State.rebuild (v : Voice) (s : State) : State :=
  { s with voice := some v, sticky := Sticky.clear }

/-- R211, R260: the effect of the RESET command: no Voice, no sticky bit; the streams stay. -/
def State.unconfigure (s : State) : State := { s with voice := none, sticky := Sticky.clear }

/-! ### Responses (R64) -/

/-- R64: a command that succeeds answers `OK` and its data words. -/
def complete (data : List Word) (s : State) : Host.Outcome State Fault Refusal :=
  .next (s.emit (Status.ok.word :: data))

/-- R64, R243: a command that fails answers its status word alone and changes nothing else. -/
def fail (st : Status) (s : State) : Host.Outcome State Fault Refusal :=
  .next (s.emit [st.word])

/-! ### Readiness (R61 step 5, R252) -/

/-- R61 step 5, R252: a command that needs a configured core. -/
def withVoice (s : State) (k : Voice → Host.Outcome State Fault Refusal) :
    Host.Outcome State Fault Refusal :=
  match s.voice with
  | none => fail .enotready s
  | some v => k v

/-- A control command: the operation on the Voice either fails with a status or gives the new Voice
and the events it raises; the response is the status word. -/
def control (s : State) (op : Voice → Except Status (Voice × Sticky)) :
    Host.Outcome State Fault Refusal :=
  withVoice s fun v =>
    match op v with
    | .error st => fail st s
    | .ok (v', ev) => complete [] ((s.setVoice v').raise ev)

/-- R209: a GET of one view of the Voice; it writes nothing. -/
def view (s : State) (get : Voice → Word) : Host.Outcome State Fault Refusal :=
  withVoice s fun v => complete [get v] s

/-! ### The step (R61) -/

/-- R61 around `run`, a way to perform commands: decode the front of the command stream, consume the
words of the command and run it. An opcode outside the map and a reserved field answer `EBADOP` and
change nothing else (R66, R253); while the stream is empty or ends in the middle of a command the
core waits and performs nothing (R49, log 4). -/
def stepBy (run : Instr → State → Host.Outcome State Fault Refusal) (s : State) :
    Host.Outcome State Fault Refusal :=
  match decode s.cmd with
  | .command i rest => run i (s.consume rest)
  | .unknownOpcode rest => fail .ebadop (s.consume rest)
  | .reservedField rest => fail .ebadop (s.consume rest)
  | .incomplete => .next s

end Sys2Proof.Machine
end

