-- ==== Sys2Proof/Machine/Voice.lean ====
section
/-!
DEFINITION. The voice (`43_voice.md`): construction (R200, R201), the frequency and intensity
commands' effect on the oscillators (R203, R204), the trigger (R205), the filter commands (R206,
R208), one voice sample (R212), a frame of samples (R207) and the same frame as LM's five passes
(R213).
-/

namespace Sys2Proof.Machine

/-! ### Construction (R201) -/

/-- R201: the operands of CONFIG that carry a range of their own are in it. -/
def configRangesOk (P : Params) (fs n int f0 attackMs decayMs sustain releaseMs : Word) : Bool :=
  decide (fs ≠ 0#32 ∧ n ≠ 0#32 ∧ n.toNat ≤ P.frameMax)
    && decide (UnitOk int.toNat ∧ UnitOk sustain.toNat)
    && decide (attackMs.toNat ≤ 65535 ∧ decayMs.toNat ≤ 65535 ∧ releaseMs.toNat ≤ 65535)
    && decide (FreqOk f0.toNat fs.toNat)
    && decide (segmentLen attackMs.toNat fs.toNat < 2 ^ 32
        ∧ segmentLen decayMs.toNat fs.toNat < 2 ^ 32
        ∧ segmentLen releaseMs.toNat fs.toNat < 2 ^ 32)

/-- R200, R201: the Voice with every register as R33 lists it. -/
def voiceInit (fs n : Word) (kind : Waveform) (coupling : Coupling) (int f0 : Word) (d : Coeffs)
    (fc q gain attackMs decayMs sustain releaseMs : Word) : Voice :=
  { cfg := { fs := fs, n := n, kind := kind, coupling := coupling }
    int := ureg 24 int.toNat
    o1 := oscInit kind fs f0 (ureg 24 int.toNat)
    o2 := (coupled coupling f0).map fun f2 =>
      oscInit kind fs (coupledWord coupling f0 f2) (ureg 24 int.toNat)
    env := envInit fs attackMs decayMs sustain releaseMs
    filt := filterInit d fc q gain }

/-- R201: the checks of CONFIG, and the Voice where all of them pass. -/
def configure (P : Params)
    (fs n kind coupling int f0 fc q gain attackMs decayMs sustain releaseMs : Word) :
    Except Status Voice :=
  if configRangesOk P fs n int f0 attackMs decayMs sustain releaseMs then
    match Waveform.ofWord kind, Coupling.ofWord coupling with
    | some k, some c =>
      if coupledOk c f0 fs then
        match P.design fc q gain fs with
        | some d => .ok (voiceInit fs n k c int f0 d fc q gain attackMs decayMs sustain releaseMs)
        | none => .error .einval
      else .error .einval
    | _, _ => .error .einval
  else .error .einval

/-! ### Frequency and intensity (R203, R204) -/

/-- An operation on `O2` where there is one. -/
def onSecond (op : Osc → Except Status Osc) : Option Osc → Except Status (Option Osc)
  | none => .ok none
  | some o =>
    match op o with
    | .error st => .error st
    | .ok o' => .ok (some o')

/-- R203: the word `O2` is set to when the primary frequency is `f`. -/
def secondFreq (c : Coupling) (f : Word) : Word :=
  match coupled c f with
  | none => f
  | some f2 => coupledWord c f f2

/-- R203: `set_frequency` of the Voice: every check before the first write. -/
def Voice.setFrequency (f : Word) (v : Voice) : Except Status Voice :=
  if ¬FreqOk f.toNat v.cfg.fs.toNat then .error .einval
  else if ¬coupledOk v.cfg.coupling f v.cfg.fs then .error .einval
  else if v.o1.busy ∨ v.osc2Busy then .error .eagain
  else
    match v.o1.setFrequency v.cfg.fs f with
    | .error st => .error st
    | .ok o1 =>
      match onSecond (Osc.setFrequency v.cfg.fs (secondFreq v.cfg.coupling f)) v.o2 with
      | .error st => .error st
      | .ok o2 => .ok { v with o1 := o1, o2 := o2 }

/-- R204: `set_intensity` of the Voice. -/
def Voice.setIntensity (i : Word) (v : Voice) : Except Status Voice :=
  if ¬UnitOk i.toNat then .error .einval
  else
    match v.o1.setIntensity v.cfg.fs i with
    | .error st => .error st
    | .ok o1 =>
      match onSecond (Osc.setIntensity v.cfg.fs i) v.o2 with
      | .error st => .error st
      | .ok o2 => .ok { v with int := ureg 24 i.toNat, o1 := o1, o2 := o2 }

/-! ### Envelope and filter commands (R205, R206, R208) -/

/-- R205: the trigger, handed the last set intensity. -/
def Voice.toggle (on : Bool) (v : Voice) : Except Status Voice :=
  match v.env.trigger on v.int with
  | .error st => .error st
  | .ok e => .ok { v with env := e }

/-- R206: each operand reaches the parameter of its name. -/
def Voice.filtUpdate (P : Params) (fc q gain : Word) (v : Voice) : Except Status Voice :=
  match v.filt.update P v.cfg.fs fc q gain with
  | .error st => .error st
  | .ok F => .ok { v with filt := F }

/-- R208: the Voice and the event of a first segment whose design failed (R165). -/
def Voice.filtSweep (P : Params) (targetFc totalSamples : Word) (v : Voice) :
    Except Status (Voice × Sticky) :=
  match v.filt.startSweep P v.cfg.fs targetFc totalSamples with
  | .error st => .error st
  | .ok (F, e) => .ok ({ v with filt := F }, Sticky.ofDesignErr e)

/-- A Voice operation that raises no event. -/
def quiet (r : Except Status Voice) : Except Status (Voice × Sticky) :=
  match r with
  | .error st => .error st
  | .ok v => .ok (v, Sticky.clear)

/-! ### One voice sample (R212) -/

/-- The samples of the oscillators: the mixed value, the oscillators after it and whether a sample
index wrapped. -/
structure OscOut where
  o : Int
  o1 : Osc
  o2 : Option Osc
  wrapped : Bool

/-- R212: the oscillators' samples, summed with saturation where there are two. -/
def Voice.oscillators (P : Params) (v : Voice) : OscOut :=
  match v.o1.sample P v.cfg.fs with
  | (x1, o1, w1) =>
    match v.o2 with
    | none => { o := x1, o1 := o1, o2 := none, wrapped := w1 }
    | some o =>
      match o.sample P v.cfg.fs with
      | (x2, o2, w2) => { o := satFs (x1 + x2), o1 := o1, o2 := some o2, wrapped := w1 || w2 }

/-- R212: the envelope multiply, Q8.23 by UQ1.23 to Q8.23. -/
def envMultiply (o : Int) (g : Nat) : Int := rshrSym (o * g) 23

/-- R212: `voice_sample()`: the sample, the Voice after it and the events. -/
def Voice.sample (P : Params) (v : Voice) : Int × Voice × Sticky :=
  let g := v.env.sample
  let o := v.oscillators P
  let y := v.filt.sample P v.cfg.fs (envMultiply o.o g.1)
  (y.y, { v with o1 := o.o1, o2 := o.o2, env := g.2, filt := y.filt },
    { filtOvf := y.ovf, designErr := y.designErr, idxWrap := o.wrapped })

/-- R207: the response word of a sample, `wrapu_32` of the s32 value. -/
def sampleWord (y : Int) : Word := ureg 32 (wrapU 32 y)

/-- R207: what a frame gives: the sample words, the Voice after them and the events. -/
structure FrameOut where
  out : List Word
  voice : Voice
  events : Sticky
  deriving DecidableEq, Repr

/-- R207: `n` voice samples in order, each as its word. -/
def Voice.process (P : Params) : Nat → Voice → FrameOut
  | 0, v => { out := [], voice := v, events := Sticky.clear }
  | n + 1, v =>
    match v.sample P with
    | (y, v1, ev) =>
      let r := Voice.process P n v1
      { out := sampleWord y :: r.out, voice := r.voice, events := ev.or r.events }

/-! ### The same frame in five passes (R213) -/

/-- R213 passes 2 and 3: oscillator 2's buffer summed into oscillator 1's with saturation. -/
def mixSecond (P : Params) (fs : Word) (n : Nat) (buf : List Int) :
    Option Osc → List Int × Option Osc × Bool
  | none => (buf, none, false)
  | some o =>
    match Osc.process P fs n o with
    | (buf2, o2, w) => (List.zipWith (fun a b => satFs (a + b)) buf buf2, some o2, w)

/-- R213: a frame as LM describes it: (1) the gain curve, (2) oscillator 1's samples, (3) oscillator
2's samples and the sum, (4) the multiply, (5) the filter, each pass over whole buffers (R47). -/
def Voice.processFrame (P : Params) (n : Nat) (v : Voice) : FrameOut :=
  let gains := Envelope.process n v.env
  let first := Osc.process P v.cfg.fs n v.o1
  let mixed := mixSecond P v.cfg.fs n first.1 v.o2
  let scaled := List.zipWith envMultiply mixed.1 gains.1
  let final := Filter.process P v.cfg.fs scaled v.filt
  { out := final.1.map sampleWord
    voice :=
      { v with o1 := first.2.1, o2 := mixed.2.1, env := gains.2, filt := final.2.1 }
    events :=
      { filtOvf := final.2.2.1
        designErr := final.2.2.2
        idxWrap := first.2.2 || mixed.2.2 } }

end Sys2Proof.Machine
end

