-- ==== Sys2Proof/Machine/Control.lean ====
section
/-!
DEFINITION. The control commands (`43_voice.md` section 3): SET_FREQ, SET_INT, TOGGLE, FILT_UPDATE,
FILT_SWEEP; and PROCESS (section 4).
-/

namespace Sys2Proof.Machine

/-- SET_FREQ (R203). -/
def execSetFreq (f : Word) (s : State) : Host.Outcome State Fault Refusal :=
  control s fun v => quiet (v.setFrequency f)

/-- SET_INT (R204). -/
def execSetInt (i : Word) (s : State) : Host.Outcome State Fault Refusal :=
  control s fun v => quiet (v.setIntensity i)

/-- TOGGLE (R205). -/
def execToggle (on : Bool) (s : State) : Host.Outcome State Fault Refusal :=
  control s fun v => quiet (v.toggle on)

/-- FILT_UPDATE (R206) of a core with the parameters `P` (R4). -/
def filtUpdateWith (P : Params) (fc q gain : Word) (s : State) :
    Host.Outcome State Fault Refusal :=
  control s fun v => quiet (v.filtUpdate P fc q gain)

/-- FILT_UPDATE (R206), at the machine's own parameters (log 2). -/
def execFiltUpdate (fc q gain : Word) (s : State) : Host.Outcome State Fault Refusal :=
  filtUpdateWith chip fc q gain s

/-- FILT_SWEEP (R208) of a core with the parameters `P` (R4). -/
def filtSweepWith (P : Params) (targetFc totalSamples : Word) (s : State) :
    Host.Outcome State Fault Refusal :=
  control s fun v => v.filtSweep P targetFc totalSamples

/-- FILT_SWEEP (R208), at the machine's own parameters (log 2). -/
def execFiltSweep (targetFc totalSamples : Word) (s : State) :
    Host.Outcome State Fault Refusal :=
  filtSweepWith chip targetFc totalSamples s

/-- PROCESS (R207) of a core with the parameters `P` (R4): `OK` and `CFG.N` sample words. -/
def processWith (P : Params) (s : State) : Host.Outcome State Fault Refusal :=
  withVoice s fun v =>
    let r := v.process P v.cfg.n.toNat
    complete r.out ((s.setVoice r.voice).raise r.events)

/-- PROCESS (R207), at the machine's own parameters (log 2). -/
def execProcess (s : State) : Host.Outcome State Fault Refusal := processWith chip s

end Sys2Proof.Machine
end

