-- ==== Sys2Proof/Machine/Get.lean ====
section
/-!
DEFINITION. The twelve GET commands (`43_voice.md` R209): each answers one view and writes nothing.
-/

namespace Sys2Proof.Machine

/-- GET.STATUS: selector 0, the `STATUS` view (R30); it also works on an unconfigured core. -/
def execGetStatus (s : State) : Host.Outcome State Fault Refusal := complete [s.statusView] s

/-- GET.FREQ1: selector 1, `O1.f` (R128). -/
def execGetFreq1 (s : State) : Host.Outcome State Fault Refusal := view s fun v => v.o1.f

/-- R209: `O2.f` where there is an `O2`, else 0. -/
def Voice.freq2 (v : Voice) : Word :=
  match v.o2 with
  | none => 0#32
  | some o => o.f

/-- GET.FREQ2: selector 2. -/
def execGetFreq2 (s : State) : Host.Outcome State Fault Refusal := view s fun v => v.freq2

/-- GET.INT: selector 3, `V.int`. -/
def execGetInt (s : State) : Host.Outcome State Fault Refusal :=
  view s fun v => ureg 32 v.int.toNat

/-- GET.FC: selector 4, `F.fc` (R175). -/
def execGetFc (s : State) : Host.Outcome State Fault Refusal := view s fun v => v.filt.fc

/-- GET.Q: selector 5, `F.q` (R175). -/
def execGetQ (s : State) : Host.Outcome State Fault Refusal := view s fun v => v.filt.q

/-- GET.GAIN: selector 6, `F.gain` (R175). -/
def execGetGain (s : State) : Host.Outcome State Fault Refusal := view s fun v => v.filt.gain

/-- GET.STAGE: selector 7, `E.stage` (R140). -/
def execGetStage (s : State) : Host.Outcome State Fault Refusal :=
  view s fun v => ureg 32 v.env.stage.code

/-- GET.FACTOR: selector 8, `E.factor` (R27). -/
def execGetFactor (s : State) : Host.Outcome State Fault Refusal :=
  view s fun v => ureg 32 v.env.factor.toNat

/-- GET.FS: selector 9, `CFG.fs` (R21). -/
def execGetFs (s : State) : Host.Outcome State Fault Refusal := view s fun v => v.cfg.fs

/-- GET.N: selector 10, `CFG.N` (R21). -/
def execGetN (s : State) : Host.Outcome State Fault Refusal := view s fun v => v.cfg.n

/-- GET.MODE: selector 11, `CFG.coupling * 256 + CFG.kind` (R209). -/
def execGetMode (s : State) : Host.Outcome State Fault Refusal :=
  view s fun v => ureg 32 (v.cfg.coupling.code * 256 + v.cfg.kind.code)

end Sys2Proof.Machine
end

