-- ==== Sys2Proof/Machine/Housekeeping.lean ====
section
/-!
DEFINITION. The configuration and housekeeping commands (`43_voice.md` section 2): NOP, RESET and
CONFIG.
-/

namespace Sys2Proof.Machine

/-- NOP (R210, R67): answers `OK`, changes no register. -/
def execNop (s : State) : Host.Outcome State Fault Refusal := complete [] s

/-- RESET (R211, R260). -/
def execReset (s : State) : Host.Outcome State Fault Refusal := complete [] s.unconfigure

/-- CONFIG (R201) of a core with the parameters `P` (R4). -/
def configWith (P : Params)
    (fs n kind coupling int f0 fc q gain attackMs decayMs sustain releaseMs : Word) (s : State) :
    Host.Outcome State Fault Refusal :=
  match configure P fs n kind coupling int f0 fc q gain attackMs decayMs sustain releaseMs with
  | .error st => fail st s
  | .ok v => complete [] (s.rebuild v)

/-- CONFIG (R201), at the machine's own parameters (log 2). -/
def execConfig
    (fs n kind coupling int f0 fc q gain attackMs decayMs sustain releaseMs : Word) (s : State) :
    Host.Outcome State Fault Refusal :=
  configWith chip fs n kind coupling int f0 fc q gain attackMs decayMs sustain releaseMs s

end Sys2Proof.Machine
end

