-- ==== Sys2Proof/Machine/Dispatch.lean ====
section
/-!
DEFINITION. One arm per row of the opcode map (`30_encoding.md` R65), each one call of a meaning:
steps 5 to 7 of R61 on a state whose command words are consumed.
-/

namespace Sys2Proof.Machine

def exec (i : Instr) (s : State) : Host.Outcome State Fault Refusal :=
  match i with
  | .nop => Sys2Proof.Machine.execNop s
  | .reset => Sys2Proof.Machine.execReset s
  | .config fs n kind coupling int f0 fc q gain att dec sus rel => Sys2Proof.Machine.execConfig fs n kind coupling int f0 fc q gain att dec sus rel s
  | .setFreq f => Sys2Proof.Machine.execSetFreq f s
  | .setInt x => Sys2Proof.Machine.execSetInt x s
  | .toggle on => Sys2Proof.Machine.execToggle on s
  | .filtUpdate fc q gain => Sys2Proof.Machine.execFiltUpdate fc q gain s
  | .filtSweep targetFc totalSamples => Sys2Proof.Machine.execFiltSweep targetFc totalSamples s
  | .process => Sys2Proof.Machine.execProcess s
  | .getStatus => Sys2Proof.Machine.execGetStatus s
  | .getFreq1 => Sys2Proof.Machine.execGetFreq1 s
  | .getFreq2 => Sys2Proof.Machine.execGetFreq2 s
  | .getInt => Sys2Proof.Machine.execGetInt s
  | .getFc => Sys2Proof.Machine.execGetFc s
  | .getQ => Sys2Proof.Machine.execGetQ s
  | .getGain => Sys2Proof.Machine.execGetGain s
  | .getStage => Sys2Proof.Machine.execGetStage s
  | .getFactor => Sys2Proof.Machine.execGetFactor s
  | .getFs => Sys2Proof.Machine.execGetFs s
  | .getN => Sys2Proof.Machine.execGetN s
  | .getMode => Sys2Proof.Machine.execGetMode s

end Sys2Proof.Machine
end

