-- ==== Sys2Proof/Machine/Step.lean ====
section
/-!
DEFINITION. One step of the core is one command (`00_scope.md` R16, `30_encoding.md` R61): decode
the front of the command stream, consume its words, perform the command and append its response.
-/

namespace Sys2Proof.Machine

/-- R16, R61: one command of the machine. -/
def step (s : State) : Host.Outcome State Fault Refusal := stepBy exec s

/-- The state with the words of one command, its bits numbered as `spec/opcode_table.json` numbers
them, at the front of the command stream, where `step` takes its next command. -/
def State.withFetchWord (s : State) (nbits w : Nat) : State :=
  { s with cmd := tableCommand nbits w ++ s.cmd }

end Sys2Proof.Machine
end

