-- ==== Sys2Proof/Machine/Assembler.lean ====
section
/-!
DEFINITION. The assembler syntax of `30_encoding.md` R68 and the pseudo-commands of R69: one line of
text to the commands it stands for, and their words. `none` is a line that is not of the syntax.
-/

namespace Sys2Proof.Machine

/-! ### Text -/

/-- The text before the first character `c`. -/
def textBefore (c : Char) : List Char → List Char
  | [] => []
  | x :: xs => if x = c then [] else x :: textBefore c xs

/-- The pieces of a text between characters `c`. -/
def textPieces (c : Char) : List Char → List (List Char)
  | [] => [[]]
  | x :: xs =>
    if x = c then [] :: textPieces c xs
    else
      match textPieces c xs with
      | [] => [[x]]
      | p :: ps => (x :: p) :: ps

/-- The text without spaces at its front. -/
def textTrimLeft : List Char → List Char
  | [] => []
  | x :: xs => if x = ' ' then textTrimLeft xs else x :: xs

/-- The text without spaces at either end. -/
def textTrim (t : List Char) : List Char := (textTrimLeft (textTrimLeft t).reverse).reverse

/-- The text without a suffix it ends with; `none` where it does not end with it. -/
def textDropSuffix (suffix t : List Char) : Option (List Char) :=
  if suffix.isSuffixOf t then some (t.take (t.length - suffix.length)) else none

/-! ### Numbers -/

/-- The value of a hexadecimal digit of either case. -/
def hexDigit (c : Char) : Option Nat :=
  if '0' ≤ c ∧ c ≤ '9' then some (c.toNat - '0'.toNat)
  else if 'a' ≤ c ∧ c ≤ 'f' then some (c.toNat - 'a'.toNat + 10)
  else if 'A' ≤ c ∧ c ≤ 'F' then some (c.toNat - 'A'.toNat + 10)
  else none

/-- The value of digits in a base, continuing from `acc`; `after` says that a digit stands before
them. Where `sep` allows it (R5, hexadecimal), `_` may stand between two digits and is skipped. A
`_` that has no digit on one side is not of the syntax: DESIGN CHOICE (log 13), R5 says only that
`_` separates digits. -/
def digitsFrom (base : Nat) (sep : Bool) : (acc : Nat) → (after : Bool) → List Char → Option Nat
  | acc, after, [] => if after then some acc else none
  | acc, after, c :: cs =>
    if sep && after && c == '_' then digitsFrom base sep acc false cs
    else
      match hexDigit c with
      | none => none
      | some d => if d < base then digitsFrom base sep (acc * base + d) true cs else none

/-- A decimal number without a point. R5 gives it no separator, so it takes none (log 13). -/
def parseDigits (t : List Char) : Option Nat := digitsFrom 10 false 0 false t

/-- R68 (a): a decimal or `0x` hexadecimal integer. -/
def parseInteger : List Char → Option Nat
  | '0' :: 'x' :: cs => digitsFrom 16 true 0 false cs
  | cs => parseDigits cs

/-- R68 (b): a decimal number, as a numerator and a denominator; digits stand on both sides of its
point (log 13). -/
def parseDecimal (t : List Char) : Option (Nat × Nat) :=
  match textPieces '.' t with
  | [whole] => (parseDigits whole).map fun n => (n, 1)
  | [whole, part] =>
    if whole = [] ∨ part = [] then none
    else (parseDigits (whole ++ part)).map fun n => (n, 10 ^ part.length)
  | _ => none

/-- R68: a word, where the integer is one. -/
def wordOfNat (n : Nat) : Option Word := if n < 2 ^ 32 then some (ureg 32 n) else none

/-- R68 (b), (c): the word `rha(decimal * 2^k)`. -/
def parseScaled (k : Nat) (t : List Char) : Option Word :=
  match parseDecimal t with
  | none => none
  | some (n, d) => wordOfNat (rha (n * 2 ^ k) d).toNat

/-- R68 (a) to (c): an operand that is a number. -/
def parseNumber (t : List Char) : Option Word :=
  match textDropSuffix "hz".toList t, textDropSuffix "q16".toList t,
      textDropSuffix "q23".toList t with
  | some u, _, _ => parseScaled 16 u
  | none, some u, _ => parseScaled 16 u
  | none, none, some u => parseScaled 23 u
  | none, none, none => (parseInteger t).bind wordOfNat

/-! ### Operands and lines -/

/-- R68: the names of an enumerated operand. -/
def nameValue (names : List (String × Nat)) (t : List Char) : Option Word :=
  match names.find? fun p => p.1.toList = t with
  | none => none
  | some p => wordOfNat p.2

/-- R68: the names that may stand for `kind`. -/
def kindNames : List (String × Nat) := [("saw", 0), ("sine", 1), ("square", 2)]

/-- R68: the names that may stand for `coupling`. -/
def couplingNames : List (String × Nat) :=
  [("none", 0), ("min3", 1), ("maj3", 2), ("fifth", 3), ("octave", 4)]

/-- An operand that may be written by name or as a number. -/
def parseNamed (names : List (String × Nat)) (t : List Char) : Option Word :=
  match nameValue names t with
  | some w => some w
  | none => parseNumber t

/-- The operand at position `k` of a command: CONFIG's third and fourth may be names. -/
def parseOperand (isConfig : Bool) (k : Nat) (t : List Char) : Option Word :=
  if isConfig && k == 2 then parseNamed kindNames t
  else if isConfig && k == 3 then parseNamed couplingNames t
  else parseNumber t

/-- The operands of a line from position `k` on. -/
def parseOperands (isConfig : Bool) : (k : Nat) → List (List Char) → Option (List Word)
  | _, [] => some []
  | k, t :: ts =>
    match parseOperand isConfig k (textTrim t), parseOperands isConfig (k + 1) ts with
    | some w, some ws => some (w :: ws)
    | _, _ => none

/-- The operand part of a line; an empty one has no operand. -/
def operandTexts (t : List Char) : List (List Char) :=
  if textTrim t = [] then [] else textPieces ',' t

/-- R65, R69: the GET commands by name. -/
def getNames : List (String × Instr) :=
  [("GET.STATUS", .getStatus), ("GET.FREQ1", .getFreq1), ("GET.FREQ2", .getFreq2),
   ("GET.INT", .getInt), ("GET.FC", .getFc), ("GET.Q", .getQ), ("GET.GAIN", .getGain),
   ("GET.STAGE", .getStage), ("GET.FACTOR", .getFactor), ("GET.FS", .getFs), ("GET.N", .getN),
   ("GET.MODE", .getMode)]

/-- R65: the opcodes of format `Z` by name. -/
def formatZNames : List (String × BitVec 8) :=
  [("NOP", 0x00#8), ("RESET", 0x01#8), ("CONFIG", 0x02#8), ("SET_FREQ", 0x10#8),
   ("SET_INT", 0x11#8), ("FILT_UPDATE", 0x20#8), ("FILT_SWEEP", 0x21#8), ("PROCESS", 0x30#8)]

/-- R69: `NOTE_ON` and `NOTE_OFF`. -/
def noteOn : Instr := .toggle true

/-- R69: see `noteOn`. -/
def noteOff : Instr := .toggle false

/-- R69: `RENDER k`, PROCESS repeated `k` times. -/
def render (k : Nat) : List Instr := List.replicate k .process

/-- R68, R69: the commands of a mnemonic with its operand texts. -/
def assembleCommand (mnemonic : List Char) (ops : List (List Char)) : Option (List Instr) :=
  if mnemonic = "TOGGLE".toList then
    match ops.map textTrim with
    | [t] =>
      if t = "on".toList ∨ t = "1".toList then some [noteOn]
      else if t = "off".toList ∨ t = "0".toList then some [noteOff]
      else none
    | _ => none
  else if mnemonic = "NOTE_ON".toList ∧ ops = [] then some [noteOn]
  else if mnemonic = "NOTE_OFF".toList ∧ ops = [] then some [noteOff]
  else if mnemonic = "RENDER".toList then
    match ops.map textTrim with
    | [t] => (parseInteger t).map render
    | _ => none
  else
    match getNames.find? fun p => p.1.toList = mnemonic,
        formatZNames.find? fun p => p.1.toList = mnemonic with
    | some g, _ => if ops = [] then some [g.2] else none
    | none, some z =>
      match parseOperands (z.2 == 0x02#8) 0 ops with
      | none => none
      | some ws => (formatZ z.2 ws).map fun i => [i]
    | none, none => none

/-- R68: one line to its commands; a line with a comment alone has none. -/
def assembleLine (line : String) : Option (List Instr) :=
  let t := textTrim (textBefore ';' line.toList)
  if t = [] then some []
  else
    let mnemonic := textBefore ' ' t
    assembleCommand mnemonic (operandTexts (t.drop mnemonic.length))

/-- R68: one line to its command words. -/
def assemble (line : String) : Option (List Word) :=
  (assembleLine line).map fun is => is.flatMap encode

end Sys2Proof.Machine
end

