-- ==== Sys2Proof/Machine/Parametric.lean ====
section
/-!
DEFINITION. The core at any parameters: `exec` and `step` with `SINROM`, `DESIGN`, `XFADE` and
`FRAME_MAX` as arguments (`00_scope.md` R4, `93_implementation_defined.md` U8), and the step in the
form of `00_scope.md` R16, where the configuration and the command stream are parameters of the step
and not state. The machine itself is the case `chip` (log 2).
-/

namespace Sys2Proof.Machine

/-- R4, R65: a command of a core with the parameters `P`, one arm per row of the opcode map. Four
meanings read a parameter; the others are the machine's own. -/
def execWith (P : Params) (i : Instr) (s : State) : Host.Outcome State Fault Refusal :=
  match i with
  | .nop => execNop s
  | .reset => execReset s
  | .config fs n kind coupling int f0 fc q gain att dec sus rel =>
      configWith P fs n kind coupling int f0 fc q gain att dec sus rel s
  | .setFreq f => execSetFreq f s
  | .setInt x => execSetInt x s
  | .toggle on => execToggle on s
  | .filtUpdate fc q gain => filtUpdateWith P fc q gain s
  | .filtSweep targetFc totalSamples => filtSweepWith P targetFc totalSamples s
  | .process => processWith P s
  | .getStatus => execGetStatus s
  | .getFreq1 => execGetFreq1 s
  | .getFreq2 => execGetFreq2 s
  | .getInt => execGetInt s
  | .getFc => execGetFc s
  | .getQ => execGetQ s
  | .getGain => execGetGain s
  | .getStage => execGetStage s
  | .getFactor => execGetFactor s
  | .getFs => execGetFs s
  | .getN => execGetN s
  | .getMode => execGetMode s

/-- R4, R16, R61: one command of a core with the parameters `P`. -/
def stepWith (P : Params) (s : State) : Host.Outcome State Fault Refusal := stepBy (execWith P) s

/-- R16, R20: what the core holds between two commands, the streams apart. -/
structure Registers where
  voice : Option Voice
  sticky : Sticky
  deriving DecidableEq, Repr

/-- The registers of a state. -/
def State.registers (s : State) : Registers := { voice := s.voice, sticky := s.sticky }

/-- R16, R41: what one command gives: the words of the command stream not consumed, the response
words and the registers after it. -/
structure CommandResult where
  rest : List Word
  out : List Word
  regs : Registers
  deriving DecidableEq, Repr

/-- R16: the step with the configuration `P` and the command stream `cmd` as parameters, on the
registers alone. -/
def commandStep (P : Params) (cmd : List Word) (r : Registers) : CommandResult :=
  match stepWith P { cmd := cmd, resp := [], voice := r.voice, sticky := r.sticky } with
  | .next t => { rest := t.cmd, out := t.resp, regs := t.registers }
  | .fault f => nomatch f
  | .refused _ => { rest := cmd, out := [], regs := r }

end Sys2Proof.Machine
end

