-- ==== Sys2Proof/Machine/Transport.lean ====
section
/-!
DEFINITION. The boundary with the host: words sent and taken (`20_memory.md` R41), words as bytes on
a byte transport (R48), and the hardware reset (`70_reset_and_hazards.md` R260). None of these is a
step of the core; the host alone does them, between two steps (`00_scope.md` R16).
-/

namespace Sys2Proof.Machine

/-- R41: the host appends words to the command stream. -/
def State.hostSend (ws : List Word) (s : State) : State := { s with cmd := s.cmd ++ ws }

/-- R41: the host takes the responses that stand in the response stream. -/
def State.hostTake (s : State) : List Word × State := (s.resp, { s with resp := [] })

/-- R260: the hardware reset, from any state: both streams emptied, no Voice, no sticky bit. -/
def State.hardwareReset (_s : State) : State := State.reset

/-- R48: byte `k` of a word, byte 0 the least significant. -/
def wordByte (w : Word) (k : Nat) : Byte := w.extractLsb' (8 * k) 8

/-- R48: the four bytes of a word in the order a byte transport carries them. -/
def bytesOfWord (order : ByteOrder) (w : Word) : List Byte :=
  match order with
  | .little => [wordByte w 0, wordByte w 1, wordByte w 2, wordByte w 3]
  | .big => [wordByte w 3, wordByte w 2, wordByte w 1, wordByte w 0]

/-- R48: the word that four bytes of a byte transport carry. -/
def wordOfBytes (order : ByteOrder) (b0 b1 b2 b3 : Byte) : Word :=
  match order with
  | .little => b3 ++ b2 ++ b1 ++ b0
  | .big => b0 ++ b1 ++ b2 ++ b3

/-- R41, R48: the whole words that a byte sequence carries, and the bytes of an unfinished word. -/
def wordsOfBytes (order : ByteOrder) : List Byte → List Word × List Byte
  | b0 :: b1 :: b2 :: b3 :: rest =>
    match wordsOfBytes order rest with
    | (ws, left) => (wordOfBytes order b0 b1 b2 b3 :: ws, left)
  | left => ([], left)

end Sys2Proof.Machine
end

