-- ==== Sys2Proof/Safety.lean ====
section
/-!
DEFINITION. What counts as a sound state and as a clean run: the invariants of `10_state.md` R32,
with the relations between registers that R24 to R28 and R46 state, and R30's reading of the sticky
bits; then the terms in which the statements speak of commands, of runs and of what the oscillator's
operations leave.
-/

namespace Sys2Proof.Machine

/-- R24, R32, R105: the saw's registers follow the frequency and the intensity. -/
structure SawInv (fs f : Word) (i : BitVec 24) (r : SawRegs) : Prop where
  max_eq : r.max.toNat = ampOf i.toNat
  step_eq : r.step.toNat = sawStep r.max.toNat f.toNat fs.toNat
  amp_ge : -(r.max.toNat : Int) ≤ r.amp.toInt
  amp_le : r.amp.toInt ≤ r.max.toNat

/-- R25, R32, R110: the square's registers follow the frequency and the intensity. -/
structure SquareInv (fs f : Word) (i : BitVec 24) (r : SquareRegs) : Prop where
  max_eq : r.max.toNat = ampOf i.toNat
  half_eq : r.half = sqHalfWord f fs
  cnt_lt : r.cnt < r.half

/-- R26, R32, R46: the sine's registers; `f_cur` equals `O.f` outside a transition, and during one
the table is that of the transition from `f_cur` to `O.f`. -/
structure SineInv (fs f : Word) (i : BitVec 24) (r : SineRegs) : Prop where
  fCur_ok : FreqOk r.fCur.toNat fs.toNat
  iEff_ok : UnitOk r.iEff.toNat
  iStart_ok : UnitOk r.iStart.toNat
  iTgt_eq : r.iTgt = i
  rampK_lt : r.rampK.toNat < Config.irLen
  ramp_off : r.rampOn = false → r.iEff = r.iTgt
  steady : r.tr = .none → r.fCur = f
  table : r.tr ≠ .none → r.pt = transitionTable r.fCur f fs

/-- R20: the registers are those of the variant that the kind selects, and sound. -/
def WaveInv (kind : Waveform) (fs f : Word) (i : BitVec 24) : WaveRegs → Prop
  | .saw r => kind = .saw ∧ SawInv fs f i r
  | .sine r => kind = .sine ∧ SineInv fs f i r
  | .square r => kind = .square ∧ SquareInv fs f i r

/-- R23, R32: a sound oscillator of the kind, at the intensity `i`. -/
structure OscInv (kind : Waveform) (fs : Word) (i : BitVec 24) (o : Osc) : Prop where
  f_ok : FreqOk o.f.toNat fs.toNat
  i_eq : o.i = i
  wave_ok : WaveInv kind fs o.f i o.wave

/-- R27, R32: a sound envelope: the index lies in its segment and is 0 otherwise, and the factor is
the ramp-table entry of the stage and the index. -/
structure EnvInv (e : Envelope) : Prop where
  s_ok : UnitOk e.s.toNat
  cap_ok : UnitOk e.cap.toNat
  idx_lt : ∀ len next, e.segment = some (len, next) → e.idx < len
  idx_zero : e.segment = none → e.idx = 0#32
  factor_eq : e.factor.toNat = e.fac e.stage e.idx.toNat
  factor_ok : UnitOk e.factor.toNat

/-- R165: the segments not yet started stay between the cutoff and the target. -/
def sweepBound (F : Filter) : Prop :=
  let d : Int := (F.swTarget.toNat : Int) - F.fc.toNat
  let r : Int := F.swDelta.toInt * F.swRem.toNat
  (0 ≤ F.swDelta.toInt ∧ r ≤ d) ∨ (F.swDelta.toInt ≤ 0 ∧ d ≤ r)

/-- R28, R32, R176 (c): a sound filter. -/
structure FilterInv (fs : Word) (F : Filter) : Prop where
  fc_ok : FreqOk F.fc.toNat fs.toNat
  sweep_fades : F.swOn = true → F.xfOn = true
  target_ok : F.swOn = true → FreqOk F.swTarget.toNat fs.toNat
  sweep_bound : F.swOn = true → sweepBound F
  sweep_end : F.swOn = true → F.swRem = 0#32 → F.fc = F.swTarget
  idle_idx : F.xfOn = false → F.xfIdx = 0#8
  idle_cur : F.xfOn = false → F.cur = F.tgt

/-- R20, R200, R202: `O2` exists if and only if the coupling has a ratio; then it is a sound
oscillator of the same kind and intensity at the coupled frequency. -/
def SecondInv (cfg : Cfg) (i : BitVec 24) (f1 : Word) : Option Osc → Prop
  | none => coupled cfg.coupling f1 = none
  | some o =>
    ∃ f2, coupled cfg.coupling f1 = some f2 ∧ FreqOk f2 cfg.fs.toNat
      ∧ o.f = coupledWord cfg.coupling f1 f2 ∧ OscInv cfg.kind cfg.fs i o

/-- R32: a sound Voice. -/
structure VoiceInv (P : Params) (v : Voice) : Prop where
  frame_pos : v.cfg.n ≠ 0#32
  frame_le : v.cfg.n.toNat ≤ P.frameMax
  int_ok : UnitOk v.int.toNat
  first : OscInv v.cfg.kind v.cfg.fs v.int v.o1
  second : SecondInv v.cfg v.int v.o1.f v.o2
  env : EnvInv v.env
  filt : FilterInv v.cfg.fs v.filt

/-- R32, R33: a sound state of a core with the parameters `P`: an unconfigured core has no sticky bit
set; a configured one holds a sound Voice, whose target coefficients are those designed for the
reported cutoff unless a segment's design has failed (R165). -/
structure State.InvAt (P : Params) (s : State) : Prop where
  unconfigured : s.voice = none → s.sticky = Sticky.clear
  voice : ∀ v, s.voice = some v → VoiceInv P v
  designed : ∀ v, s.voice = some v → s.sticky.designErr = false →
    P.design v.filt.fc v.filt.q v.filt.gain v.cfg.fs = some v.filt.tgt

/-- R32, R33: a sound state of the machine. -/
abbrev State.Inv (s : State) : Prop := s.InvAt chip

/-- R161 (b), in part: `DESIGN` fails on a cutoff outside (0, fs/2). -/
def DesignRange (P : Params) : Prop :=
  ∀ fc q gain fs d, P.design fc q gain fs = some d → FreqOk fc.toNat fs.toNat

/-- R30: the run stayed inside what the source defines. -/
def State.clean (s : State) : Prop := s.sticky = Sticky.clear

/-! ### Terms of the statements -/

/-- R65, column "needs CONFIG". -/
def needsConfig : Instr → Bool
  | .nop => false
  | .reset => false
  | .config _ _ _ _ _ _ _ _ _ _ _ _ _ => false
  | .setFreq _ => true
  | .setInt _ => true
  | .toggle _ => true
  | .filtUpdate _ _ _ => true
  | .filtSweep _ _ => true
  | .process => true
  | .getStatus => false
  | .getFreq1 => true
  | .getFreq2 => true
  | .getInt => true
  | .getFc => true
  | .getQ => true
  | .getGain => true
  | .getStage => true
  | .getFactor => true
  | .getFs => true
  | .getN => true
  | .getMode => true

/-- R64, R65: the data words that follow an `OK`, where a frame has `n` samples. -/
def dataWords (n : Nat) : Instr → Nat
  | .nop => 0
  | .reset => 0
  | .config _ _ _ _ _ _ _ _ _ _ _ _ _ => 0
  | .setFreq _ => 0
  | .setInt _ => 0
  | .toggle _ => 0
  | .filtUpdate _ _ _ => 0
  | .filtSweep _ _ => 0
  | .process => n
  | .getStatus => 1
  | .getFreq1 => 1
  | .getFreq2 => 1
  | .getInt => 1
  | .getFc => 1
  | .getQ => 1
  | .getGain => 1
  | .getStage => 1
  | .getFactor => 1
  | .getFs => 1
  | .getN => 1
  | .getMode => 1

/-- `CFG.N`, and 0 while there is no Voice. -/
def State.frameSize (s : State) : Nat :=
  match s.voice with
  | none => 0
  | some v => v.cfg.n.toNat

/-- The state after `n` steps. -/
def State.run : Nat → State → State
  | 0, s => s
  | n + 1, s =>
    match step s with
    | .next t => State.run n t
    | .fault _ => s
    | .refused _ => s

/-- R62, R65: opcode and operand count, as numbers. -/
def operandCounts : List (Nat × Nat) :=
  [(0x00, 0), (0x01, 0), (0x02, 13), (0x10, 1), (0x11, 1), (0x12, 0), (0x20, 3), (0x21, 2),
   (0x30, 0), (0x40, 0)]

/-- R44: coupling mode and `RATIO`, as numbers. -/
def ratioTable : List (Nat × Nat) :=
  [(1, 1276901417), (2, 1352829926), (3, 1608794974), (4, 2147483648)]

/-- R201, R203: at coupling mode `c` the coupled frequency of `f` lies outside (0, fs/2). -/
def CoupledBad (c f fs : Nat) : Prop :=
  ∃ r, (c, r) ∈ ratioTable ∧ (f * r / 2 ^ 30 = 0 ∨ fs * 2 ^ 15 ≤ f * r / 2 ^ 30)

/-- R104, R105, R110, R115: the oscillator right after `construct` at the frequency `f` and the
intensity `i`. The half-period of a square is stated where it fits its register. -/
def Constructed (kind : Waveform) (fs f i : Nat) (o : Osc) : Prop :=
  o.f.toNat = f ∧ o.i.toNat = i ∧
    match kind, o.wave with
    | .saw, .saw r =>
        r.max.toNat = i * 8388607 / 2 ^ 23
          ∧ r.step.toNat = 2 * r.max.toNat * f / (fs * 2 ^ 16)
          ∧ r.amp.toInt = r.max.toNat
    | .square, .square r =>
        r.max.toNat = i * 8388607 / 2 ^ 23 ∧ r.sign = .plus ∧ r.cnt = 0#32 ∧ 1 ≤ r.half.toNat
          ∧ ((fs * 2 ^ 16 + f) / (2 * f) < 2 ^ 32 →
              r.half.toNat = (fs * 2 ^ 16 + f) / (2 * f))
    | .sine, .sine r =>
        r = { n := 0#32, fCur := o.f, pPrev := 0#32, tr := .none, trK := 0#8
              pt := Vector.replicate 256 0#32, iEff := o.i, iStart := o.i, iTgt := o.i
              rampK := 0#10, rampOn := false }
    | _, _ => False

/-- R106, R111, R120: `o'` is `o` after an accepted `set_frequency` to `f`. The half-period of a
square is stated where it fits its register. -/
def FrequencySet (fs f : Nat) (o o' : Osc) : Prop :=
  o'.f.toNat = f ∧ o'.i = o.i ∧
    match o.wave, o'.wave with
    | .saw r, .saw r' =>
        r'.max = r.max ∧ r'.amp = r.amp ∧ r'.step.toNat = 2 * r.max.toNat * f / (fs * 2 ^ 16)
    | .square r, .square r' =>
        r'.max = r.max ∧ r'.sign = r.sign ∧ r'.cnt = 0#32 ∧ 1 ≤ r'.half.toNat
          ∧ ((fs * 2 ^ 16 + f) / (2 * f) < 2 ^ 32 →
              r'.half.toNat = (fs * 2 ^ 16 + f) / (2 * f))
    | .sine r, .sine r' =>
        r' = { r with pt := r'.pt, tr := .armed, trK := 0#8 }
          ∧ ∀ (j : Nat) (hj : j < 256),
              ((r'.pt[j]'hj).toNat : Int) =
                (∑ k ∈ Finset.range (j + 1),
                  (r.fCur.toNat + ((f : Int) - r.fCur.toNat) * (k + 1) / 2 ^ 8) * 2 ^ 16 / fs)
                % 2 ^ 32
    | _, _ => False

/-- R107, R112, R118: `o'` is `o` after an accepted `set_intensity` to `i`. -/
def IntensitySet (fs i : Nat) (o o' : Osc) : Prop :=
  o'.f = o.f ∧ o'.i.toNat = i ∧
    match o.wave, o'.wave with
    | .saw r, .saw r' =>
        r'.max.toNat = i * 8388607 / 2 ^ 23
          ∧ r'.step.toNat = 2 * r'.max.toNat * o.f.toNat / (fs * 2 ^ 16)
          ∧ r'.amp.toInt = min (max r.amp.toInt (-(r'.max.toNat : Int))) r'.max.toNat
    | .square r, .square r' =>
        r'.max.toNat = i * 8388607 / 2 ^ 23 ∧ r'.sign = r.sign ∧ r'.cnt = r.cnt
          ∧ r'.half = r.half
    | .sine r, .sine r' =>
        r' = { r with iStart := r.iEff, iTgt := o'.i, rampK := 0#10, rampOn := true }
    | _, _ => False

end Sys2Proof.Machine
end

