-- ==== Sys2Proof/Certificates/Slice0/Obligations.lean ====
section
/-!
DEFINITION. The statements for the provers. Each docstring names the rules of spec/ that the
statement formalises. `chip` is the parameter set the machine runs with (log 2); statements about a
component quantify over the parameters.
-/

open Sys2Proof Sys2Proof.Machine

/-! ### Encoding and decoding -/

/-- R60 to R63, R65: the decoder reads a command exactly where its encoding stands at the front. -/
def Obligations.DecodeEncodeAgree : Prop :=
  ∀ (ws : List Word) (i : Instr) (rest : List Word),
    decode ws = .command i rest ↔ ws = encode i ++ rest

/-- R65, R66: a header word begins a command exactly where some row of the opcode map accepts it,
and no header word is accepted by two rows. -/
def Obligations.OpcodeRowsExact : Prop :=
  (∀ h : Word, (∃ ops i, decode (h :: ops) = .command i []) ↔ ∃ r ∈ opcodeRows, r.accepts h = true)
    ∧ opcodeRows.Pairwise fun a b => ∀ h : Word, ¬(a.accepts h = true ∧ b.accepts h = true)

/-- R65, R68, R201: words written out from the spec's encodings decode to the commands they stand
for. -/
def Obligations.KnownWords : Prop :=
  decode [0x00000000#32] = .command .nop []
    ∧ decode [0x01000000#32] = .command .reset []
    ∧ decode [0x02000000#32, 0xBB80#32, 0x1F4#32, 0#32, 0#32, 0x00800000#32, 0x01B80000#32,
        0x03E80000#32, 0xB505#32, 0x10000#32, 0x19#32, 0x0F#32, 0x0059999A#32, 0x0A#32]
      = .command (.config 48000#32 500#32 0#32 0#32 8388608#32 28835840#32 65536000#32 46341#32
          65536#32 25#32 15#32 5872026#32 10#32) []
    ∧ decode [0x10000000#32, 0x01B80000#32] = .command (.setFreq 28835840#32) []
    ∧ decode [0x11000000#32, 0x00400000#32] = .command (.setInt 4194304#32) []
    ∧ decode [0x12000001#32] = .command (.toggle true) []
    ∧ decode [0x12000000#32] = .command (.toggle false) []
    ∧ decode [0x20000000#32, 0x07D00000#32, 0xB505#32, 0x10000#32]
      = .command (.filtUpdate 131072000#32 46341#32 65536#32) []
    ∧ decode [0x21000000#32, 0x07D00000#32, 0x12C0#32]
      = .command (.filtSweep 131072000#32 4800#32) []
    ∧ decode [0x30000000#32] = .command .process []
    ∧ decode [0x40040000#32] = .command .getFc []
    ∧ decode [0x400B0000#32] = .command .getMode []

/-- R68, R69: the examples of the assembler syntax, and a pseudo-command. -/
def Obligations.AssemblerExamples : Prop :=
  assemble "SET_FREQ 440hz" = some [0x10000000#32, 0x01B80000#32]
    ∧ assemble "SET_INT 0.5q23" = some [0x11000000#32, 0x00400000#32]
    ∧ assemble "TOGGLE on" = some [0x12000001#32]
    ∧ assemble "FILT_SWEEP 2000hz, 4800" = some [0x21000000#32, 0x07D00000#32, 0x12C0#32]
    ∧ assemble "GET.FC" = some [0x40040000#32]
    ∧ assemble "RENDER 3" = some [0x30000000#32, 0x30000000#32, 0x30000000#32]

/-- R253: a header whose opcode is not in the map answers `EBADOP` and is consumed alone; one with a
bad field or selector answers `EBADOP` and takes its operand words with it. Nothing else changes,
and the word that follows is the next header. -/
def Obligations.IllegalHeaders : Prop :=
  ∀ (s : State) (h : Word) (tail : List Word), s.cmd = h :: tail →
    ((∀ k, (h.toNat / 2 ^ 24, k) ∉ operandCounts) →
        step s = .next { s with cmd := tail, resp := s.resp ++ [5#32] })
      ∧ (∀ k, (h.toNat / 2 ^ 24, k) ∈ operandCounts → k ≤ tail.length →
          (h.toNat / 2 ^ 24 = 0x40 ∧ (h.toNat % 2 ^ 16 ≠ 0 ∨ 11 < h.toNat / 2 ^ 16 % 2 ^ 8)
            ∨ h.toNat / 2 ^ 24 = 0x12 ∧ (2 ≤ h.toNat % 2 ^ 16 ∨ h.toNat / 2 ^ 16 % 2 ^ 8 ≠ 0)
            ∨ h.toNat / 2 ^ 24 ≠ 0x40 ∧ h.toNat / 2 ^ 24 ≠ 0x12
                ∧ (h.toNat % 2 ^ 16 ≠ 0 ∨ h.toNat / 2 ^ 16 % 2 ^ 8 ≠ 0)) →
          step s = .next { s with cmd := tail.drop k, resp := s.resp ++ [5#32] })

/-- R49 in the model's form (log 4): on an empty stream, or one that ends inside a command, the step
leaves the state as it is. -/
def Obligations.WaitsForWords : Prop :=
  ∀ s : State,
    (s.cmd = [] ∨ ∃ h tail k, s.cmd = h :: tail ∧ operandCount (opField h) = some k
      ∧ tail.length < k) → step s = .next s

/-- R4, R61: a step consumes the words of the command at the front of the stream and performs it; so
does the step of a core with any parameters, of which the machine is the case `chip` (log 2). -/
def Obligations.StepRunsCommand : Prop :=
  (∀ (s : State) (i : Instr) (rest : List Word),
    (decode s.cmd = .command i rest → step s = exec i { s with cmd := rest })
      ∧ (s.cmd = encode i ++ rest → step s = exec i { s with cmd := rest }))
    ∧ (∀ (P : Params) (s : State) (i : Instr) (rest : List Word),
      (decode s.cmd = .command i rest → stepWith P s = execWith P i { s with cmd := rest })
        ∧ (s.cmd = encode i ++ rest → stepWith P s = execWith P i { s with cmd := rest }))
    ∧ ∀ (s : State) (i : Instr), exec i s = execWith chip i s ∧ step s = stepWith chip s

/-! ### Responses, failures and streams -/

/-- R64, R240, R245: every command answers one status word, never `ENOMEM`; on `OK` the frame's
`CFG.N` samples follow for PROCESS, one word for GET and nothing otherwise; on any other status
nothing follows. -/
def Obligations.ResponseShape : Prop :=
  ∀ (i : Instr) (s : State), ∃ (t : State) (code : Nat) (data : List Word),
    exec i s = .next t ∧ t.cmd = s.cmd ∧ t.resp = s.resp ++ BitVec.ofNat 32 code :: data
      ∧ (code = 0 ∧ data.length = dataWords s.frameSize i
        ∨ (code = 1 ∨ code = 2 ∨ code = 4) ∧ data = [])

/-- R243: a step that answers a status other than `OK` changes no register and no sticky bit and
gives no data word, and dropping its command from the stream changes no later response. -/
def Obligations.FailedCommandDropped : Prop :=
  ∀ (s t : State) (w : Word) (data : List Word),
    step s = .next t → t.resp = s.resp ++ w :: data → w ≠ 0#32 →
      data = [] ∧ t.voice = s.voice ∧ t.sticky = s.sticky
        ∧ ∀ n, ∃ out,
            (State.run n { s with cmd := t.cmd }).resp = s.resp ++ out
              ∧ State.run n t
                = { State.run n { s with cmd := t.cmd } with resp := s.resp ++ w :: out }

/-- R41, R52: words that the host sends behind a whole command, and responses that it has not taken,
do not change what the command does; the step appends to the response stream. R16, R52 (d): at any
parameters the step is a function of these, of the command stream and of the registers; the response
stream before it is no argument. That the step answers a next state, the same state, on an empty or
partial stream too is the model's choice (log 4, DESIGN CHOICE, where U9 says stuck); that it answers
a next state everywhere else is the model's reading of R61, R66 and R243 (log 8, DEDUCED). -/
def Obligations.StreamsAppendOnly : Prop :=
  (∀ (s t : State) (more r : List Word),
    decode s.cmd ≠ .incomplete → step s = .next t →
      ∃ out, t.resp = s.resp ++ out
        ∧ step { s with cmd := s.cmd ++ more, resp := r }
          = .next { t with cmd := t.cmd ++ more, resp := r ++ out })
    ∧ ∀ (P : Params) (s : State) (c : CommandResult), c = commandStep P s.cmd ⟨s.voice, s.sticky⟩ →
        stepWith P s
          = .next { cmd := c.rest, resp := s.resp ++ c.out
                    voice := c.regs.voice, sticky := c.regs.sticky }

/-- R252: on an unconfigured core a command that needs CONFIG answers `ENOTREADY`, consumes its
operand words and changes nothing else. -/
def Obligations.NotReady : Prop :=
  ∀ (s : State) (i : Instr) (rest : List Word),
    needsConfig i = true → s.voice = none → s.cmd = encode i ++ rest →
      step s = .next { s with cmd := rest, resp := s.resp ++ [4#32] }

/-- R241: each command answers `EINVAL` exactly on the conditions listed for it, and NOP, RESET,
TOGGLE, PROCESS and GET never do. This holds at any parameters (R4), and `exec` is the case `chip`.
-/
def Obligations.EinvalCauses : Prop :=
  ∀ P : Params,
    (∀ (s : State) (fs n kind coupling int f0 fc q gain att dec sus rel : Word),
      execWith P (.config fs n kind coupling int f0 fc q gain att dec sus rel) s
          = .next { s with resp := s.resp ++ [1#32] }
        ↔ (fs = 0#32 ∨ n = 0#32 ∨ P.frameMax < n.toNat ∨ 2 < kind.toNat ∨ 4 < coupling.toNat
          ∨ 2 ^ 23 < int.toNat ∨ 2 ^ 23 < sus.toNat
          ∨ 65535 < att.toNat ∨ 65535 < dec.toNat ∨ 65535 < rel.toNat
          ∨ 2 ^ 32 - 1 < att.toNat * fs.toNat / 1000 ∨ 2 ^ 32 - 1 < dec.toNat * fs.toNat / 1000
          ∨ 2 ^ 32 - 1 < rel.toNat * fs.toNat / 1000
          ∨ f0 = 0#32 ∨ fs.toNat * 2 ^ 15 ≤ f0.toNat
          ∨ CoupledBad coupling.toNat f0.toNat fs.toNat ∨ P.design fc q gain fs = none))
      ∧ (∀ (s : State) (v : Voice), s.voice = some v →
        (∀ f, execWith P (.setFreq f) s = .next { s with resp := s.resp ++ [1#32] }
            ↔ (f = 0#32 ∨ v.cfg.fs.toNat * 2 ^ 15 ≤ f.toNat
              ∨ CoupledBad v.cfg.coupling.code f.toNat v.cfg.fs.toNat))
          ∧ (∀ i, execWith P (.setInt i) s = .next { s with resp := s.resp ++ [1#32] }
            ↔ 2 ^ 23 < i.toNat)
          ∧ (∀ fc q gain,
          execWith P (.filtUpdate fc q gain) s = .next { s with resp := s.resp ++ [1#32] }
            ↔ P.design fc q gain v.cfg.fs = none)
          ∧ (∀ target total,
            execWith P (.filtSweep target total) s = .next { s with resp := s.resp ++ [1#32] }
              ↔ (total.toNat < 256 ∨ target = 0#32 ∨ v.cfg.fs.toNat * 2 ^ 15 ≤ target.toNat)))
      ∧ (∀ (s t : State) (i : Instr),
          (i ∈ [.nop, .reset, .toggle true, .toggle false, .process, .getStatus, .getFreq1,
            .getFreq2, .getInt, .getFc, .getQ, .getGain, .getStage, .getFactor, .getFs, .getN,
            .getMode]) →
          execWith P i s = .next t → ∀ data, t.resp ≠ s.resp ++ 1#32 :: data)
      ∧ ∀ (s : State) (i : Instr), exec i s = execWith chip i s

/-- R242 with the order of R244: each command answers `EAGAIN` exactly where no argument is bad and
the busy condition listed for it holds, and NOP, RESET, CONFIG, SET_INT, TOGGLE off, PROCESS and GET
never do. This holds at any parameters (R4), and `exec` is the case `chip`. -/
def Obligations.EagainCauses : Prop :=
  ∀ P : Params,
    (∀ (s : State) (v : Voice), s.voice = some v →
      (∀ f, execWith P (.setFreq f) s = .next { s with resp := s.resp ++ [2#32] }
          ↔ f ≠ 0#32 ∧ f.toNat < v.cfg.fs.toNat * 2 ^ 15
            ∧ ¬CoupledBad v.cfg.coupling.code f.toNat v.cfg.fs.toNat
            ∧ ((∃ r, v.o1.wave = .sine r ∧ r.tr ≠ .none)
              ∨ ∃ o r, v.o2 = some o ∧ o.wave = .sine r ∧ r.tr ≠ .none))
        ∧ (execWith P (.toggle true) s = .next { s with resp := s.resp ++ [2#32] }
          ↔ v.env.stage = .attack ∨ v.env.stage = .decay ∨ v.env.stage = .release)
        ∧ (∀ fc q gain,
          execWith P (.filtUpdate fc q gain) s = .next { s with resp := s.resp ++ [2#32] }
          ↔ P.design fc q gain v.cfg.fs ≠ none ∧ v.filt.swOn = true)
        ∧ (∀ target total,
          execWith P (.filtSweep target total) s = .next { s with resp := s.resp ++ [2#32] }
            ↔ 256 ≤ total.toNat ∧ target ≠ 0#32 ∧ target.toNat < v.cfg.fs.toNat * 2 ^ 15
              ∧ (v.filt.swOn = true ∨ v.filt.xfOn = true)))
      ∧ (∀ (s t : State) (i : Instr),
          (i ∈ [.nop, .reset, .toggle false, .process, .getStatus, .getFreq1, .getFreq2, .getInt,
              .getFc, .getQ, .getGain, .getStage, .getFactor, .getFs, .getN, .getMode]
            ∨ (∃ x, i = .setInt x)
            ∨ ∃ fs n k c x f fc q g a d su r, i = .config fs n k c x f fc q g a d su r) →
          execWith P i s = .next t → ∀ data, t.resp ≠ s.resp ++ 2#32 :: data)
      ∧ ∀ (s : State) (i : Instr), exec i s = execWith chip i s

/-- R242, R264: a busy condition outlasts every command but PROCESS, CONFIG and RESET. The model
makes one exception, against R242's plain words and for those of R143 and R145 (log 16, DEDUCED):
note off with an empty release ends the envelope's. -/
def Obligations.BusyPersists : Prop :=
  ∀ (s t : State) (v : Voice) (i : Instr), s.voice = some v → exec i s = .next t →
    i ≠ .process → i ≠ .reset →
    (∀ fs n k c x f fc q g a d su r, i ≠ .config fs n k c x f fc q g a d su r) →
      ∃ w, t.voice = some w
        ∧ (v.o1.busy = true → w.o1.busy = true)
        ∧ (v.osc2Busy = true → w.osc2Busy = true)
        ∧ (v.filt.xfOn = true → w.filt.xfOn = true)
        ∧ (v.filt.swOn = true → w.filt.swOn = true)
        ∧ ((i = .toggle false → v.env.nr ≠ 0#32) →
            v.env.stage.busy = true → w.env.stage.busy = true)

/-! ### Reset, NOP, RESET and CONFIG -/

/-- R211, R260: hardware reset empties both streams and leaves no Voice and no sticky bit; the RESET
command does the same to the registers, answers `OK` and leaves the streams alone. -/
def Obligations.ResetEffects : Prop :=
  encode .reset = [0x01000000#32]
    ∧ State.reset = { cmd := [], resp := [], voice := none, sticky := ⟨false, false, false⟩ }
    ∧ ∀ s : State,
        s.hardwareReset = State.reset
          ∧ exec .reset s
            = .next { cmd := s.cmd, resp := s.resp ++ [0#32], voice := none
                      sticky := ⟨false, false, false⟩ }

/-- R210: NOP answers `OK` on every core and changes nothing. -/
def Obligations.NopEffect : Prop :=
  encode .nop = [0x00000000#32]
    ∧ ∀ s : State, exec .nop s = .next { s with resp := s.resp ++ [0#32] }

/-- R63: CONFIG's thirteen operands follow its header in the order of the table. R21, R33, R201:
where no check fails CONFIG answers `OK`, clears the sticky bits and writes every register with the
value of the table. Where the coupled frequency or a half-period does not fit its register the spec
gives no value and neither does this statement (log 5, log 6). At any parameters (R4); `exec` is the
case `chip`. -/
def Obligations.ConfigRegisters : Prop :=
  (∀ fs n kw cw int f0 fc q gain att dec sus rel : Word,
    encode (.config fs n kw cw int f0 fc q gain att dec sus rel)
      = [0x02000000#32, fs, n, kw, cw, int, f0, fc, q, gain, att, dec, sus, rel])
    ∧ ∀ (P : Params) (s : State) (fs n kw cw int f0 fc q gain att dec sus rel : Word) (k : Waveform)
      (c : Coupling) (d : Coeffs),
      fs ≠ 0#32 → n ≠ 0#32 → n.toNat ≤ P.frameMax →
      (k, kw.toNat) ∈ [(Waveform.saw, 0), (.sine, 1), (.square, 2)] →
      (c, cw.toNat) ∈ [(Coupling.uncoupled, 0), (.minorThird, 1), (.majorThird, 2), (.fifth, 3),
        (.octave, 4)] →
      int.toNat ≤ 2 ^ 23 → sus.toNat ≤ 2 ^ 23 →
      att.toNat ≤ 65535 → dec.toNat ≤ 65535 → rel.toNat ≤ 65535 →
      att.toNat * fs.toNat / 1000 < 2 ^ 32 → dec.toNat * fs.toNat / 1000 < 2 ^ 32 →
      rel.toNat * fs.toNat / 1000 < 2 ^ 32 →
      f0 ≠ 0#32 → f0.toNat < fs.toNat * 2 ^ 15 → ¬CoupledBad cw.toNat f0.toNat fs.toNat →
      P.design fc q gain fs = some d →
        ∃ (v : Voice) (t : State),
          execWith P (.config fs n kw cw int f0 fc q gain att dec sus rel) s = .next t
            ∧ (P = chip → exec (.config fs n kw cw int f0 fc q gain att dec sus rel) s = .next t)
            ∧ t = { s with
                resp := s.resp ++ [0#32], voice := some v, sticky := ⟨false, false, false⟩ }
            ∧ v.cfg = { fs := fs, n := n, kind := k, coupling := c }
            ∧ v.int.toNat = int.toNat
            ∧ Constructed k fs.toNat f0.toNat int.toNat v.o1
            ∧ (c = .uncoupled → v.o2 = none)
            ∧ (∀ r, (cw.toNat, r) ∈ ratioTable →
                ∃ o, v.o2 = some o
                  ∧ (f0.toNat * r / 2 ^ 30 < 2 ^ 32 → o.f.toNat = f0.toNat * r / 2 ^ 30)
                  ∧ Constructed k fs.toNat o.f.toNat int.toNat o)
            ∧ v.env.na.toNat = att.toNat * fs.toNat / 1000
            ∧ v.env.nd.toNat = dec.toNat * fs.toNat / 1000
            ∧ v.env.nr.toNat = rel.toNat * fs.toNat / 1000
            ∧ v.env.s.toNat = sus.toNat
            ∧ v.env.stage = .idle ∧ v.env.idx = 0#32 ∧ v.env.factor = 0#24 ∧ v.env.cap = 0#24
            ∧ v.filt =
                { cur := d, start := d, tgt := d, xfOn := false, xfIdx := 0#8
                  x1 := 0#32, x2 := 0#32, y1 := 0#32, y2 := 0#32, fc := fc, q := q, gain := gain
                  swOn := false, swTarget := 0#32, swRem := 0#32, swDelta := 0#33 }

/-! ### Control commands -/

/-- R203 with R106, R111, R120: SET_FREQ out of range answers `EINVAL`; in range on a busy
oscillator `EAGAIN`; else it answers `OK` and sets both oscillators, and no other register. Where
the coupled frequency or a half-period does not fit its register the spec gives no value and neither
does this statement (log 5, log 6). -/
def Obligations.SetFreqEffect : Prop :=
  ∀ (s : State) (v : Voice) (f : Word), s.voice = some v → VoiceInv chip v →
    encode (.setFreq f) = [0x10000000#32, f]
      ∧ ((f = 0#32 ∨ v.cfg.fs.toNat * 2 ^ 15 ≤ f.toNat
          ∨ CoupledBad v.cfg.coupling.code f.toNat v.cfg.fs.toNat) →
        exec (.setFreq f) s = .next { s with resp := s.resp ++ [1#32] })
      ∧ (f ≠ 0#32 → f.toNat < v.cfg.fs.toNat * 2 ^ 15 →
        ¬CoupledBad v.cfg.coupling.code f.toNat v.cfg.fs.toNat →
        (v.o1.busy = true ∨ v.osc2Busy = true) →
        exec (.setFreq f) s = .next { s with resp := s.resp ++ [2#32] })
      ∧ (f ≠ 0#32 → f.toNat < v.cfg.fs.toNat * 2 ^ 15 →
        ¬CoupledBad v.cfg.coupling.code f.toNat v.cfg.fs.toNat →
        v.o1.busy = false → v.osc2Busy = false →
        ∃ (o1 : Osc) (o2 : Option Osc),
          exec (.setFreq f) s
              = .next { s with
                  resp := s.resp ++ [0#32], voice := some { v with o1 := o1, o2 := o2 } }
            ∧ FrequencySet v.cfg.fs.toNat f.toNat v.o1 o1
            ∧ (v.o2 = none → o2 = none)
            ∧ ∀ a, v.o2 = some a →
                ∃ b r, o2 = some b ∧ (v.cfg.coupling.code, r) ∈ ratioTable
                  ∧ (f.toNat * r / 2 ^ 30 < 2 ^ 32 → b.f.toNat = f.toNat * r / 2 ^ 30)
                  ∧ FrequencySet v.cfg.fs.toNat b.f.toNat a b)

/-- R204 with R107, R112, R118: SET_INT above `ONE` answers `EINVAL`; else it answers `OK` and sets
`V.int` and both oscillators, and no other register. -/
def Obligations.SetIntEffect : Prop :=
  ∀ (s : State) (v : Voice) (i : Word), s.voice = some v → VoiceInv chip v →
    encode (.setInt i) = [0x11000000#32, i]
      ∧ (2 ^ 23 < i.toNat → exec (.setInt i) s = .next { s with resp := s.resp ++ [1#32] })
      ∧ (i.toNat ≤ 2 ^ 23 →
        ∃ (x : BitVec 24) (o1 : Osc) (o2 : Option Osc),
          exec (.setInt i) s
              = .next { s with
                  resp := s.resp ++ [0#32], voice := some { v with int := x, o1 := o1, o2 := o2 } }
            ∧ x.toNat = i.toNat
            ∧ IntensitySet v.cfg.fs.toNat i.toNat v.o1 o1
            ∧ (v.o2 = none → o2 = none)
            ∧ ∀ a, v.o2 = some a → ∃ b, o2 = some b ∧ IntensitySet v.cfg.fs.toNat i.toNat a b)

/-- R144, R205: note on captures `V.int` and enters the first stage whose table is not empty, does
nothing in `SUSTAIN`, and answers `EAGAIN` in `ATTACK`, `DECAY` and `RELEASE`. It is the envelope's
`trigger`, handed `V.int`. -/
def Obligations.NoteOnEffect : Prop :=
  ∀ (s : State) (v : Voice), s.voice = some v →
    encode (.toggle true) = [0x12000001#32]
      ∧ (v.env.stage = .idle →
        ∃ (stage : Stage) (factor : BitVec 24),
          exec (.toggle true) s
              = .next { s with
                  resp := s.resp ++ [0#32]
                  voice := some { v with
                    env := { v.env with
                      stage := stage, idx := 0#32, factor := factor, cap := v.int } } }
            ∧ (v.env.na ≠ 0#32 → stage = .attack ∧ factor.toNat = 0)
            ∧ (v.env.na = 0#32 → v.env.nd ≠ 0#32 → stage = .decay ∧ factor.toNat = 2 ^ 23)
            ∧ (v.env.na = 0#32 → v.env.nd = 0#32 → stage = .sustain ∧ factor = v.env.s))
      ∧ (v.env.stage = .sustain →
        exec (.toggle true) s = .next { s with resp := s.resp ++ [0#32] })
      ∧ (v.env.stage = .attack ∨ v.env.stage = .decay ∨ v.env.stage = .release →
        exec (.toggle true) s = .next { s with resp := s.resp ++ [2#32] })
      ∧ ∀ e, v.env.trigger true v.int = .ok e →
        exec (.toggle true) s
          = .next { s with resp := s.resp ++ [0#32], voice := some { v with env := e } }

/-- R145, R149, R205: note off does nothing in `IDLE` and `RELEASE`; in the other stages the release
starts from the sustain factor, or the envelope is idle at once where the release is empty. It is
the envelope's `trigger`, handed `V.int`. -/
def Obligations.NoteOffEffect : Prop :=
  ∀ (s : State) (v : Voice), s.voice = some v →
    encode (.toggle false) = [0x12000000#32]
      ∧ (v.env.stage = .idle ∨ v.env.stage = .release →
        exec (.toggle false) s = .next { s with resp := s.resp ++ [0#32] })
      ∧ (v.env.stage = .attack ∨ v.env.stage = .decay ∨ v.env.stage = .sustain →
        exec (.toggle false) s
          = .next { s with
              resp := s.resp ++ [0#32]
              voice := some { v with
                env := { v.env with
                  stage := if v.env.nr = 0#32 then .idle else .release
                  idx := 0#32
                  factor := if v.env.nr = 0#32 then 0#24 else v.env.s } } })
      ∧ ∀ e, v.env.trigger false v.int = .ok e →
        exec (.toggle false) s
          = .next { s with resp := s.resp ++ [0#32], voice := some { v with env := e } }

/-- R163, R206: FILT_UPDATE with a design and no sweep answers `OK`, takes each operand into the
parameter of its name and starts a crossfade from the coefficients in effect to the designed ones,
as the filter's `update` does; without a design it answers `EINVAL`, else during a sweep `EAGAIN`.
At any parameters (R4); `exec` is the case `chip`. -/
def Obligations.FiltUpdateEffect : Prop :=
  ∀ (P : Params) (s : State) (v : Voice) (fc q gain : Word), s.voice = some v →
    encode (.filtUpdate fc q gain) = [0x20000000#32, fc, q, gain]
      ∧ (∀ d, P.design fc q gain v.cfg.fs = some d → v.filt.swOn = false →
        ∃ (F : Filter) (t : State),
          v.filt.update P v.cfg.fs fc q gain = .ok F
            ∧ execWith P (.filtUpdate fc q gain) s = .next t
            ∧ (P = chip → exec (.filtUpdate fc q gain) s = .next t)
            ∧ t = { s with resp := s.resp ++ [0#32], voice := some { v with filt := F } }
            ∧ F = { v.filt with
                fc := fc, q := q, gain := gain, start := v.filt.cur, tgt := d
                xfIdx := 0#8, xfOn := true })
      ∧ (P.design fc q gain v.cfg.fs = none →
        execWith P (.filtUpdate fc q gain) s = .next { s with resp := s.resp ++ [1#32] })
      ∧ (P.design fc q gain v.cfg.fs ≠ none → v.filt.swOn = true →
        execWith P (.filtUpdate fc q gain) s = .next { s with resp := s.resp ++ [2#32] })
      ∧ (P = chip → exec (.filtUpdate fc q gain) s = execWith P (.filtUpdate fc q gain) s)

/-- R164, R165, R208: FILT_SWEEP with a bad argument answers `EINVAL`; with good ones, while a sweep
or a crossfade runs, `EAGAIN`; else it answers `OK`, arms the sweep and starts its first segment, as
the filter's `start_fc_sweep` does; where that segment's design fails the sweep is over at once and
`DESIGN_ERR` is set. That the answer is `OK` there too is the model's reading of R164 and R165 (log
11, DEDUCED). No register outside the filter changes. At any parameters (R4); `exec` is the case
`chip`. -/
def Obligations.FiltSweepEffect : Prop :=
  ∀ (P : Params) (s : State) (v : Voice) (target total : Word), s.voice = some v →
    encode (.filtSweep target total) = [0x21000000#32, target, total]
      ∧ ((total.toNat < 256 ∨ target = 0#32 ∨ v.cfg.fs.toNat * 2 ^ 15 ≤ target.toNat) →
        execWith P (.filtSweep target total) s = .next { s with resp := s.resp ++ [1#32] })
      ∧ (256 ≤ total.toNat → target ≠ 0#32 → target.toNat < v.cfg.fs.toNat * 2 ^ 15 →
        (v.filt.swOn = true ∨ v.filt.xfOn = true) →
        execWith P (.filtSweep target total) s = .next { s with resp := s.resp ++ [2#32] })
      ∧ (256 ≤ total.toNat → target ≠ 0#32 → target.toNat < v.cfg.fs.toNat * 2 ^ 15 →
        v.filt.swOn = false → v.filt.xfOn = false →
        ∃ (F : Filter) (err : Bool) (t : State),
          v.filt.startSweep P v.cfg.fs target total = .ok (F, err)
            ∧ execWith P (.filtSweep target total) s = .next t
            ∧ (P = chip → exec (.filtSweep target total) s = .next t)
            ∧ t = { s with
                  resp := s.resp ++ [0#32]
                  voice := some { v with filt := F }
                  sticky := { s.sticky with designErr := s.sticky.designErr || err } }
            ∧ F.swTarget = target
            ∧ F.swDelta.toInt
                = Int.tdiv ((target.toNat : Int) - v.filt.fc.toNat) (total.toNat / 256 : Nat)
            ∧ (F.fc.toNat : Int)
                = (if total.toNat / 256 = 1 then (target.toNat : Int)
                   else v.filt.fc.toNat + F.swDelta.toInt)
            ∧ (∀ d, P.design F.fc v.filt.q v.filt.gain v.cfg.fs = some d →
                err = false ∧ F.swRem.toNat = total.toNat / 256 - 1
                  ∧ F = { v.filt with
                      fc := F.fc, start := v.filt.cur, tgt := d, xfIdx := 0#8, xfOn := true
                      swOn := true, swTarget := target, swRem := F.swRem, swDelta := F.swDelta })
            ∧ (P.design F.fc v.filt.q v.filt.gain v.cfg.fs = none →
                err = true
                  ∧ F = { v.filt with
                      fc := F.fc, xfIdx := 0#8, xfOn := false, swOn := false, swTarget := target
                      swRem := 0#32, swDelta := F.swDelta }))
      ∧ (P = chip → exec (.filtSweep target total) s = execWith P (.filtSweep target total) s)

/-! ### PROCESS and the voice sample -/

/-- R207: PROCESS answers `OK` and `CFG.N` sample words, those of as many voice samples in order,
and leaves the Voice as the last of them leaves it, with the events of all of them. At any
parameters (R4); `exec` is the case `chip`. -/
def Obligations.ProcessIsVoiceSamples : Prop :=
  encode .process = [0x30000000#32] ∧
  ∀ (P : Params) (s : State) (v : Voice), s.voice = some v →
    ∃ (y : Nat → Int) (w : Nat → Voice) (ev : Nat → Sticky) (t : State),
      w 0 = v
        ∧ (∀ k, k < v.cfg.n.toNat → (w k).sample P = (y k, w (k + 1), ev k))
        ∧ execWith P .process s = .next t ∧ (P = chip → exec .process s = .next t)
        ∧ t = { s with
              resp := s.resp ++ 0#32 :: (List.range v.cfg.n.toNat).map fun k =>
                BitVec.ofInt 32 (y k)
              voice := some (w v.cfg.n.toNat)
              sticky :=
                ⟨s.sticky.filtOvf || (List.range v.cfg.n.toNat).any fun k => (ev k).filtOvf,
                 s.sticky.designErr || (List.range v.cfg.n.toNat).any fun k => (ev k).designErr,
                 s.sticky.idxWrap || (List.range v.cfg.n.toNat).any fun k => (ev k).idxWrap⟩ }

/-- R212: one voice sample: the oscillators, the sum clamped to full scale where there are two, the
envelope multiply rounded symmetrically, the filter; the envelope advances once (R146). -/
def Obligations.VoiceSamplePipeline : Prop :=
  ∀ (P : Params) (v : Voice) (g o e : Int),
    g = (v.env.cap.toNat * v.env.factor.toNat / 2 ^ 23 : Nat) →
    (v.o2 = none → o = (v.o1.sample P v.cfg.fs).1) →
    (∀ b, v.o2 = some b →
      o = max (-8388607) (min 8388607 ((v.o1.sample P v.cfg.fs).1 + (b.sample P v.cfg.fs).1))) →
    e = rshrSym (o * g) 23 →
      (v.sample P).1 = (v.filt.sample P v.cfg.fs e).y
        ∧ (v.sample P).2.1
          = { v with
              o1 := (v.o1.sample P v.cfg.fs).2.1
              o2 := v.o2.map fun b => (b.sample P v.cfg.fs).2.1
              env := v.env.advance
              filt := (v.filt.sample P v.cfg.fs e).filt }
        ∧ (v.sample P).2.2
          = { filtOvf := (v.filt.sample P v.cfg.fs e).ovf
              designErr := (v.filt.sample P v.cfg.fs e).designErr
              idxWrap := (v.o1.sample P v.cfg.fs).2.2
                || (v.o2.map fun b => (b.sample P v.cfg.fs).2.2).getD false }

/-- R213: the five passes over whole buffers give the samples, the final state and the events of the
sample-wise frame, so that PROCESS answers with those of the five passes. At any parameters (R4);
`exec` is the case `chip`. -/
def Obligations.FrameWiseEqualsSampleWise : Prop :=
  (∀ (P : Params) (n : Nat) (v : Voice), v.processFrame P n = v.process P n)
    ∧ ∀ (P : Params) (s : State) (v : Voice) (r : FrameOut), s.voice = some v →
        r = v.processFrame P v.cfg.n.toNat →
          execWith P .process s
              = .next { s with
                  resp := s.resp ++ 0#32 :: r.out, voice := some r.voice
                  sticky :=
                    ⟨s.sticky.filtOvf || r.events.filtOvf,
                     s.sticky.designErr || r.events.designErr,
                     s.sticky.idxWrap || r.events.idxWrap⟩ }
            ∧ (P = chip → exec .process s = execWith P .process s)

/-- R35, row PROCESS: it leaves the configuration registers, `V.int`, the accepted frequencies and
intensities, `F.q` and `F.gain` as they are; R143, R146: and the captured intensity. -/
def Obligations.ProcessKeepsParameters : Prop :=
  ∀ (s : State) (v : Voice), s.voice = some v →
    ∃ (t : State) (w : Voice), exec .process s = .next t ∧ t.voice = some w ∧ t.cmd = s.cmd
      ∧ w.cfg = v.cfg ∧ w.int = v.int
      ∧ w.o1.f = v.o1.f ∧ w.o1.i = v.o1.i
      ∧ w.o2.map (fun o => (o.f, o.i)) = v.o2.map (fun o => (o.f, o.i))
      ∧ w.env.na = v.env.na ∧ w.env.nd = v.env.nd ∧ w.env.nr = v.env.nr ∧ w.env.s = v.env.s
      ∧ w.env.cap = v.env.cap ∧ w.filt.q = v.filt.q ∧ w.filt.gain = v.filt.gain

/-! ### GET and STATUS -/

/-- R21, R27, R140, R209: each GET answers `OK` and its view and writes nothing; on an unconfigured
core selectors 1 to 11 answer `ENOTREADY`; a reserved selector or a non-zero `arg` answers `EBADOP`.
In a sound Voice both oscillators have the intensity `V.int`, and `O2` exists exactly where it is
coupled. -/
def Obligations.GetViews : Prop :=
  ((∀ k : Fin 12, encode ([Instr.getStatus, .getFreq1, .getFreq2, .getInt, .getFc, .getQ, .getGain,
        .getStage, .getFactor, .getFs, .getN, .getMode].get k)
      = [0x40000000#32 + BitVec.ofNat 32 (k.val * 2 ^ 16)])
    ∧ ∀ s : State, exec .getStatus s = .next { s with resp := s.resp ++ [0#32, s.statusView] })
    ∧ (∀ (s : State) (v : Voice), s.voice = some v →
      exec .getFreq1 s = .next { s with resp := s.resp ++ [0#32, v.o1.f] }
        ∧ exec .getFreq2 s
          = .next { s with resp := s.resp ++ [0#32, (v.o2.map fun o => o.f).getD 0#32] }
        ∧ exec .getInt s = .next { s with resp := s.resp ++ [0#32, v.int.setWidth 32] }
        ∧ exec .getFc s = .next { s with resp := s.resp ++ [0#32, v.filt.fc] }
        ∧ exec .getQ s = .next { s with resp := s.resp ++ [0#32, v.filt.q] }
        ∧ exec .getGain s = .next { s with resp := s.resp ++ [0#32, v.filt.gain] }
        ∧ (∀ k, (v.env.stage, k) ∈ [(Stage.idle, 0#32), (.attack, 1#32), (.decay, 2#32),
            (.sustain, 3#32), (.release, 4#32)] →
          exec .getStage s = .next { s with resp := s.resp ++ [0#32, k] })
        ∧ exec .getFactor s = .next { s with resp := s.resp ++ [0#32, v.env.factor.setWidth 32] }
        ∧ exec .getFs s = .next { s with resp := s.resp ++ [0#32, v.cfg.fs] }
        ∧ exec .getN s = .next { s with resp := s.resp ++ [0#32, v.cfg.n] }
        ∧ (∀ k c, (v.cfg.kind, k) ∈ [(Waveform.saw, 0), (.sine, 1), (.square, 2)] →
          (v.cfg.coupling, c) ∈ [(Coupling.uncoupled, 0), (.minorThird, 1), (.majorThird, 2),
            (.fifth, 3), (.octave, 4)] →
          exec .getMode s
            = .next { s with resp := s.resp ++ [0#32, BitVec.ofNat 32 (c * 256 + k)] })
        ∧ (VoiceInv chip v →
            v.o1.i = v.int ∧ (∀ o, v.o2 = some o → o.i = v.int)
              ∧ (v.cfg.coupling = .uncoupled ↔ v.o2 = none)))
    ∧ (∀ (s : State) (i : Instr), s.voice = none →
        i ∈ [.getFreq1, .getFreq2, .getInt, .getFc, .getQ, .getGain, .getStage, .getFactor, .getFs,
          .getN, .getMode] →
        exec i s = .next { s with resp := s.resp ++ [4#32] })
    ∧ ∀ (s : State) (h : Word) (rest : List Word), s.cmd = h :: rest → h.toNat / 2 ^ 24 = 0x40 →
        (11 < h.toNat / 2 ^ 16 % 2 ^ 8 ∨ h.toNat % 2 ^ 16 ≠ 0) →
        step s = .next { s with cmd := rest, resp := s.resp ++ [5#32] }

/-- R30: the bits of the word that GET.STATUS answers: `CONFIGURED`, the three sticky bits, the five
live bits, every reserved bit 0, and every live bit 0 on an unconfigured core. -/
def Obligations.StatusBits : Prop :=
  ∀ s : State, ∃ w : Word,
    exec .getStatus s = .next { s with resp := s.resp ++ [0#32, w] }
      ∧ ∀ k, k < 32 →
        (w.getLsbD k = true ↔
          (k = 0 ∧ ∃ v, s.voice = some v)
            ∨ (k = 1 ∧ s.sticky.filtOvf = true)
            ∨ (k = 2 ∧ s.sticky.designErr = true)
            ∨ (k = 3 ∧ s.sticky.idxWrap = true)
            ∨ (k = 8 ∧ ∃ v, s.voice = some v ∧ v.filt.xfOn = true)
            ∨ (k = 9 ∧ ∃ v, s.voice = some v ∧ v.filt.swOn = true)
            ∨ (k = 10 ∧ ∃ v r, s.voice = some v ∧ v.o1.wave = .sine r ∧ r.tr ≠ .none)
            ∨ (k = 11 ∧ ∃ v o r, s.voice = some v ∧ v.o2 = some o ∧ o.wave = .sine r
                ∧ r.tr ≠ .none)
            ∨ (k = 12 ∧ ∃ v, s.voice = some v ∧ (v.env.stage = .attack ∨ v.env.stage = .decay
                ∨ v.env.stage = .release)))

/-- R30: a sticky bit stays set through every step but a RESET and a successful CONFIG, and the
sticky bits decide nothing: whatever they hold, a step other than GET.STATUS leaves the same
registers and answers the same words. -/
def Obligations.StickyBits : Prop :=
  (∀ s t : State, step s = .next t →
    (s.sticky.filtOvf = true → t.sticky.filtOvf = true)
        ∧ (s.sticky.designErr = true → t.sticky.designErr = true)
        ∧ (s.sticky.idxWrap = true → t.sticky.idxWrap = true)
      ∨ t.sticky = Sticky.clear ∧ t.resp = s.resp ++ [0#32]
        ∧ ((∃ rest, decode s.cmd = .command .reset rest)
          ∨ ∃ fs n k c x f fc q g a d su r rest,
              decode s.cmd = .command (.config fs n k c x f fc q g a d su r) rest))
    ∧ ∀ (s t : State) (st : Sticky), step s = .next t →
        (∀ rest, decode s.cmd ≠ .command .getStatus rest) →
        ∃ st', step { s with sticky := st } = .next { t with sticky := st' }

/-! ### Arithmetic primitives -/

/-- R9: `rshr_sym` is the nearest integer, ties away from zero, and odd. -/
def Obligations.RshrSymNearest : Prop :=
  ∀ (v : Int) (k : Nat), 1 ≤ k →
    2 * |v - rshrSym v k * 2 ^ k| ≤ 2 ^ k
      ∧ (2 * |v - rshrSym v k * 2 ^ k| = 2 ^ k → |v| < |rshrSym v k * 2 ^ k|)
      ∧ rshrSym (-v) k = -rshrSym v k

/-- R10: `sat_fs` clamps to plus and minus full scale. -/
def Obligations.SatFsClamps : Prop :=
  ∀ v : Int,
    (8388607 < v → satFs v = 8388607) ∧ (v < -8388607 → satFs v = -8388607)
      ∧ (-8388607 ≤ v → v ≤ 8388607 → satFs v = v)

/-- R11: `fdiv` is the floor, `tdiv` truncates toward zero, `cdiv` is the ceiling. -/
def Obligations.IntegerDivisions : Prop :=
  (∀ a b : Int, 0 < b →
      (fdiv a b * b ≤ a ∧ a < (fdiv a b + 1) * b)
        ∧ (0 ≤ a → 0 ≤ tdiv a b ∧ tdiv a b * b ≤ a ∧ a < (tdiv a b + 1) * b)
        ∧ (a < 0 → tdiv a b ≤ 0 ∧ a ≤ tdiv a b * b ∧ (tdiv a b - 1) * b < a))
    ∧ ∀ a b : Nat, 0 < b → a ≤ cdiv a b * b ∧ ∀ m, a ≤ m * b → cdiv a b ≤ m

/-- R7: `wrap_N` and `wrapu_N` are the unique congruent integers of their ranges. -/
def Obligations.WrapsUnique : Prop :=
  ∀ (n : Nat) (v r : Int), 1 ≤ n →
    (r = wrapS n v ↔ -(2 ^ (n - 1)) ≤ r ∧ r < 2 ^ (n - 1) ∧ (2 ^ n : Int) ∣ r - v)
      ∧ (r = wrapU n v ↔ 0 ≤ r ∧ r < 2 ^ n ∧ (2 ^ n : Int) ∣ r - v)

/-! ### Oscillator -/

/-- R108: one saw sample: the amplitude before the step; the excess of an underflow is carried into
the next ramp, and the amplitude stays within the peak. -/
def Obligations.SawSample : Prop :=
  ∀ (P : Params) (fs : Word) (o : Osc) (r : SawRegs), o.wave = .saw r →
    |r.amp.toInt| ≤ r.max.toNat → r.step.toNat ≤ r.max.toNat →
      ∃ r' : SawRegs,
        o.sample P fs = (r.amp.toInt, { o with wave := .saw r' }, false)
          ∧ r'.max = r.max ∧ r'.step = r.step ∧ |r'.amp.toInt| ≤ r.max.toNat
          ∧ (-(r.max.toNat : Int) ≤ r.amp.toInt - r.step.toNat →
              r'.amp.toInt = r.amp.toInt - r.step.toNat)
          ∧ (r.amp.toInt - r.step.toNat < -(r.max.toNat : Int) →
              r'.amp.toInt
                  = r.max.toNat - (-(r.max.toNat : Int) - (r.amp.toInt - r.step.toNat))
                ∧ (r.max.toNat : Int) - r.step.toNat ≤ r'.amp.toInt)

/-- R109 (a), (b): over any number of samples the amplitude stays within the peak and falls by the
step per sample modulo twice the peak. The sample of a saw oscillator is `sawSample`. -/
def Obligations.SawFallsModuloPeak : Prop :=
  (∀ (fs f : Word) (i : BitVec 24) (r : SawRegs) (k : Nat), FreqOk f.toNat fs.toNat →
    SawInv fs f i r →
      |((fun x => (sawSample x).2)^[k] r).amp.toInt| ≤ r.max.toNat
        ∧ (2 * r.max.toNat : Int)
          ∣ ((fun x => (sawSample x).2)^[k] r).amp.toInt - (r.amp.toInt - k * r.step.toNat))
    ∧ ∀ (P : Params) (fs : Word) (o : Osc) (r : SawRegs), o.wave = .saw r →
        o.sample P fs = ((sawSample r).1, { o with wave := .saw (sawSample r).2 }, false)

/-- R113: one square sample: the level, then the count; the sign flips and the count restarts when
the half-period is full. -/
def Obligations.SquareSample : Prop :=
  ∀ (P : Params) (fs : Word) (o : Osc) (r : SquareRegs), o.wave = .square r →
    ∃ r' : SquareRegs,
      o.sample P fs
          = (if r.sign = .plus then (r.max.toNat : Int) else -r.max.toNat,
             { o with wave := .square r' }, false)
        ∧ r'.max = r.max ∧ r'.half = r.half
        ∧ (r.half.toNat ≤ r.cnt.toNat + 1 → r'.sign ≠ r.sign ∧ r'.cnt.toNat = 0)
        ∧ (r.cnt.toNat + 1 < r.half.toNat → r'.sign = r.sign ∧ r'.cnt.toNat = r.cnt.toNat + 1)

/-- R114: from the start of a half-period the square emits one level for `half` samples and the
other for `half` samples, and is then where it began. The sample of a square oscillator is
`squareSample`. -/
def Obligations.SquarePeriod : Prop :=
  (∀ (r : SquareRegs) (k : Nat), r.cnt = 0#32 → 1 ≤ r.half.toNat →
    (k < 2 * r.half.toNat →
        (squareSample ((fun x => (squareSample x).2)^[k] r)).1
          = if k < r.half.toNat then r.sign.toInt * r.max.toNat
            else -(r.sign.toInt * r.max.toNat))
      ∧ (fun x => (squareSample x).2)^[2 * r.half.toNat] r = r)
    ∧ ∀ (P : Params) (fs : Word) (o : Osc) (r : SquareRegs), o.wave = .square r →
        o.sample P fs = ((squareSample r).1, { o with wave := .square (squareSample r).2 }, false)

/-- R119, R126: after `k` samples of a ramp the intensity in effect is `k` thousandths of the way,
rounded down, between its ends, and the next sample, if the ramp still runs, has the value of one
thousandth more; from the 1000th sample on it is the target and the ramp is off. R116, R117, R122,
R127: every sample outside `RUN` has the value of the intensity left by its own ramp step at the
phase of the sample index; the index advances, that phase becomes the previous one, an armed
transition starts exactly where the phase fell, and `IDX_WRAP` is raised exactly at the index 2^32 -
1, in `RUN` never. R100, R126, R129: the sample of a sine oscillator is this sample at its own
frequency. R103, R116, R117: the phase of an index and the value of a phase are the formulas of the
spec. -/
def Obligations.SineRampAndSteadySample : Prop :=
  (∀ (P : Params) (fs f : Word) (i : BitVec 24) (r : SineRegs) (k : Nat) (x : SineRegs),
    r.iEff.toNat ≤ 2 ^ 23 → i.toNat ≤ 2 ^ 23 →
    x = (fun y => (sineSample P fs f y).2.1)^[k]
      { r with iStart := r.iEff, iTgt := i, rampK := 0#10, rampOn := true } →
      (k < 1000 →
          x.rampOn = true ∧ x.rampK.toNat = k
            ∧ (x.iEff.toNat : Int)
              = r.iEff.toNat + ((i.toNat : Int) - r.iEff.toNat) * k / 1000
            ∧ ∃ j : BitVec 24,
                (j.toNat : Int) = r.iEff.toNat + ((i.toNat : Int) - r.iEff.toNat) * (k + 1) / 1000
                  ∧ (sineSample P fs f x).1
                    = sineValue P j
                      (if x.tr = .run then x.pt[x.trK.toNat]'x.trK.isLt
                       else phase x.fCur.toNat x.n.toNat fs.toNat))
        ∧ (1000 ≤ k → x.rampOn = false ∧ x.rampK.toNat = 0 ∧ x.iEff = i)
        ∧ min r.iEff.toNat i.toNat ≤ x.iEff.toNat ∧ x.iEff.toNat ≤ max r.iEff.toNat i.toNat)
    ∧ (∀ (P : Params) (fs f p : Word) (r : SineRegs), r.tr ≠ .run →
      p = phase r.fCur.toNat r.n.toNat fs.toNat →
        ∃ y : SineRegs,
          sineSample P fs f r = (sineValue P y.iEff p, y, decide (r.n = 0xFFFFFFFF#32))
            ∧ y = { r with
                n := r.n + 1#32, pPrev := p, tr := y.tr, trK := y.trK
                iEff := y.iEff, rampK := y.rampK, rampOn := y.rampOn }
            ∧ (r.rampOn = false →
                y.iEff = r.iEff ∧ y.rampK = r.rampK ∧ y.rampOn = false)
            ∧ (r.rampOn = true → r.rampK.toNat < 999 →
                y.rampOn = true ∧ y.rampK.toNat = r.rampK.toNat + 1
                  ∧ (y.iEff.toNat : Int)
                    = r.iStart.toNat
                      + ((r.iTgt.toNat : Int) - r.iStart.toNat) * (r.rampK.toNat + 1) / 1000)
            ∧ (r.rampOn = true → 999 ≤ r.rampK.toNat →
                y.iEff = r.iTgt ∧ y.rampK = 0#10 ∧ y.rampOn = false)
            ∧ (r.tr = .armed → p < r.pPrev → y.tr = .run ∧ y.trK = 0#8)
            ∧ (r.tr = .none ∨ ¬p < r.pPrev → y.tr = r.tr ∧ y.trK = r.trK))
    ∧ (∀ (P : Params) (fs f : Word) (r : SineRegs), r.tr = .run →
        (sineSample P fs f r).2.2 = false)
    ∧ (∀ (P : Params) (fs : Word) (o : Osc) (r : SineRegs), o.wave = .sine r →
        o.sample P fs
          = ((sineSample P fs o.f r).1, { o with wave := .sine (sineSample P fs o.f r).2.1 },
             (sineSample P fs o.f r).2.2))
    ∧ (∀ f n fs : Nat, phase f n fs = BitVec.ofNat 32 (f * n * 2 ^ 16 / fs))
    ∧ ∀ (P : Params) (i : BitVec 24) (p : Word),
        sineValue P i p = rshrSym ((i.toNat * 8388607 / 2 ^ 23 : Nat) * P.sinrom p) 23

/-- R122: between two consecutive sample indices the phase falls exactly where it passes a whole
turn. -/
def Obligations.CrossingIsWholeTurn : Prop :=
  ∀ (f fs : Word) (n : Nat), FreqOk f.toNat fs.toNat →
    (phase f.toNat (n + 1) fs.toNat < phase f.toNat n fs.toNat
        ↔ f.toNat * (n + 1) / (fs.toNat * 2 ^ 16) = f.toNat * n / (fs.toNat * 2 ^ 16) + 1)
      ∧ (phase f.toNat n fs.toNat ≤ phase f.toNat (n + 1) fs.toNat
        ↔ f.toNat * (n + 1) / (fs.toNat * 2 ^ 16) = f.toNat * n / (fs.toNat * 2 ^ 16))

/-- R121, R122, R264: an armed transition whose previous phase is that of the previous index starts
to run after at most one period window and one sample, unless the index would wrap. -/
def Obligations.ArmedTransitionStarts : Prop :=
  ∀ (P : Params) (fs f : Word) (r : SineRegs), r.tr = .armed →
    FreqOk r.fCur.toNat fs.toNat →
    r.pPrev = phase r.fCur.toNat (r.n.toNat - 1) fs.toNat →
    r.n.toNat + (fs.toNat * 2 ^ 16 + r.fCur.toNat - 1) / r.fCur.toNat + 1 ≤ 2 ^ 32 →
      ∃ k, k ≤ (fs.toNat * 2 ^ 16 + r.fCur.toNat - 1) / r.fCur.toNat + 1
        ∧ ((fun y => (sineSample P fs f y).2.1)^[k] r).tr = .run
        ∧ ((fun y => (sineSample P fs f y).2.1)^[k] r).trK = 0#8
        ∧ ∀ j, j < k → ((fun y => (sineSample P fs f y).2.1)^[j] r).tr = .armed

/-- R121, R123: a running transition emits the 256 entries of its table, one per sample, while the
sample index stands still; with the last one it ends at the new frequency, resynchronised on that
sample's own phase and value (R125, R126). -/
def Obligations.TransitionRuns256 : Prop :=
  ∀ (P : Params) (fs f : Word) (r : SineRegs) (at' : Nat → SineRegs),
    r.tr = .run → r.trK = 0#8 → at' 0 = r →
    (∀ k, at' (k + 1) = (sineSample P fs f (at' k)).2.1) →
      (∀ (k : Nat) (hk : k < 256),
          (at' k).tr = .run ∧ (at' k).trK.toNat = k ∧ (at' k).n = r.n ∧ (at' k).fCur = r.fCur
            ∧ (sineSample P fs f (at' k)).1
              = sineValue P (at' (k + 1)).iEff (r.pt[k]'hk))
        ∧ (∀ (k : Nat) (hk : k < 255), (at' (k + 1)).pPrev = r.pt[k]'(Nat.lt_succ_of_lt hk))
        ∧ at' 256 = resync P fs f (r.pt[255]) (sineSample P fs f (at' 255)).1 (at' 256)
        ∧ (at' 256).pt = r.pt
        ∧ (at' 256).tr = .none ∧ (at' 256).trK = 0#8 ∧ (at' 256).fCur = f

/-- R125: the resynchronisation continues behind the index of the period window whose value on the
wanted slope is closest to the sample emitted, the lowest of several; there is always one. R124: a
phase ascends exactly in the first and the last quarter turn, the trough included and the peak not.
-/
def Obligations.ResyncClosestIndex : Prop :=
  (∀ p : Word, ascending p = true ↔ p.toNat < 2 ^ 30 ∨ 3 * 2 ^ 30 ≤ p.toNat) ∧
  ∀ (P : Params) (fs f p : Word) (out : Int) (r : SineRegs), FreqOk f.toNat fs.toNat →
    ∃ best, best < (fs.toNat * 2 ^ 16 + f.toNat - 1) / f.toNat
      ∧ ascending (phase f.toNat best fs.toNat) = ascending p
      ∧ (∀ m, m < (fs.toNat * 2 ^ 16 + f.toNat - 1) / f.toNat →
          ascending (phase f.toNat m fs.toNat) = ascending p →
          |sineValue P r.iEff (phase f.toNat best fs.toNat) - out|
            ≤ |sineValue P r.iEff (phase f.toNat m fs.toNat) - out|)
      ∧ (∀ m, m < best → ascending (phase f.toNat m fs.toNat) = ascending p →
          |sineValue P r.iEff (phase f.toNat best fs.toNat) - out|
            < |sineValue P r.iEff (phase f.toNat m fs.toNat) - out|)
      ∧ resync P fs f p out r
        = { r with
            fCur := f, pPrev := phase f.toNat best fs.toNat, n := BitVec.ofNat 32 (best + 1)
            tr := .none, trK := 0#8 }

/-- R109, R117, R129: a sample of a sound oscillator lies within full scale, that of a saw or a
square within its peak; the envelope multiply never makes a value larger (R212). -/
def Obligations.SamplesWithinFullScale : Prop :=
  (∀ (P : Params) (kind : Waveform) (fs : Word) (i : BitVec 24) (o : Osc),
      (∀ p, |P.sinrom p| ≤ 2 ^ 23) → UnitOk i.toNat → OscInv kind fs i o →
        |(o.sample P fs).1| ≤ 8388607
          ∧ (kind ≠ .sine → |(o.sample P fs).1| ≤ (i.toNat * 8388607 / 2 ^ 23 : Nat)))
    ∧ ∀ (o : Int) (g : Nat), g ≤ 2 ^ 23 → |rshrSym (o * g) 23| ≤ |o|

/-! ### Envelope -/

/-- R142, R143, R146, R148: from note on in `IDLE` the gains are those of the attack, the decay and
the sustain level for ever, the attack's never fall; from note off the release's, then 0 and `IDLE`
for ever. -/
def Obligations.EnvelopeTimeline : Prop :=
  (∀ (e : Envelope) (i : BitVec 24), e.stage = .idle → UnitOk e.s.toNat → UnitOk i.toNat →
    ∃ e1, e.trigger true i = .ok e1
      ∧ (∀ k, (Envelope.advance^[k] e1).stage
            = (if k < e.na.toNat then .attack
               else if k < e.na.toNat + e.nd.toNat then .decay else .sustain)
          ∧ (Envelope.advance^[k] e1).gain
            = (if k < e.na.toNat then i.toNat * (k * 2 ^ 23 / e.na.toNat) / 2 ^ 23
               else if k < e.na.toNat + e.nd.toNat then
                 i.toNat * (2 ^ 23 - (k - e.na.toNat) * (2 ^ 23 - e.s.toNat) / e.nd.toNat) / 2 ^ 23
               else i.toNat * e.s.toNat / 2 ^ 23))
      ∧ ∀ j k, j ≤ k → k < e.na.toNat →
          (Envelope.advance^[j] e1).gain ≤ (Envelope.advance^[k] e1).gain)
    ∧ ∀ (e : Envelope) (i : BitVec 24), UnitOk e.s.toNat →
        (e.stage = .attack ∨ e.stage = .decay ∨ e.stage = .sustain) →
        ∃ e1, e.trigger false i = .ok e1
          ∧ ∀ k,
            (k < e.nr.toNat →
              (Envelope.advance^[k] e1).stage = .release
                ∧ (Envelope.advance^[k] e1).gain
                  = e.cap.toNat * (e.s.toNat - k * e.s.toNat / e.nr.toNat) / 2 ^ 23)
              ∧ (e.nr.toNat ≤ k →
                (Envelope.advance^[k] e1).stage = .idle
                  ∧ (Envelope.advance^[k] e1).factor = 0#24
                  ∧ (Envelope.advance^[k] e1).gain = 0)

/-! ### Filter -/

/-- R166, R176 (a): after an accepted update the active coefficients behind `k` samples are
`XFADE[k]` of the way to the designed ones, rounded down, and from the 256th on the designed ones
themselves. R173: every sample applies the difference equation with the coefficients that are active
behind it, so the `k`-th sample uses those of its own advance. -/
def Obligations.CrossfadeLandsOnDesign : Prop :=
  ∀ (P : Params) (fs fc q gain : Word) (F F1 G : Filter) (d : Coeffs) (xs : List Int),
    F.update P fs fc q gain = .ok F1 → P.design fc q gain fs = some d →
    G = (Filter.process P fs xs F1).2.1 →
      (0 < xs.length → xs.length < 256 →
          G.xfOn = true ∧ G.xfIdx.toNat = xs.length
            ∧ ∀ get ∈ [Coeffs.b0, Coeffs.b1, Coeffs.b2, Coeffs.a1, Coeffs.a2],
                (get G.cur).toInt = (get F.cur).toInt
                  + ((get d).toInt - (get F.cur).toInt)
                    * (P.xfade (BitVec.ofNat 8 xs.length)).toNat / 2 ^ 8)
        ∧ (256 ≤ xs.length → G.cur = d ∧ G.tgt = d ∧ G.xfOn = false ∧ G.xfIdx = 0#8)
        ∧ ∀ x, (G.sample P fs x).y
            = (({ G with cur := (G.sample P fs x).filt.cur } : Filter).biquad x).1

/-- R164 to R166, R176 (b): an accepted sweep goes through its segments, 256 samples each, the
cutoff moving by the delta at the start of each and standing on the target in the last; after them
the filter holds the target's design and nothing is in progress. No design on the way may fail.
R165: where the next segment's design fails, at the end of a segment, the sweep ends with the
finished target's coefficients in effect and the failed cutoff reported, and the event is raised
(log 11). -/
def Obligations.SweepLandsOnTarget : Prop :=
  (∀ (P : Params) (fs target total : Word) (F F1 G : Filter) (e err : Bool) (ys : List Int)
    (ovf : Bool) (xs : List Int),
    F.startSweep P fs target total = .ok (F1, e) →
    (∀ fc : Word, min F.fc.toNat target.toNat ≤ fc.toNat → fc.toNat ≤ max F.fc.toNat target.toNat →
      P.design fc F.q F.gain fs ≠ none) →
    Filter.process P fs xs F1 = (ys, G, ovf, err) →
      e = false ∧ err = false
        ∧ (xs.length < total.toNat / 256 * 256 →
          G.swOn = true ∧ G.xfOn = true ∧ G.xfIdx.toNat = xs.length % 256
            ∧ G.swRem.toNat = total.toNat / 256 - 1 - xs.length / 256
            ∧ (G.fc.toNat : Int)
              = if xs.length / 256 + 1 = total.toNat / 256 then (target.toNat : Int)
                else F.fc.toNat + (xs.length / 256 + 1 : Nat)
                  * Int.tdiv ((target.toNat : Int) - F.fc.toNat) (total.toNat / 256 : Nat))
        ∧ (total.toNat / 256 * 256 ≤ xs.length →
          G.swOn = false ∧ G.xfOn = false ∧ G.fc = target
            ∧ P.design target F.q F.gain fs = some G.cur))
    ∧ ∀ (P : Params) (fs fc : Word) (F : Filter) (x : Int),
        F.xfOn = true → F.xfIdx = 255#8 → F.swOn = true → F.swRem ≠ 0#32 →
        (fc.toNat : Int)
          = (if F.swRem = 1#32 then (F.swTarget.toNat : Int) else F.fc.toNat + F.swDelta.toInt) →
        P.design fc F.q F.gain fs = none →
          F.advance P fs
              = ({ F with
                    cur := F.tgt, fc := fc, swOn := false, xfOn := false, xfIdx := 0#8
                    swRem := 0#32 }, true)
            ∧ (F.sample P fs x).designErr = true ∧ (F.sample P fs x).filt.cur = F.tgt
            ∧ (F.sample P fs x).y = (({ F with cur := F.tgt } : Filter).biquad x).1

/-- R172, R173: with coefficients bounded as R161 (c) says and inputs within 2^23 the accumulator
holds the exact sum of the five products. The difference equation rounds the accumulator by 28 bits,
wraps the result to 32 bits, flags exactly the results that do not fit, and moves both delay lines;
it changes nothing else. A filter sample is the crossfade advance, where one runs, and then the
difference equation with the coefficients it leaves. R174: a buffer is filtered sample by sample, in
order. -/
def Obligations.BiquadSample : Prop :=
  (∀ (F : Filter) (x : Int), |x| ≤ 2 ^ 23 → |F.x1.toInt| ≤ 2 ^ 23 → |F.x2.toInt| ≤ 2 ^ 23 →
    |F.cur.a1.toInt| ≤ 2 ^ 29 → |F.cur.a2.toInt| ≤ 2 ^ 28 →
      F.accumulate x
        = F.cur.b0.toInt * x + F.cur.b1.toInt * F.x1.toInt + F.cur.b2.toInt * F.x2.toInt
          - F.cur.a1.toInt * F.y1.toInt - F.cur.a2.toInt * F.y2.toInt)
    ∧ (∀ (F : Filter) (x y : Int), -2 ^ 31 ≤ x → x < 2 ^ 31 →
      y = rshrSym
          (wrapS 64
            (F.cur.b0.toInt * x + F.cur.b1.toInt * F.x1.toInt + F.cur.b2.toInt * F.x2.toInt
              - F.cur.a1.toInt * F.y1.toInt - F.cur.a2.toInt * F.y2.toInt)) 28 →
        ∃ F' : Filter,
          F.biquad x = (wrapS 32 y, F', decide (wrapS 32 y ≠ y))
            ∧ F' = { F with x1 := F'.x1, x2 := F.x1, y1 := F'.y1, y2 := F.y1 }
            ∧ F'.x1.toInt = x ∧ F'.y1.toInt = wrapS 32 y)
    ∧ (∀ (P : Params) (fs : Word) (F F1 F2 : Filter) (x y : Int) (err ovf : Bool),
        F.advance P fs = (F1, err) → F1.biquad x = (y, F2, ovf) →
          F.sample P fs x = { y := y, filt := F2, ovf := ovf, designErr := err }
            ∧ (F.xfOn = false → F1 = F ∧ err = false)
            ∧ F1.x1 = F.x1 ∧ F1.x2 = F.x2 ∧ F1.y1 = F.y1 ∧ F1.y2 = F.y2)
    ∧ ∀ (P : Params) (fs : Word) (F G : Filter) (x : Int) (xs ys : List Int) (ovf err : Bool),
        Filter.process P fs [] F = ([], F, false, false)
          ∧ (Filter.process P fs xs (F.sample P fs x).filt = (ys, G, ovf, err) →
            Filter.process P fs (x :: xs) F
              = ((F.sample P fs x).y :: ys, G, (F.sample P fs x).ovf || ovf,
                 (F.sample P fs x).designErr || err))

/-- R177: with a silent input a constant output `c` reproduces itself, without a wrap, exactly where
`|c| D` is at most 2^27, `D = 2^28 + a1 + a2` not negative. -/
def Obligations.RestStates : Prop :=
  ∀ (F : Filter), F.x1 = 0#32 → F.x2 = 0#32 → F.y1 = F.y2 →
    0 ≤ 2 ^ 28 + F.cur.a1.toInt + F.cur.a2.toInt →
      ((F.biquad 0).1 = F.y1.toInt ∧ (F.biquad 0).2.2 = false
        ↔ |F.y1.toInt| * (2 ^ 28 + F.cur.a1.toInt + F.cur.a2.toInt) ≤ 2 ^ 27)

/-! ### Tables and reference functions -/

/-- R44: `RATIO` holds the nearest UQ2.30 integers to the equal-tempered ratios. -/
def Obligations.RatioNearest : Prop :=
  ∀ (c : Coupling) (k r : Nat),
    (c, k, r) ∈ [(Coupling.minorThird, 3, 1276901417), (Coupling.majorThird, 4, 1352829926),
      (Coupling.fifth, 7, 1608794974), (Coupling.octave, 12, 2147483648)] →
      c.ratio = some r ∧ |(r : ℝ) - (2 : ℝ) ^ ((k : ℝ) / 12) * 2 ^ 30| ≤ 1 / 2

/-- R202: the coupled frequency is within one unit and a relative error of 2^-31 of the real
product. -/
def Obligations.CoupleAccuracy : Prop :=
  ∀ (c : Coupling) (k : Nat) (f : Word),
    (c, k) ∈ [(Coupling.minorThird, 3), (Coupling.majorThird, 4), (Coupling.fifth, 7),
      (Coupling.octave, 12)] →
      ∃ n, coupled c f = some n
        ∧ |(n : ℝ) - f.toNat * (2 : ℝ) ^ ((k : ℝ) / 12)|
          ≤ 1 + f.toNat * (2 : ℝ) ^ ((k : ℝ) / 12) / 2 ^ 31

/-- R43, R4, R47 in the model's choice (log 2): the machine's crossfade table is the linear default,
so it never falls, and its largest frame has 65536 samples. -/
def Obligations.DefaultParameters : Prop :=
  (∀ i : BitVec 8, chip.xfade i = i)
    ∧ (∀ i j : BitVec 8, i ≤ j → chip.xfade i ≤ chip.xfade j)
    ∧ chip.frameMax = 65536

/-- R42 (a) to (d): bounds, the four quarter-turn values, odd symmetry and sign of the machine's
`SINROM`. -/
def Obligations.SinromProperties : Prop :=
  (∀ p : Word, -2 ^ 23 ≤ chip.sinrom p ∧ chip.sinrom p ≤ 2 ^ 23)
    ∧ chip.sinrom 0#32 = 0 ∧ chip.sinrom 0x40000000#32 = 2 ^ 23
    ∧ chip.sinrom 0x80000000#32 = 0 ∧ chip.sinrom 0xC0000000#32 = -2 ^ 23
    ∧ (∀ p : Word, chip.sinrom (-p) = -chip.sinrom p
        ∧ chip.sinrom (p + 0x80000000#32) = -chip.sinrom p)
    ∧ ∀ p : Word, (p.toNat ≤ 2 ^ 31 → 0 ≤ chip.sinrom p)
        ∧ (2 ^ 31 ≤ p.toNat → chip.sinrom p ≤ 0)

/-- R14: the machine's `SINROM` is the real sine, rounded to an integer up to a slack of 2^-20 (the
model computes it in fixed point, log 3). -/
def Obligations.SinromIsSine : Prop :=
  ∀ p : Word,
    |(chip.sinrom p : ℝ) - 2 ^ 23 * Real.sin (2 * Real.pi * p.toNat / 2 ^ 32)|
      ≤ 1 / 2 + 1 / 2 ^ 20

/-- R161 (b), (c), (e), (f): what the machine's `DESIGN` satisfies where it succeeds, and where it
fails: for arguments in range it succeeds where all five coefficients of R15 fit an s32 and fails
where one does not, up to a slack of 2^-9 at the edge (the model computes them in fixed point, log
3). -/
def Obligations.DesignProperties : Prop :=
  ∀ fc q gain fs : Word,
    (q = 0#32 ∨ fs = 0#32 ∨ fc = 0#32 ∨ fs.toNat * 2 ^ 15 ≤ fc.toNat →
        chip.design fc q gain fs = none)
      ∧ (∀ d, chip.design fc q gain fs = some d →
        d.b2 = d.b0 ∧ |d.b1.toInt - 2 * d.b0.toInt| ≤ 1 ∧ 0 ≤ d.b0.toInt
          ∧ |d.a1.toInt| ≤ 2 ^ 29 ∧ |d.a2.toInt| ≤ 2 ^ 28
          ∧ (gain = 0#32 → d.b0 = 0#32 ∧ d.b1 = 0#32 ∧ d.b2 = 0#32))
      ∧ (q ≠ 0#32 → FreqOk fc.toNat fs.toNat → gain.toNat ≤ 4 * 2 ^ 16 - 1 →
        chip.design fc q gain fs ≠ none)
      ∧ ∀ k norm b0 a1 a2 : ℝ, q ≠ 0#32 → FreqOk fc.toNat fs.toNat →
        k = Real.tan (Real.pi * (fc.toNat / 2 ^ 16) / fs.toNat) →
        norm = 1 / (1 + k / (q.toNat / 2 ^ 16) + k * k) →
        b0 = gain.toNat / 2 ^ 16 * k * k * norm →
        a1 = 2 * (k * k - 1) * norm →
        a2 = (1 - k / (q.toNat / 2 ^ 16) + k * k) * norm →
          ((∀ x ∈ [b0, 2 * b0, b0, a1, a2],
              -2 ^ 31 - 1 / 2 + 1 / 2 ^ 9 ≤ x * 2 ^ 28 ∧ x * 2 ^ 28 ≤ 2 ^ 31 - 1 / 2 - 1 / 2 ^ 9) →
            chip.design fc q gain fs ≠ none)
          ∧ ((∃ x ∈ [b0, 2 * b0, b0, a1, a2],
              x * 2 ^ 28 ≤ -2 ^ 31 - 1 / 2 - 1 / 2 ^ 9 ∨ 2 ^ 31 - 1 / 2 + 1 / 2 ^ 9 ≤ x * 2 ^ 28) →
            chip.design fc q gain fs = none)

/-- R15: the coefficients of the machine's `DESIGN` are those of the real formulas, rounded to
integers up to a slack of 2^-10 (the model computes them in fixed point, log 3). -/
def Obligations.DesignIsBilinearLowPass : Prop :=
  ∀ (fc q gain fs : Word) (d : Coeffs) (k norm b0 a1 a2 : ℝ),
    chip.design fc q gain fs = some d →
    k = Real.tan (Real.pi * (fc.toNat / 2 ^ 16) / fs.toNat) →
    norm = 1 / (1 + k / (q.toNat / 2 ^ 16) + k * k) →
    b0 = gain.toNat / 2 ^ 16 * k * k * norm →
    a1 = 2 * (k * k - 1) * norm →
    a2 = (1 - k / (q.toNat / 2 ^ 16) + k * k) * norm →
      |(d.b0.toInt : ℝ) - b0 * 2 ^ 28| ≤ 1 / 2 + 1 / 2 ^ 10
        ∧ |(d.b1.toInt : ℝ) - 2 * b0 * 2 ^ 28| ≤ 1 / 2 + 1 / 2 ^ 10
        ∧ |(d.b2.toInt : ℝ) - b0 * 2 ^ 28| ≤ 1 / 2 + 1 / 2 ^ 10
        ∧ |(d.a1.toInt : ℝ) - a1 * 2 ^ 28| ≤ 1 / 2 + 1 / 2 ^ 10
        ∧ |(d.a2.toInt : ℝ) - a2 * 2 ^ 28| ≤ 1 / 2 + 1 / 2 ^ 10

/-! ### Whole-machine rules -/

/-- R32, R176 (c): every step from a sound state answers a next state, and it is sound. That a step
answers a next state on an empty or partial stream is the model's choice (log 4, where U9 says
stuck); elsewhere it is the model's reading of R61, R66 and R243 (log 8, DEDUCED). At any parameters
whose `DESIGN` fails outside (0, fs/2) (R4, R161 (b)) the same holds of the step there. -/
def Obligations.StepKeepsInvariant : Prop :=
  (∀ s : State, s.Inv → ∃ t, step s = .next t ∧ t.Inv)
    ∧ ∀ (P : Params) (s : State), DesignRange P → s.InvAt P →
        ∃ t, stepWith P s = .next t ∧ t.InvAt P

/-- R33, R261: the state after reset is sound, and its `STATUS` reads 0. -/
def Obligations.ResetSound : Prop :=
  State.reset.Inv ∧ State.reset.statusView = 0#32

/-- R21: the configuration registers are written only by a successful CONFIG and by reset. -/
def Obligations.ConfigurationReadOnly : Prop :=
  ∀ (s t : State) (v : Voice), s.voice = some v → step s = .next t →
    (∃ w, t.voice = some w ∧ w.cfg = v.cfg ∧ w.env.na = v.env.na ∧ w.env.nd = v.env.nd
        ∧ w.env.nr = v.env.nr ∧ w.env.s = v.env.s)
      ∨ (∃ rest, decode s.cmd = .command .reset rest ∧ t.voice = none)
      ∨ ∃ fs n k c x f fc q g a d su r rest,
          decode s.cmd = .command (.config fs n k c x f fc q g a d su r) rest
            ∧ t.resp = s.resp ++ [0#32]

/-- R48: a word is four bytes, the least significant first in the little-endian order and last in
the other; the default is little-endian (log 9). The bytes of words, in either byte order, give the
words back, and an unfinished word is kept. -/
def Obligations.ByteTransport : Prop :=
  (∀ w : Word,
      (bytesOfWord .little w).map BitVec.toNat
          = [w.toNat % 2 ^ 8, w.toNat / 2 ^ 8 % 2 ^ 8, w.toNat / 2 ^ 16 % 2 ^ 8, w.toNat / 2 ^ 24]
        ∧ bytesOfWord .big w = (bytesOfWord .little w).reverse)
    ∧ Config.byteOrder = .little
    ∧ ∀ (order : ByteOrder) (ws : List Word) (left : List Byte), left.length < 4 →
    wordsOfBytes order (ws.flatMap (bytesOfWord order) ++ left) = (ws, left)
end

