-- ==== Sys2Proof/Laws/Config.lean ====
section
/-!
SUPPORT. The named constants as numerals.
-/

namespace Sys2Proof

@[simp] theorem Config.one_val : Config.one = 8388608 := rfl

@[simp] theorem Config.fsc_val : Config.fsc = 8388607 := rfl

@[simp] theorem Config.xfLen_val : Config.xfLen = 256 := rfl

@[simp] theorem Config.ftLen_val : Config.ftLen = 256 := rfl

@[simp] theorem Config.irLen_val : Config.irLen = 1000 := rfl

end Sys2Proof
end

