-- ==== Sys2Proof/Laws/Decode.lean ====
section
/-!
SUPPORT. The fields of a header word and the cases of the decoder.
-/

namespace Sys2Proof

@[simp] theorem opField_header (op sel : BitVec 8) (arg : BitVec 16) :
    opField (header op sel arg) = op := by
  apply BitVec.eq_of_getLsbD_eq
  intro i hi
  simp only [opField, header, BitVec.getLsbD_extractLsb', BitVec.getLsbD_append]
  simp only [hi, decide_true, Bool.true_and]
  split
  · omega
  · split
    · omega
    · congr 1
      omega

@[simp] theorem selField_header (op sel : BitVec 8) (arg : BitVec 16) :
    selField (header op sel arg) = sel := by
  apply BitVec.eq_of_getLsbD_eq
  intro i hi
  simp only [selField, header, BitVec.getLsbD_extractLsb', BitVec.getLsbD_append]
  simp only [hi, decide_true, Bool.true_and]
  split
  · omega
  · split
    · congr 1
      omega
    · omega

@[simp] theorem argField_header (op sel : BitVec 8) (arg : BitVec 16) :
    argField (header op sel arg) = arg := by
  apply BitVec.eq_of_getLsbD_eq
  intro i hi
  simp only [argField, header, BitVec.getLsbD_extractLsb', BitVec.getLsbD_append]
  simp only [hi, decide_true, Bool.true_and]
  split
  · congr 1
    omega
  · omega

/-- A header word is its three fields. -/
theorem header_fields (h : Word) : header (opField h) (selField h) (argField h) = h := by
  apply BitVec.eq_of_getLsbD_eq
  intro i hi
  simp only [header, opField, selField, argField, BitVec.getLsbD_append,
    BitVec.getLsbD_extractLsb']
  split
  · simp [*]
  · split
    · simp only [show i - 16 < 8 by omega, decide_true, Bool.true_and]
      congr 1
      omega
    · simp only [show i - 16 - 8 < 8 by omega, decide_true, Bool.true_and]
      congr 1
      omega

/-- The decoder on a header outside the opcode map. -/
theorem decode_unknown {h : Word} (tail : List Word) (hk : operandCount (opField h) = none) :
    decode (h :: tail) = .unknownOpcode tail := by
  simp [decode, hk]

/-- The decoder on a header whose operand words have not all arrived. -/
theorem decode_short {h : Word} {tail : List Word} {k : Nat}
    (hk : operandCount (opField h) = some k) (hl : tail.length < k) :
    decode (h :: tail) = .incomplete := by
  simp [decode, hk, hl]

/-- The decoder on a header with its operand words: the command, or a reserved field. -/
theorem decode_operands {h : Word} (ops rest : List Word)
    (hk : operandCount (opField h) = some ops.length) :
    decode (h :: (ops ++ rest)) =
      match commandOf h ops with
      | some i => .command i rest
      | none => .reservedField rest := by
  cases hc : commandOf h ops <;> simp [decode, hk, hc]

end Sys2Proof
end

