-- ==== Sys2Proof/Laws/Fixed.lean ====
section
/-!
SUPPORT. The primitives of `Machine/Fixed.lean` and `Machine/Operands.lean`: one lemma for what each
gives, and the register writes where the value fits.
-/

namespace Sys2Proof.Machine

/-- A value that fits an unsigned register is read back. -/
theorem toNat_ureg {n v : Nat} (h : v < 2 ^ n) : (ureg n v).toNat = v := by
  simp [ureg, BitVec.toNat_ofNat, Nat.mod_eq_of_lt h]

/-- A value that fits a signed register is read back. -/
theorem toInt_sreg {n : Nat} {v : Int} (h1 : -(2 ^ n : Nat) ≤ 2 * v) (h2 : 2 * v < (2 ^ n : Nat)) :
    (sreg n v).toInt = v := by
  rw [sreg, BitVec.toInt_ofInt]
  exact Int.bmod_eq_of_le_mul_two (by omega) (by omega)

/-- A natural that fits an unsigned register, written as an integer, is read back. -/
theorem toNat_sreg {n : Nat} {v : Int} (h1 : 0 ≤ v) (h2 : v < (2 ^ n : Nat)) :
    ((sreg n v).toNat : Int) = v := by
  rw [sreg, BitVec.toNat_ofInt, Int.toNat_of_nonneg (Int.emod_nonneg _ (by positivity))]
  exact Int.emod_eq_of_lt h1 (by exact_mod_cast h2)

/-- The signed reading of the all-zero word. -/
theorem toInt_zero32 : (0#32).toInt = 0 := rfl

/-- `asr` is the floor: the quotient times the power does not exceed the value. -/
theorem asr_mul_le (v : Int) (k : Nat) : asr v k * 2 ^ k ≤ v :=
  Int.ediv_mul_le v (by positivity)

/-- `asr` is the floor: the next quotient exceeds the value. -/
theorem lt_asr_succ_mul (v : Int) (k : Nat) : v < (asr v k + 1) * 2 ^ k :=
  Int.lt_ediv_add_one_mul_self v (by positivity)

/-- `asr` is monotone. -/
theorem asr_le_asr {v w : Int} (k : Nat) (h : v ≤ w) : asr v k ≤ asr w k :=
  Int.ediv_le_ediv (by positivity) h

/-- `rshr_sym` of a value that is not negative. -/
theorem rshrSym_of_nonneg {v : Int} (h : 0 ≤ v) (k : Nat) :
    rshrSym v k = asr (v + 2 ^ (k - 1)) k := if_pos h

/-- `rshr_sym` of a negative value. -/
theorem rshrSym_of_neg {v : Int} (h : v < 0) (k : Nat) :
    rshrSym v k = -asr (-v + 2 ^ (k - 1)) k := if_neg (by omega)

/-- A product of a magnitude `m` and a factor of at most 2^k, shifted back, is at most `m`. -/
theorem rshrSym_le {v m : Int} {k : Nat} (hk : 1 ≤ k) (hm : 0 ≤ m) (h1 : -(m * 2 ^ k) ≤ v)
    (h2 : v ≤ m * 2 ^ k) : -m ≤ rshrSym v k ∧ rshrSym v k ≤ m := by
  have hp : (0 : Int) < 2 ^ k := by positivity
  have hh : (2 : Int) ^ (k - 1) < 2 ^ k := by
    exact_mod_cast Nat.pow_lt_pow_right (by omega) (by omega)
  have hh0 : (0 : Int) < 2 ^ (k - 1) := by positivity
  have key : ∀ w : Int, 0 ≤ w → w ≤ m * 2 ^ k →
      0 ≤ asr (w + 2 ^ (k - 1)) k ∧ asr (w + 2 ^ (k - 1)) k ≤ m := by
    intro w hw0 hw
    refine ⟨Int.ediv_nonneg (by omega) hp.le, ?_⟩
    have : asr (w + 2 ^ (k - 1)) k < m + 1 := by
      apply Int.ediv_lt_of_lt_mul hp
      rw [add_mul, one_mul]
      omega
    omega
  by_cases hv : 0 ≤ v
  · rw [rshrSym_of_nonneg hv]
    have := key v hv h2
    omega
  · rw [rshrSym_of_neg (by omega)]
    have := key (-v) (by omega) (by omega)
    omega

/-- `sat_fs` stays within full scale. -/
theorem satFs_bounds (v : Int) : -(Config.fsc : Int) ≤ satFs v ∧ satFs v ≤ Config.fsc := by
  have h : (Config.fsc : Int) = 8388607 := rfl
  unfold satFs
  split_ifs <;> omega

/-- `tdiv` never passes the dividend: times the divisor it stays between 0 and it. -/
theorem tdiv_mul {a b : Int} (hb : 0 < b) :
    (0 ≤ tdiv a b ∧ tdiv a b * b ≤ a) ∨ (tdiv a b ≤ 0 ∧ a ≤ tdiv a b * b) := by
  unfold tdiv
  split
  · rename_i h
    exact .inl ⟨Int.ediv_nonneg h hb.le, Int.ediv_mul_le a hb.ne'⟩
  · rename_i h
    refine .inr ⟨?_, ?_⟩
    · have := Int.ediv_nonneg (a := -a) (b := b) (by omega) hb.le
      omega
    · have := Int.ediv_mul_le (-a) hb.ne'
      rw [neg_mul]
      omega

/-- `amp_of` of a legal intensity is at most full scale and fits its 23-bit register. -/
theorem ampOf_le {i : Nat} (h : UnitOk i) : ampOf i ≤ Config.fsc := by
  unfold ampOf
  simp only [UnitOk, Config.one_val, Config.fsc_val] at *
  omega

/-- The amplitude register reads back the amplitude. -/
theorem toNat_ampOf {i : Nat} (h : UnitOk i) : (ureg 23 (ampOf i)).toNat = ampOf i := by
  have := ampOf_le h
  simp only [Config.fsc_val] at this
  exact toNat_ureg (by omega)

/-- A free word kept in its limit is not 0. -/
theorem one_le_atLeastOne (w : Word) : 1 ≤ (atLeastOne w).toNat := by
  unfold atLeastOne
  split
  · decide
  · rename_i h
    have : w.toNat ≠ 0 := fun h0 => h (BitVec.eq_of_toNat_eq h0)
    omega

/-- R202: the coupled word is in range whenever the coupled frequency is. -/
theorem freqOk_coupledWord {c : Coupling} {f : Word} {f2 : Nat} {fs : Nat} (h : FreqOk f2 fs) :
    FreqOk (coupledWord c f f2).toNat fs := by
  unfold coupledWord
  split
  · rename_i hf
    rwa [toNat_ureg hf]
  · rename_i hf
    have h1 := one_le_atLeastOne (Config.coupledOverflow c.code f.toNat)
    have h2 := (atLeastOne (Config.coupledOverflow c.code f.toNat)).isLt
    simp only [FreqOk] at *
    omega

end Sys2Proof.Machine
end

