-- ==== Sys2Proof/Laws/Envelope.lean ====
section
/-!
SUPPORT. The envelope: what entering a stage, a trigger and a sample can do, and that each keeps the
envelope sound (`EnvInv` of `Safety.lean`).
-/

namespace Sys2Proof.Machine

/-! ### The factor of a stage -/

/-- R142: a factor is a UQ1.23 value; the attack's index must not pass its length. -/
theorem Envelope.fac_le {e : Envelope} (hs : UnitOk e.s.toNat) {stage : Stage} {k : Nat}
    (hk : stage = .attack → k ≤ e.na.toNat) : UnitOk (e.fac stage k) := by
  simp only [UnitOk, Config.one_val] at *
  cases stage with
  | idle => simp [Envelope.fac]
  | attack =>
    simp only [Envelope.fac, Config.one_val]
    exact Nat.div_le_of_le_mul (by nlinarith [hk rfl])
  | decay =>
    simp only [Envelope.fac, Config.one_val]
    exact Nat.sub_le _ _
  | sustain => exact hs
  | release =>
    simp only [Envelope.fac]
    exact (Nat.sub_le _ _).trans hs

theorem Envelope.toNat_fac {e : Envelope} (hs : UnitOk e.s.toNat) {stage : Stage} {k : Nat}
    (hk : stage = .attack → k ≤ e.na.toNat) :
    (ureg 24 (e.fac stage k)).toNat = e.fac stage k := by
  have h := Envelope.fac_le hs hk
  simp only [UnitOk, Config.one_val] at h
  exact toNat_ureg (by omega)

/-! ### Entering a stage -/

@[simp] theorem Envelope.enter_na (e : Envelope) (st : Stage) : (e.enter st).na = e.na := rfl

@[simp] theorem Envelope.enter_nd (e : Envelope) (st : Stage) : (e.enter st).nd = e.nd := rfl

@[simp] theorem Envelope.enter_nr (e : Envelope) (st : Stage) : (e.enter st).nr = e.nr := rfl

@[simp] theorem Envelope.enter_s (e : Envelope) (st : Stage) : (e.enter st).s = e.s := rfl

@[simp] theorem Envelope.enter_cap (e : Envelope) (st : Stage) : (e.enter st).cap = e.cap := rfl

@[simp] theorem Envelope.enter_stage (e : Envelope) (st : Stage) :
    (e.enter st).stage = e.landing st := rfl

@[simp] theorem Envelope.enter_idx (e : Envelope) (st : Stage) : (e.enter st).idx = 0#32 := rfl

@[simp] theorem Envelope.enter_factor (e : Envelope) (st : Stage) :
    (e.enter st).factor = ureg 24 (e.fac (e.landing st) 0) := rfl

@[simp] theorem Envelope.enter_fac (e : Envelope) (st st' : Stage) (k : Nat) :
    (e.enter st).fac st' k = e.fac st' k := by
  cases st' <;> rfl

/-- R143: the stage landed in has a table that is not empty. -/
theorem Envelope.landing_nonempty (e : Envelope) (st : Stage) :
    (e.landing st = .attack → e.na ≠ 0#32) ∧ (e.landing st = .decay → e.nd ≠ 0#32)
      ∧ (e.landing st = .release → e.nr ≠ 0#32) := by
  cases st <;> simp only [Envelope.landing] <;> split_ifs <;> simp_all

theorem zero_lt_of_ne {w : Word} (h : w ≠ 0#32) : 0#32 < w := by
  have : w.toNat ≠ 0 := fun h0 => h (BitVec.eq_of_toNat_eq h0)
  show (0#32).toNat < w.toNat
  simp only [BitVec.toNat_ofNat, Nat.zero_mod]
  omega

theorem Envelope.enter_inv {e : Envelope} (hs : UnitOk e.s.toNat) (hc : UnitOk e.cap.toNat)
    (st : Stage) : EnvInv (e.enter st) := by
  obtain ⟨ha, hd, hr⟩ := e.landing_nonempty st
  have hf := e.toNat_fac hs (stage := e.landing st) (k := 0) (fun _ => Nat.zero_le _)
  refine ⟨hs, hc, ?_, fun _ => rfl, ?_, ?_⟩
  · intro len next h
    simp only [Envelope.segment, Envelope.enter_stage] at h
    rw [Envelope.enter_idx]
    cases hl : e.landing st <;> rw [hl] at h <;> simp at h <;> obtain ⟨rfl, -⟩ := h
    · exact zero_lt_of_ne (ha hl)
    · exact zero_lt_of_ne (hd hl)
    · exact zero_lt_of_ne (hr hl)
  · rw [Envelope.enter_factor, hf, Envelope.enter_fac]
    rfl
  · rw [Envelope.enter_factor, hf]
    exact Envelope.fac_le hs fun _ => Nat.zero_le _

/-! ### Construction, trigger and sample -/

theorem envInit_inv {fs attackMs decayMs sustain releaseMs : Word} (hs : UnitOk sustain.toNat) :
    EnvInv (envInit fs attackMs decayMs sustain releaseMs) := by
  have h : (ureg 24 sustain.toNat).toNat = sustain.toNat := by
    simp only [UnitOk, Config.one_val] at hs
    exact toNat_ureg (by omega)
  have h0 : UnitOk (0#24).toNat := Nat.zero_le _
  refine ⟨?_, h0, ?_, fun _ => rfl, rfl, h0⟩
  · show UnitOk (ureg 24 sustain.toNat).toNat
    rw [h]
    exact hs
  · intro len next hl
    simp [envInit, Envelope.segment] at hl

theorem Envelope.noteOn_inv {e e' : Envelope} {i : BitVec 24} (h : EnvInv e)
    (hi : UnitOk i.toNat) (hn : e.noteOn i = .ok e') : EnvInv e' := by
  unfold Envelope.noteOn at hn
  split at hn <;> cases hn
  · exact Envelope.enter_inv (e := { e with cap := i }) h.s_ok hi .attack
  · exact h

theorem Envelope.noteOff_inv {e : Envelope} (h : EnvInv e) : EnvInv e.noteOff := by
  unfold Envelope.noteOff
  split
  · exact h
  · exact h
  all_goals exact Envelope.enter_inv h.s_ok h.cap_ok .release

theorem Envelope.trigger_inv {e e' : Envelope} {on : Bool} {i : BitVec 24} (h : EnvInv e)
    (hi : UnitOk i.toNat) (ht : e.trigger on i = .ok e') : EnvInv e' := by
  cases on
  · cases ht
    exact Envelope.noteOff_inv h
  · exact Envelope.noteOn_inv h hi ht

/-- R146, inverted: nothing advances, a stage is entered, or the index moves on by one. -/
theorem Envelope.advance_cases (e : Envelope) :
    (e.segment = none ∧ e.advance = e)
      ∨ ∃ len next, e.segment = some (len, next)
        ∧ ((len.toNat ≤ e.idx.toNat + 1 ∧ e.advance = e.enter next)
          ∨ (e.idx.toNat + 1 < len.toNat
            ∧ e.advance = { e with
                idx := ureg 32 (e.idx.toNat + 1)
                factor := ureg 24 (e.fac e.stage (e.idx.toNat + 1)) })) := by
  unfold Envelope.advance
  cases hs : e.segment with
  | none => exact .inl ⟨rfl, rfl⟩
  | some p =>
    obtain ⟨len, next⟩ := p
    refine .inr ⟨len, next, rfl, ?_⟩
    by_cases hl : e.idx.toNat + 1 ≥ len.toNat
    · exact .inl ⟨hl, if_pos hl⟩
    · exact .inr ⟨by omega, if_neg hl⟩

theorem Envelope.advance_inv {e : Envelope} (h : EnvInv e) : EnvInv e.advance := by
  rcases e.advance_cases with ⟨_, ha⟩ | ⟨len, next, hseg, ⟨_, ha⟩ | ⟨hl, ha⟩⟩
  · rw [ha]
    exact h
  · rw [ha]
    exact Envelope.enter_inv h.s_ok h.cap_ok next
  · rw [ha]
    have hlt := len.isLt
    have hidx : (ureg 32 (e.idx.toNat + 1)).toNat = e.idx.toNat + 1 := toNat_ureg (by omega)
    have hk : e.stage = .attack → e.idx.toNat + 1 ≤ e.na.toNat := by
      intro hst
      simp only [Envelope.segment, hst, Option.some.injEq, Prod.mk.injEq] at hseg
      rw [hseg.1]
      omega
    have hfac : ∀ k, Envelope.fac
        { e with
          idx := ureg 32 (e.idx.toNat + 1)
          factor := ureg 24 (e.fac e.stage (e.idx.toNat + 1)) } e.stage k
        = e.fac e.stage k := by
      intro k
      cases e.stage <;> rfl
    have hf := e.toNat_fac h.s_ok hk
    refine ⟨h.s_ok, h.cap_ok, ?_, ?_, ?_, ?_⟩
    · intro len' next' hseg'
      have hseg2 : e.segment = some (len', next') := hseg'
      rw [hseg] at hseg2
      cases hseg2
      show (ureg 32 (e.idx.toNat + 1)).toNat < len.toNat
      omega
    · intro hn
      have hn2 : e.segment = none := hn
      rw [hseg] at hn2
      cases hn2
    · show (ureg 24 _).toNat = _
      rw [hf, hidx, hfac]
    · show UnitOk (ureg 24 _).toNat
      rw [hf]
      exact Envelope.fac_le h.s_ok hk

/-- The advance keeps the segment lengths, the sustain factor and the captured intensity. -/
theorem Envelope.advance_frame (e : Envelope) :
    e.advance.na = e.na ∧ e.advance.nd = e.nd ∧ e.advance.nr = e.nr ∧ e.advance.s = e.s
      ∧ e.advance.cap = e.cap := by
  rcases e.advance_cases with ⟨_, ha⟩ | ⟨len, next, _, ⟨_, ha⟩ | ⟨_, ha⟩⟩ <;> rw [ha] <;> simp

/-- R146: a gain is at most `ONE`. -/
theorem Envelope.gain_le {e : Envelope} (hc : UnitOk e.cap.toNat) (hf : UnitOk e.factor.toNat) :
    UnitOk e.gain := by
  simp only [UnitOk, Config.one_val, Envelope.gain] at *
  apply Nat.div_le_of_le_mul
  nlinarith

end Sys2Proof.Machine
end

