-- ==== Sys2Proof/Laws/Filter.lean ====
section
/-!
SUPPORT. The filter: what an update, a sweep segment, a crossfade step and the difference equation
can do, and that each keeps the filter sound (`FilterInv` of `Safety.lean`). The target coefficients
are those designed for the reported cutoff (`Filter.Designed`) unless a segment's design failed.
-/

namespace Sys2Proof.Machine

/-- The target coefficients are those that `DESIGN` gives for the cutoff, the quality factor and the
gain the filter reports. -/
def Filter.Designed (P : Params) (fs : Word) (F : Filter) : Prop :=
  P.design F.fc F.q F.gain fs = some F.tgt

/-! ### Construction and discrete update -/

theorem filterInit_inv {fs fc q gain : Word} {d : Coeffs} (hf : FreqOk fc.toNat fs.toNat) :
    FilterInv fs (filterInit d fc q gain) :=
  ⟨hf, fun h => by simp [filterInit] at h, fun h => by simp [filterInit] at h,
    fun h => by simp [filterInit] at h, fun h => by simp [filterInit] at h, fun _ => rfl,
    fun _ => rfl⟩

theorem filterInit_designed {P : Params} {fs fc q gain : Word} {d : Coeffs}
    (hd : P.design fc q gain fs = some d) : (filterInit d fc q gain).Designed P fs := hd

/-- R163, inverted: the design succeeded, no sweep was running, and a crossfade to it starts. -/
theorem Filter.update_ok {P : Params} {fs fc q gain : Word} {F F' : Filter}
    (h : F.update P fs fc q gain = .ok F') :
    ∃ d, P.design fc q gain fs = some d ∧ F.swOn = false
      ∧ F' = Filter.fadeTo d { F with fc := fc, q := q, gain := gain } := by
  unfold Filter.update at h
  cases hd : P.design fc q gain fs with
  | none =>
    rw [hd] at h
    cases h
  | some d =>
    rw [hd] at h
    dsimp only at h
    split at h
    · cases h
    · rename_i hs
      cases h
      exact ⟨d, rfl, by simpa using hs, rfl⟩

theorem Filter.update_inv {P : Params} {fs fc q gain : Word} {F F' : Filter}
    (hf : FreqOk fc.toNat fs.toNat) (h : F.update P fs fc q gain = .ok F') :
    FilterInv fs F' ∧ F'.Designed P fs := by
  obtain ⟨d, hd, hs, rfl⟩ := Filter.update_ok h
  refine ⟨⟨hf, fun _ => rfl, ?_, ?_, ?_, ?_, ?_⟩, hd⟩
  all_goals intro hx
  · exact absurd (show F.swOn = true from hx) (by simp [hs])
  · exact absurd (show F.swOn = true from hx) (by simp [hs])
  · exact absurd (show F.swOn = true from hx) (by simp [hs])
  · exact absurd hx (by simp [Filter.fadeTo])
  · exact absurd hx (by simp [Filter.fadeTo])

/-! ### Sweep -/

/-- R165: one segment, as an equation: the design fails and ends the sweep, or a crossfade to the
designed coefficients starts. -/
theorem Filter.nextSegment_cases (P : Params) (fs : Word) (F : Filter) :
    (P.design F.nextFc F.q F.gain fs = none
        ∧ F.nextSegment P fs
          = ({ F with fc := F.nextFc, swRem := 0#32, swOn := false, xfOn := false, xfIdx := 0#8 },
              true))
      ∨ ∃ d, P.design F.nextFc F.q F.gain fs = some d
        ∧ F.nextSegment P fs
          = (Filter.fadeTo d { F with fc := F.nextFc, swRem := F.swRem - 1#32 }, false) := by
  unfold Filter.nextSegment
  cases hd : P.design F.nextFc F.q F.gain fs with
  | none => exact .inl ⟨rfl, rfl⟩
  | some d => exact .inr ⟨d, rfl, rfl⟩

/-- R165: the cutoff of the next segment lies between the cutoff and the target. -/
theorem Filter.toNat_nextFc {F : Filter} (hb : sweepBound F) (hr : F.swRem ≠ 0#32)
    (h1 : F.swRem ≠ 1#32) :
    (F.nextFc.toNat : Int) = F.fc.toNat + F.swDelta.toInt
      ∧ min (F.fc.toNat : Int) F.swTarget.toNat ≤ F.fc.toNat + F.swDelta.toInt
      ∧ F.fc.toNat + F.swDelta.toInt ≤ max (F.fc.toNat : Int) F.swTarget.toNat := by
  have hr2 : 2 ≤ F.swRem.toNat := by
    have a : F.swRem.toNat ≠ 0 := fun h => hr (BitVec.eq_of_toNat_eq h)
    have b : F.swRem.toNat ≠ 1 := fun h => h1 (BitVec.eq_of_toNat_eq h)
    omega
  have hf := F.fc.isLt
  have ht := F.swTarget.isLt
  have key : min (F.fc.toNat : Int) F.swTarget.toNat ≤ F.fc.toNat + F.swDelta.toInt
      ∧ F.fc.toNat + F.swDelta.toInt ≤ max (F.fc.toNat : Int) F.swTarget.toNat := by
    rcases hb with ⟨h0, hd⟩ | ⟨h0, hd⟩
    · have : F.swDelta.toInt * 2 ≤ F.swDelta.toInt * F.swRem.toNat :=
        mul_le_mul_of_nonneg_left (by omega) h0
      omega
    · have : F.swDelta.toInt * F.swRem.toNat ≤ F.swDelta.toInt * 2 :=
        mul_le_mul_of_nonpos_left (by omega) h0
      omega
  refine ⟨?_, key⟩
  rw [Filter.nextFc, if_neg h1]
  exact toNat_sreg (n := 32) (by omega) (by omega)

theorem Filter.nextFc_ok {fs : Word} {F : Filter} (hf : FreqOk F.fc.toNat fs.toNat)
    (ht : FreqOk F.swTarget.toNat fs.toNat) (hb : sweepBound F) (hr : F.swRem ≠ 0#32) :
    FreqOk F.nextFc.toNat fs.toNat := by
  by_cases h1 : F.swRem = 1#32
  · rw [Filter.nextFc, if_pos h1]
    exact ht
  · obtain ⟨h, hl, hu⟩ := Filter.toNat_nextFc hb hr h1
    simp only [FreqOk] at *
    omega

theorem toNat_pred {w : Word} (h : w ≠ 0#32) : (w - 1#32).toNat = w.toNat - 1 := by
  have : w.toNat ≠ 0 := fun h0 => h (BitVec.eq_of_toNat_eq h0)
  bv_omega

/-- R165: a segment keeps the filter sound; with a failed design the sweep is over. -/
theorem Filter.nextSegment_inv {P : Params} {fs : Word} {F : Filter}
    (hf : FreqOk F.fc.toNat fs.toNat) (ht : FreqOk F.swTarget.toNat fs.toNat)
    (hb : sweepBound F) (hr : F.swRem ≠ 0#32) (hc : F.cur = F.tgt) :
    FilterInv fs (F.nextSegment P fs).1
      ∧ ((F.nextSegment P fs).2 = false → (F.nextSegment P fs).1.Designed P fs) := by
  have hn := Filter.nextFc_ok hf ht hb hr
  rcases F.nextSegment_cases P fs with ⟨_, h⟩ | ⟨d, hd, h⟩ <;> rw [h]
  · refine ⟨⟨hn, ?_, ?_, ?_, ?_, fun _ => rfl, fun _ => hc⟩, ?_⟩
    all_goals intro hx
    all_goals simp at hx
  · refine ⟨⟨hn, fun _ => rfl, fun _ => ht, fun _ => ?_, fun _ hz => ?_, ?_, ?_⟩, fun _ => hd⟩
    · have hp := toNat_pred hr
      have h0 : F.swRem.toNat ≠ 0 := fun h0 => hr (BitVec.eq_of_toNat_eq h0)
      simp only [sweepBound, Filter.fadeTo]
      rw [hp, Nat.cast_sub (by omega), mul_sub, Nat.cast_one, mul_one]
      by_cases h1 : F.swRem = 1#32
      · have e1 : F.swRem.toNat = 1 := by rw [h1]; rfl
        rw [Filter.nextFc, if_pos h1, e1]
        rcases hb with ⟨h0, hd⟩ | ⟨h0, hd⟩
        · exact .inl ⟨h0, by omega⟩
        · exact .inr ⟨h0, by omega⟩
      · obtain ⟨e, -, -⟩ := Filter.toNat_nextFc hb hr h1
        rw [e]
        rcases hb with ⟨h0, hd⟩ | ⟨h0, hd⟩
        · exact .inl ⟨h0, by omega⟩
        · exact .inr ⟨h0, by omega⟩
    · have h1 : F.swRem = 1#32 := by
        have hz' : F.swRem - 1#32 = 0#32 := hz
        exact BitVec.eq_of_toNat_eq (by
          have := toNat_pred hr
          rw [hz'] at this
          have h0 : F.swRem.toNat ≠ 0 := fun h0 => hr (BitVec.eq_of_toNat_eq h0)
          simp only [BitVec.toNat_ofNat, Nat.zero_mod] at this
          show _ = 1
          omega)
      show F.nextFc = F.swTarget
      rw [Filter.nextFc, if_pos h1]
    · intro hx
      simp [Filter.fadeTo] at hx
    · intro hx
      simp [Filter.fadeTo] at hx

/-- R164: the armed sweep registers are in bounds. -/
theorem Filter.armSweep_bound {F : Filter} {targetFc totalSamples : Word}
    (hn : 256 ≤ totalSamples.toNat) :
    sweepBound (F.armSweep targetFc totalSamples)
      ∧ (F.armSweep targetFc totalSamples).swRem ≠ 0#32 := by
  have hf := F.fc.isLt
  have ht := targetFc.isLt
  have htot := totalSamples.isLt
  have hsteps : 1 ≤ totalSamples.toNat / 256 := by omega
  have hrem : (ureg 32 (totalSamples.toNat / 256)).toNat = totalSamples.toNat / 256 :=
    toNat_ureg (by omega)
  have ht1 := tdiv_mul (a := (targetFc.toNat : Int) - F.fc.toNat)
    (b := (totalSamples.toNat / 256 : Nat)) (by omega)
  have hfit : (sreg 33 (tdiv ((targetFc.toNat : Int) - F.fc.toNat)
      (totalSamples.toNat / 256 : Nat))).toInt
        = tdiv ((targetFc.toNat : Int) - F.fc.toNat) (totalSamples.toNat / 256 : Nat) := by
    generalize tdiv ((targetFc.toNat : Int) - F.fc.toNat) (totalSamples.toNat / 256 : Nat) = d at *
    rcases ht1 with ⟨h0, h⟩ | ⟨h0, h⟩
    · have : d * 1 ≤ d * (totalSamples.toNat / 256 : Nat) :=
        mul_le_mul_of_nonneg_left (by omega) h0
      exact toInt_sreg (by omega) (by omega)
    · have : d * (totalSamples.toNat / 256 : Nat) ≤ d * 1 :=
        mul_le_mul_of_nonpos_left (by omega) h0
      exact toInt_sreg (by omega) (by omega)
  refine ⟨?_, ?_⟩
  · simp only [sweepBound, Filter.armSweep, Config.xfLen_val, hfit, hrem]
    exact ht1
  · intro hz
    have hz' : ureg 32 (totalSamples.toNat / 256) = 0#32 := hz
    rw [hz'] at hrem
    simp only [BitVec.toNat_ofNat, Nat.zero_mod] at hrem
    omega

/-- R164, inverted: the arguments were in range, nothing was in progress, and the first segment is
started on the armed registers. -/
theorem Filter.startSweep_ok {P : Params} {fs targetFc totalSamples : Word} {F F' : Filter}
    {e : Bool} (h : F.startSweep P fs targetFc totalSamples = .ok (F', e)) :
    256 ≤ totalSamples.toNat ∧ FreqOk targetFc.toNat fs.toNat ∧ F.swOn = false ∧ F.xfOn = false
      ∧ (F.armSweep targetFc totalSamples).nextSegment P fs = (F', e) := by
  unfold Filter.startSweep at h
  split at h
  · cases h
  · rename_i h1
    split at h
    · cases h
    · rename_i h2
      simp only [Config.xfLen_val, not_or, not_not, Nat.not_lt] at h1
      simp only [not_or, Bool.not_eq_true] at h2
      exact ⟨h1.1, h1.2, h2.1, h2.2, Except.ok.inj h⟩

theorem Filter.startSweep_inv {P : Params} {fs targetFc totalSamples : Word} {F F' : Filter}
    {e : Bool} (hi : FilterInv fs F) (h : F.startSweep P fs targetFc totalSamples = .ok (F', e)) :
    FilterInv fs F' ∧ (e = false → F'.Designed P fs) := by
  obtain ⟨hn, ht, _, hx, hs⟩ := Filter.startSweep_ok h
  obtain ⟨hb, hr⟩ := Filter.armSweep_bound (F := F) (targetFc := targetFc) hn
  have := Filter.nextSegment_inv (P := P) (fs := fs) (F := F.armSweep targetFc totalSamples)
    hi.fc_ok ht hb hr (hi.idle_cur hx)
  rwa [hs] at this

/-! ### Crossfade -/

/-- R166, as equations: a table step, the next segment of a sweep, or the end. -/
theorem Filter.fadeStep_cases (P : Params) (fs : Word) (F : Filter) :
    (F.xfIdx.toNat < 255
        ∧ F.fadeStep P fs
          = ({ F with
                xfIdx := F.xfIdx + 1#8
                cur := fade (P.xfade (F.xfIdx + 1#8)) F.start F.tgt }, false))
      ∨ (F.xfIdx.toNat = 255 ∧ F.swOn = true ∧ F.swRem ≠ 0#32
        ∧ F.fadeStep P fs = Filter.nextSegment P fs { F with cur := F.tgt, xfIdx := 0#8 })
      ∨ (F.xfIdx.toNat = 255 ∧ (F.swOn = false ∨ F.swRem = 0#32)
        ∧ F.fadeStep P fs
          = ({ F with cur := F.tgt, xfIdx := 0#8, xfOn := false, swOn := false }, false)) := by
  have hlt := F.xfIdx.isLt
  have hlen : Config.xfLen = 256 := rfl
  unfold Filter.fadeStep
  by_cases h : F.xfIdx.toNat + 1 < Config.xfLen
  · exact .inl ⟨by omega, if_pos h⟩
  · rw [if_neg h]
    by_cases hs : F.swOn ∧ F.swRem ≠ 0#32
    · exact .inr (.inl ⟨by omega, hs.1, hs.2, if_pos hs⟩)
    · refine .inr (.inr ⟨by omega, ?_, if_neg hs⟩)
      by_cases hw : F.swOn = true
      · exact .inr (by simpa [hw] using hs)
      · exact .inl (by simpa using hw)

theorem Filter.fadeStep_inv {P : Params} {fs : Word} {F : Filter} (hi : FilterInv fs F)
    (hx : F.xfOn = true) :
    FilterInv fs (F.fadeStep P fs).1
      ∧ (F.Designed P fs → (F.fadeStep P fs).2 = false → (F.fadeStep P fs).1.Designed P fs) := by
  rcases F.fadeStep_cases P fs with ⟨_, h⟩ | ⟨_, hs, hr, h⟩ | ⟨_, _, h⟩ <;> rw [h]
  · refine ⟨⟨hi.fc_ok, hi.sweep_fades, hi.target_ok, hi.sweep_bound, hi.sweep_end, ?_, ?_⟩,
      fun hd _ => hd⟩
    all_goals intro hf
    all_goals exact absurd (show F.xfOn = false from hf) (by simp [hx])
  · have := Filter.nextSegment_inv (P := P) (fs := fs)
      (F := { F with cur := F.tgt, xfIdx := 0#8 }) hi.fc_ok (hi.target_ok hs) (hi.sweep_bound hs)
      hr rfl
    exact ⟨this.1, fun _ => this.2⟩
  · refine ⟨⟨hi.fc_ok, ?_, ?_, ?_, ?_, fun _ => rfl, fun _ => rfl⟩, fun hd _ => hd⟩
    all_goals intro hf
    all_goals simp at hf

theorem Filter.advance_inv {P : Params} {fs : Word} {F : Filter} (hi : FilterInv fs F) :
    FilterInv fs (F.advance P fs).1
      ∧ (F.Designed P fs → (F.advance P fs).2 = false → (F.advance P fs).1.Designed P fs) := by
  unfold Filter.advance
  split
  · rename_i hx
    exact Filter.fadeStep_inv hi hx
  · exact ⟨hi, fun hd _ => hd⟩

/-! ### The difference equation -/

theorem Filter.biquad_inv {fs : Word} {F : Filter} (hi : FilterInv fs F) (x : Int) :
    FilterInv fs (F.biquad x).2.1 :=
  ⟨hi.fc_ok, hi.sweep_fades, hi.target_ok, hi.sweep_bound, hi.sweep_end, hi.idle_idx, hi.idle_cur⟩

/-- R173: a sample keeps the filter sound. -/
theorem Filter.sample_inv {P : Params} {fs : Word} {F : Filter} (hi : FilterInv fs F) (x : Int) :
    FilterInv fs (F.sample P fs x).filt
      ∧ (F.Designed P fs → (F.sample P fs x).designErr = false
        → (F.sample P fs x).filt.Designed P fs) := by
  have h := Filter.advance_inv (P := P) hi
  exact ⟨Filter.biquad_inv h.1 x, h.2⟩

/-- R35: a segment keeps the quality factor and the gain. -/
theorem Filter.nextSegment_frame (P : Params) (fs : Word) (F : Filter) :
    (F.nextSegment P fs).1.q = F.q ∧ (F.nextSegment P fs).1.gain = F.gain := by
  rcases F.nextSegment_cases P fs with ⟨_, h⟩ | ⟨d, _, h⟩ <;> rw [h] <;> exact ⟨rfl, rfl⟩

/-- R35: a sample keeps the quality factor and the gain. -/
theorem Filter.sample_frame (P : Params) (fs : Word) (F : Filter) (x : Int) :
    (F.sample P fs x).filt.q = F.q ∧ (F.sample P fs x).filt.gain = F.gain := by
  have h : (F.advance P fs).1.q = F.q ∧ (F.advance P fs).1.gain = F.gain := by
    unfold Filter.advance
    split
    · rcases F.fadeStep_cases P fs with ⟨_, h⟩ | ⟨_, _, _, h⟩ | ⟨_, _, h⟩ <;> rw [h]
      · exact ⟨rfl, rfl⟩
      · exact Filter.nextSegment_frame P fs _
      · exact ⟨rfl, rfl⟩
    · exact ⟨rfl, rfl⟩
  exact h

end Sys2Proof.Machine
end

