-- ==== Sys2Proof/Laws/State.lean ====
section
/-!
SUPPORT. The state after each named update, field by field, so that no proof unfolds an update.
-/

namespace Sys2Proof.Machine

@[simp] theorem State.emit_cmd (s : State) (ws : List Word) :
    (s.emit ws).cmd = s.cmd := rfl

@[simp] theorem State.emit_resp (s : State) (ws : List Word) :
    (s.emit ws).resp = s.resp ++ ws := rfl

@[simp] theorem State.emit_voice (s : State) (ws : List Word) :
    (s.emit ws).voice = s.voice := rfl

@[simp] theorem State.emit_sticky (s : State) (ws : List Word) :
    (s.emit ws).sticky = s.sticky := rfl

@[simp] theorem State.consume_cmd (s : State) (rest : List Word) :
    (s.consume rest).cmd = rest := rfl

@[simp] theorem State.consume_resp (s : State) (rest : List Word) :
    (s.consume rest).resp = s.resp := rfl

@[simp] theorem State.consume_voice (s : State) (rest : List Word) :
    (s.consume rest).voice = s.voice := rfl

@[simp] theorem State.consume_sticky (s : State) (rest : List Word) :
    (s.consume rest).sticky = s.sticky := rfl

@[simp] theorem State.setVoice_cmd (s : State) (v : Voice) :
    (s.setVoice v).cmd = s.cmd := rfl

@[simp] theorem State.setVoice_resp (s : State) (v : Voice) :
    (s.setVoice v).resp = s.resp := rfl

@[simp] theorem State.setVoice_voice (s : State) (v : Voice) :
    (s.setVoice v).voice = some v := rfl

@[simp] theorem State.setVoice_sticky (s : State) (v : Voice) :
    (s.setVoice v).sticky = s.sticky := rfl

@[simp] theorem State.raise_cmd (s : State) (ev : Sticky) :
    (s.raise ev).cmd = s.cmd := rfl

@[simp] theorem State.raise_resp (s : State) (ev : Sticky) :
    (s.raise ev).resp = s.resp := rfl

@[simp] theorem State.raise_voice (s : State) (ev : Sticky) :
    (s.raise ev).voice = s.voice := rfl

@[simp] theorem State.raise_sticky (s : State) (ev : Sticky) :
    (s.raise ev).sticky = s.sticky.or ev := rfl

@[simp] theorem State.rebuild_cmd (s : State) (v : Voice) :
    (s.rebuild v).cmd = s.cmd := rfl

@[simp] theorem State.rebuild_resp (s : State) (v : Voice) :
    (s.rebuild v).resp = s.resp := rfl

@[simp] theorem State.rebuild_voice (s : State) (v : Voice) :
    (s.rebuild v).voice = some v := rfl

@[simp] theorem State.rebuild_sticky (s : State) (v : Voice) :
    (s.rebuild v).sticky = Sticky.clear := rfl

@[simp] theorem State.unconfigure_cmd (s : State) :
    s.unconfigure.cmd = s.cmd := rfl

@[simp] theorem State.unconfigure_resp (s : State) :
    s.unconfigure.resp = s.resp := rfl

@[simp] theorem State.unconfigure_voice (s : State) :
    s.unconfigure.voice = none := rfl

@[simp] theorem State.unconfigure_sticky (s : State) :
    s.unconfigure.sticky = Sticky.clear := rfl

@[simp] theorem State.hostSend_cmd (s : State) (ws : List Word) :
    (s.hostSend ws).cmd = s.cmd ++ ws := rfl

@[simp] theorem State.hostSend_resp (s : State) (ws : List Word) :
    (s.hostSend ws).resp = s.resp := rfl

@[simp] theorem State.hostSend_voice (s : State) (ws : List Word) :
    (s.hostSend ws).voice = s.voice := rfl

@[simp] theorem State.hostSend_sticky (s : State) (ws : List Word) :
    (s.hostSend ws).sticky = s.sticky := rfl

@[simp] theorem State.withFetchWord_cmd (s : State) (nbits w : Nat) :
    (s.withFetchWord nbits w).cmd = tableCommand nbits w ++ s.cmd := rfl

@[simp] theorem State.withFetchWord_resp (s : State) (nbits w : Nat) :
    (s.withFetchWord nbits w).resp = s.resp := rfl

@[simp] theorem State.withFetchWord_voice (s : State) (nbits w : Nat) :
    (s.withFetchWord nbits w).voice = s.voice := rfl

@[simp] theorem State.withFetchWord_sticky (s : State) (nbits w : Nat) :
    (s.withFetchWord nbits w).sticky = s.sticky := rfl

@[simp] theorem State.reset_cmd : State.reset.cmd = [] := rfl

@[simp] theorem State.reset_resp : State.reset.resp = [] := rfl

@[simp] theorem State.reset_voice : State.reset.voice = none := rfl

@[simp] theorem State.reset_sticky : State.reset.sticky = Sticky.clear := rfl

@[simp] theorem Sticky.clear_filtOvf : Sticky.clear.filtOvf = false := rfl

@[simp] theorem Sticky.or_filtOvf (a b : Sticky) : (a.or b).filtOvf = (a.filtOvf || b.filtOvf) := rfl

@[simp] theorem Sticky.clear_designErr : Sticky.clear.designErr = false := rfl

@[simp] theorem Sticky.or_designErr (a b : Sticky) : (a.or b).designErr = (a.designErr || b.designErr) := rfl

@[simp] theorem Sticky.clear_idxWrap : Sticky.clear.idxWrap = false := rfl

@[simp] theorem Sticky.or_idxWrap (a b : Sticky) : (a.or b).idxWrap = (a.idxWrap || b.idxWrap) := rfl

@[simp] theorem Sticky.or_clear (a : Sticky) : a.or Sticky.clear = a := by
  cases a
  simp [Sticky.or, Sticky.clear]

@[simp] theorem Sticky.clear_or (a : Sticky) : Sticky.clear.or a = a := by
  cases a
  simp [Sticky.or, Sticky.clear]

theorem Sticky.or_assoc (a b c : Sticky) : (a.or b).or c = a.or (b.or c) := by
  simp [Sticky.or, Bool.or_assoc]

end Sys2Proof.Machine
end

