-- ==== Sys2Proof/Laws/Ops.lean ====
section
/-!
SUPPORT. What each shared operation of a step can do, said once: if it answers a next state, which
one. The provers cite these instead of unfolding the operations.
-/

namespace Sys2Proof.Machine

/-- `complete` answers the state with `OK` and the data words appended, and nothing else. -/
theorem complete_eq (data : List Word) (s : State) :
    complete data s = .next { s with resp := s.resp ++ 0#32 :: data } := rfl

/-- `complete`, inverted. -/
theorem complete_next {data : List Word} {s s' : State} (h : complete data s = .next s') :
    s' = s.emit (Status.ok.word :: data) := by
  cases h
  rfl

/-- `fail` answers the state with one status word appended, and nothing else. -/
theorem fail_eq (st : Status) (s : State) :
    fail st s = .next { s with resp := s.resp ++ [st.word] } := rfl

/-- `fail`, inverted. -/
theorem fail_next {st : Status} {s s' : State} (h : fail st s = .next s') :
    s' = s.emit [st.word] := by
  cases h
  rfl

/-- A command that needs a Voice, on an unconfigured core. -/
theorem withVoice_none {s : State} (h : s.voice = none)
    (k : Voice → Host.Outcome State Fault Refusal) : withVoice s k = fail .enotready s := by
  simp [withVoice, h]

/-- A command that needs a Voice, on a configured core. -/
theorem withVoice_some {s : State} {v : Voice} (h : s.voice = some v)
    (k : Voice → Host.Outcome State Fault Refusal) : withVoice s k = k v := by
  simp [withVoice, h]

/-- `withVoice`, inverted: `ENOTREADY` on an unconfigured core, else the command on the Voice. -/
theorem withVoice_next {s s' : State} {k : Voice → Host.Outcome State Fault Refusal}
    (h : withVoice s k = .next s') :
    (s.voice = none ∧ s' = s.emit [Status.enotready.word])
      ∨ ∃ v, s.voice = some v ∧ k v = .next s' := by
  cases hv : s.voice with
  | none =>
    rw [withVoice_none hv] at h
    exact .inl ⟨rfl, fail_next h⟩
  | some v =>
    rw [withVoice_some hv] at h
    exact .inr ⟨v, rfl, h⟩

/-- A control command on a configured core whose operation succeeds. -/
theorem control_ok {s : State} {v v' : Voice} {ev : Sticky}
    {op : Voice → Except Status (Voice × Sticky)} (hv : s.voice = some v)
    (h : op v = .ok (v', ev)) :
    control s op
      = .next { s with
          voice := some v', sticky := s.sticky.or ev, resp := s.resp ++ [0#32] } := by
  simp only [control, withVoice_some hv, h]
  rfl

/-- A control command on a configured core whose operation fails. -/
theorem control_error {s : State} {v : Voice} {st : Status}
    {op : Voice → Except Status (Voice × Sticky)} (hv : s.voice = some v)
    (h : op v = .error st) :
    control s op = .next { s with resp := s.resp ++ [st.word] } := by
  simp only [control, withVoice_some hv, h]
  rfl

/-- `control`, inverted: not ready, a failure with a status, or a new Voice with its events. -/
theorem control_next {s s' : State} {op : Voice → Except Status (Voice × Sticky)}
    (h : control s op = .next s') :
    (s.voice = none ∧ s' = s.emit [Status.enotready.word])
      ∨ (∃ v st, s.voice = some v ∧ op v = .error st ∧ s' = s.emit [st.word])
      ∨ ∃ v v' ev, s.voice = some v ∧ op v = .ok (v', ev)
          ∧ s' = ((s.setVoice v').raise ev).emit [Status.ok.word] := by
  rcases withVoice_next h with h | ⟨v, hv, h⟩
  · exact .inl h
  · cases ho : op v with
    | error st =>
      rw [ho] at h
      exact .inr (.inl ⟨v, st, hv, ho, fail_next h⟩)
    | ok r =>
      rw [ho] at h
      exact .inr (.inr ⟨v, r.1, r.2, hv, ho, complete_next h⟩)

/-- A GET of a Voice register, inverted. -/
theorem view_next {s s' : State} {get : Voice → Word} (h : view s get = .next s') :
    (s.voice = none ∧ s' = s.emit [Status.enotready.word])
      ∨ ∃ v, s.voice = some v ∧ s' = s.emit [Status.ok.word, get v] := by
  rcases withVoice_next h with h | ⟨v, hv, h⟩
  · exact .inl h
  · exact .inr ⟨v, hv, complete_next h⟩

/-- An operation without events, inverted. -/
theorem quiet_ok {r : Except Status Voice} {v : Voice} {ev : Sticky} (h : quiet r = .ok (v, ev)) :
    r = .ok v ∧ ev = Sticky.clear := by
  cases r with
  | error st => cases h
  | ok w =>
    cases h
    exact ⟨rfl, rfl⟩

/-- An operation without events that fails. -/
theorem quiet_error {r : Except Status Voice} {st : Status} (h : quiet r = .error st) :
    r = .error st := by
  cases r with
  | error _ =>
    cases h
    rfl
  | ok _ => cases h

/-- An operation on `O2`, inverted: there is none, or the operation succeeds on it. -/
theorem onSecond_ok {op : Osc → Except Status Osc} {o o' : Option Osc}
    (h : onSecond op o = .ok o') :
    (o = none ∧ o' = none) ∨ ∃ a b, o = some a ∧ o' = some b ∧ op a = .ok b := by
  cases o with
  | none =>
    cases h
    exact .inl ⟨rfl, rfl⟩
  | some a =>
    simp only [onSecond] at h
    cases ho : op a with
    | error st =>
      rw [ho] at h
      cases h
    | ok b =>
      rw [ho] at h
      cases h
      exact .inr ⟨a, b, rfl, rfl, ho⟩

/-- One step around any way to perform commands, inverted: a command run on the consumed stream, an
illegal header answered with `EBADOP`, or the wait for missing words. -/
theorem stepBy_cases (run : Instr → State → Host.Outcome State Fault Refusal) (s : State) :
    (∃ i rest, decode s.cmd = .command i rest ∧ stepBy run s = run i (s.consume rest))
      ∨ (∃ rest, (decode s.cmd = .unknownOpcode rest ∨ decode s.cmd = .reservedField rest)
          ∧ stepBy run s = fail .ebadop (s.consume rest))
      ∨ (decode s.cmd = .incomplete ∧ stepBy run s = .next s) := by
  cases h : decode s.cmd with
  | command i rest => exact .inl ⟨i, rest, rfl, by simp [stepBy, h]⟩
  | unknownOpcode rest => exact .inr (.inl ⟨rest, .inl rfl, by simp [stepBy, h]⟩)
  | reservedField rest => exact .inr (.inl ⟨rest, .inr rfl, by simp [stepBy, h]⟩)
  | incomplete => exact .inr (.inr ⟨rfl, by simp [stepBy, h]⟩)

/-- One step of the machine, inverted. -/
theorem step_cases (s : State) :
    (∃ i rest, decode s.cmd = .command i rest ∧ step s = exec i (s.consume rest))
      ∨ (∃ rest, (decode s.cmd = .unknownOpcode rest ∨ decode s.cmd = .reservedField rest)
          ∧ step s = fail .ebadop (s.consume rest))
      ∨ (decode s.cmd = .incomplete ∧ step s = .next s) :=
  stepBy_cases exec s

/-- One step at the parameters `P`, inverted. -/
theorem stepWith_cases (P : Params) (s : State) :
    (∃ i rest, decode s.cmd = .command i rest ∧ stepWith P s = execWith P i (s.consume rest))
      ∨ (∃ rest, (decode s.cmd = .unknownOpcode rest ∨ decode s.cmd = .reservedField rest)
          ∧ stepWith P s = fail .ebadop (s.consume rest))
      ∨ (decode s.cmd = .incomplete ∧ stepWith P s = .next s) :=
  stepBy_cases (execWith P) s

end Sys2Proof.Machine
end

