-- ==== Sys2Proof/Laws/Oscillator.lean ====
section
/-!
SUPPORT. The oscillator: what each operation does to a sound oscillator (`Safety.lean`).
-/

namespace Sys2Proof.Machine

/-! ### Saw -/

/-- R105: the step is below the peak amplitude, or both are 0. -/
theorem sawStep_le {m f fs : Nat} (h : FreqOk f fs) : sawStep m f fs ≤ m := by
  unfold sawStep
  obtain ⟨h0, h1⟩ := h
  have hfs : 0 < 2 ^ 16 * fs := by omega
  rw [Nat.div_le_iff_le_mul_add_pred hfs]
  nlinarith [Nat.mul_le_mul_left m h1.le]

theorem sawStep_toNat {i : Nat} (hi : UnitOk i) {f fs : Nat} (h : FreqOk f fs) :
    (ureg 24 (sawStep (ampOf i) f fs)).toNat = sawStep (ampOf i) f fs := by
  have h1 := sawStep_le (m := ampOf i) h
  have h2 := ampOf_le hi
  simp only [Config.fsc_val] at h2
  exact toNat_ureg (by omega)

theorem sawInit_inv {fs f : Word} {i : BitVec 24} (hf : FreqOk f.toNat fs.toNat)
    (hi : UnitOk i.toNat) : SawInv fs f i (sawInit fs f i) := by
  have h2 := ampOf_le hi
  simp only [Config.fsc_val] at h2
  have ha : ((ureg 32 (ampOf i.toNat)).toInt) = ampOf i.toNat := by
    rw [BitVec.toInt_eq_toNat_of_lt] <;> rw [toNat_ureg (by omega)]
    omega
  constructor
  · exact toNat_ampOf hi
  · simp only [sawInit, toNat_ampOf hi]
    exact sawStep_toNat hi hf
  · simp only [sawInit, toNat_ampOf hi, ha]
    omega
  · simp only [sawInit, toNat_ampOf hi, ha]
    omega

theorem sawSetFreq_inv {fs f g : Word} {i : BitVec 24} {r : SawRegs} (h : SawInv fs g i r)
    (hf : FreqOk f.toNat fs.toNat) : SawInv fs f i (sawSetFreq fs f r) := by
  have h1 := sawStep_le (m := r.max.toNat) hf
  have h2 := r.max.isLt
  refine ⟨h.max_eq, ?_, h.amp_ge, h.amp_le⟩
  exact toNat_ureg (by omega)

/-- R107: the clamped amplitude is read back. -/
theorem sawSetInt_amp {fs f : Word} {i : BitVec 24} (hi : UnitOk i.toNat) (r : SawRegs) :
    (sawSetInt fs f i r).amp.toInt
      = min (max r.amp.toInt (-(ampOf i.toNat : Int))) (ampOf i.toNat) := by
  have h2 := ampOf_le hi
  simp only [Config.fsc_val] at h2
  exact toInt_sreg (by omega) (by omega)

theorem sawSetInt_inv {fs f : Word} {i : BitVec 24} {r : SawRegs}
    (hf : FreqOk f.toNat fs.toNat) (hi : UnitOk i.toNat) : SawInv fs f i (sawSetInt fs f i r) := by
  constructor
  · exact toNat_ampOf hi
  · simp only [sawSetInt, toNat_ampOf hi]
    exact sawStep_toNat hi hf
  · rw [sawSetInt_amp hi]
    simp only [sawSetInt, toNat_ampOf hi]
    omega
  · rw [sawSetInt_amp hi]
    simp only [sawSetInt, toNat_ampOf hi]
    omega

/-- R108: the amplitude after a sample, where the amplitude lies within the peak. -/
theorem sawSample_amp {r : SawRegs} (h1 : -(r.max.toNat : Int) ≤ r.amp.toInt)
    (h2 : r.amp.toInt ≤ r.max.toNat) :
    (sawSample r).2.amp.toInt =
      if r.amp.toInt - r.step.toNat < -(r.max.toNat : Int)
      then r.amp.toInt - r.step.toNat + 2 * r.max.toNat else r.amp.toInt - r.step.toNat := by
  have hm := r.max.isLt
  have hs := r.step.isLt
  simp only [sawSample]
  split
  · rw [toInt_sreg (by omega) (by omega)]
    omega
  · rw [toInt_sreg (by omega) (by omega)]

theorem sawSample_inv {fs f : Word} {i : BitVec 24} {r : SawRegs} (h : SawInv fs f i r)
    (hf : FreqOk f.toNat fs.toNat) : SawInv fs f i (sawSample r).2 := by
  have hs : r.step.toNat ≤ r.max.toNat := by
    rw [h.step_eq]
    exact sawStep_le hf
  have h1 := h.amp_ge
  have h2 := h.amp_le
  refine ⟨h.max_eq, h.step_eq, ?_, ?_⟩
  · rw [sawSample_amp h1 h2]
    show -(r.max.toNat : Int) ≤ _
    split <;> omega
  · rw [sawSample_amp h1 h2]
    show _ ≤ (r.max.toNat : Int)
    split <;> omega

/-! ### Square -/

/-- R110: the half-period is at least 1. -/
theorem one_le_sqHalf {f fs : Nat} (h : FreqOk f fs) : 1 ≤ sqHalf f fs := by
  obtain ⟨h0, h1⟩ := h
  unfold sqHalf
  rw [Nat.one_le_div_iff (by omega)]
  omega

theorem one_le_sqHalfWord {f fs : Word} (h : FreqOk f.toNat fs.toNat) :
    1 ≤ (sqHalfWord f fs).toNat := by
  unfold sqHalfWord
  split
  · rename_i hf
    rw [toNat_ureg hf]
    exact one_le_sqHalf h
  · exact one_le_atLeastOne _

theorem squareInit_inv {fs f : Word} {i : BitVec 24} (hf : FreqOk f.toNat fs.toNat)
    (hi : UnitOk i.toNat) : SquareInv fs f i (squareInit fs f i) := by
  have h1 := one_le_sqHalfWord hf
  refine ⟨toNat_ampOf hi, rfl, ?_⟩
  show (0#32).toNat < (sqHalfWord f fs).toNat
  simp only [BitVec.toNat_ofNat, Nat.zero_mod]
  omega

theorem squareSetFreq_inv {fs f g : Word} {i : BitVec 24} {r : SquareRegs}
    (h : SquareInv fs g i r) (hf : FreqOk f.toNat fs.toNat) :
    SquareInv fs f i (squareSetFreq fs f r) := by
  have h1 := one_le_sqHalfWord hf
  refine ⟨h.max_eq, rfl, ?_⟩
  show (0#32).toNat < (sqHalfWord f fs).toNat
  simp only [BitVec.toNat_ofNat, Nat.zero_mod]
  omega

theorem squareSetInt_inv {fs f : Word} {i j : BitVec 24} {r : SquareRegs}
    (h : SquareInv fs f j r) (hi : UnitOk i.toNat) : SquareInv fs f i (squareSetInt i r) := by
  constructor
  · simp only [squareSetInt, toNat_ampOf hi]
  · exact h.half_eq
  · exact h.cnt_lt

theorem squareSample_inv {fs f : Word} {i : BitVec 24} {r : SquareRegs}
    (h : SquareInv fs f i r) : SquareInv fs f i (squareSample r).2 := by
  have hc : r.cnt.toNat < r.half.toNat := h.cnt_lt
  have hh := r.half.isLt
  simp only [squareSample]
  split
  · refine ⟨h.max_eq, h.half_eq, ?_⟩
    show (0#32).toNat < r.half.toNat
    simp only [BitVec.toNat_ofNat, Nat.zero_mod]
    omega
  · refine ⟨h.max_eq, h.half_eq, ?_⟩
    show (ureg 32 (r.cnt.toNat + 1)).toNat < r.half.toNat
    rw [toNat_ureg (by omega)]
    omega

/-! ### Sine -/

/-- R119: the ramp value lies between its ends. -/
theorem rampValue_bounds (iStart iTgt : BitVec 24) {k : Nat} (hk : k < 1000) :
    min (iStart.toNat : Int) iTgt.toNat ≤ rampValue iStart iTgt k
      ∧ rampValue iStart iTgt k ≤ max (iStart.toNat : Int) iTgt.toNat := by
  simp only [rampValue, fdiv, Config.irLen_val]
  generalize hx : ((iTgt.toNat : Int) - iStart.toNat) * k = x
  have h1 : -(max ((iStart.toNat : Int) - iTgt.toNat) 0) * 1000 ≤ x := by
    subst hx
    by_cases hd : (iStart.toNat : Int) ≤ iTgt.toNat
    · rw [max_eq_right (by omega)]
      have : 0 ≤ ((iTgt.toNat : Int) - iStart.toNat) * k := by
        apply mul_nonneg <;> omega
      omega
    · rw [max_eq_left (by omega)]
      have := mul_le_mul_of_nonneg_left (show (k : Int) ≤ 1000 by omega)
        (show 0 ≤ (iStart.toNat : Int) - iTgt.toNat by omega)
      nlinarith
  have h2 : x ≤ (max ((iTgt.toNat : Int) - iStart.toNat) 0) * 1000 := by
    subst hx
    by_cases hd : (iStart.toNat : Int) ≤ iTgt.toNat
    · rw [max_eq_left (by omega)]
      exact mul_le_mul_of_nonneg_left (by omega) (by omega)
    · rw [max_eq_right (by omega)]
      have : ((iTgt.toNat : Int) - iStart.toNat) * k ≤ 0 :=
        mul_nonpos_of_nonpos_of_nonneg (by omega) (by omega)
      omega
  simp only [Nat.cast_ofNat]
  omega

/-- R119: the ramp value is a legal intensity and fits its register. -/
theorem toNat_rampValue {iStart iTgt : BitVec 24} (h1 : UnitOk iStart.toNat)
    (h2 : UnitOk iTgt.toNat) {k : Nat} (hk : k < 1000) :
    ((sreg 24 (rampValue iStart iTgt k)).toNat : Int) = rampValue iStart iTgt k
      ∧ UnitOk (sreg 24 (rampValue iStart iTgt k)).toNat := by
  obtain ⟨hl, hu⟩ := rampValue_bounds iStart iTgt hk
  simp only [UnitOk, Config.one_val] at *
  have h := toNat_sreg (n := 24) (v := rampValue iStart iTgt k) (by omega) (by omega)
  exact ⟨h, by omega⟩

theorem rampStep_inv {fs f : Word} {i : BitVec 24} {r : SineRegs} (h : SineInv fs f i r)
    (hi : UnitOk i.toNat) : SineInv fs f i (rampStep r) := by
  have ht : UnitOk r.iTgt.toNat := by rw [h.iTgt_eq]; exact hi
  unfold rampStep
  split
  · split
    · exact ⟨h.fCur_ok, ht, h.iStart_ok, h.iTgt_eq,
        by show (0#10).toNat < _; decide, fun _ => rfl, h.steady, h.table⟩
    · rename_i hon hk
      simp only [Config.irLen_val, not_le] at hk
      refine ⟨h.fCur_ok, (toNat_rampValue h.iStart_ok ht hk).2, h.iStart_ok, h.iTgt_eq, ?_, ?_,
        h.steady, h.table⟩
      · show (ureg 10 (r.rampK.toNat + 1)).toNat < Config.irLen
        rw [toNat_ureg (by omega)]
        simpa using hk
      · intro hf
        simp [hon] at hf
  · exact h

/-- The ramp step touches no register of the phase. -/
theorem rampStep_phase (r : SineRegs) :
    (rampStep r).n = r.n ∧ (rampStep r).fCur = r.fCur ∧ (rampStep r).pPrev = r.pPrev
      ∧ (rampStep r).tr = r.tr ∧ (rampStep r).trK = r.trK ∧ (rampStep r).pt = r.pt := by
  unfold rampStep
  split
  · split <;> simp
  · simp

theorem sineInit_inv {fs f : Word} {i : BitVec 24} (hf : FreqOk f.toNat fs.toNat)
    (hi : UnitOk i.toNat) : SineInv fs f i (sineInit f i) :=
  ⟨hf, hi, hi, rfl, by show (0#10).toNat < _; decide, fun _ => rfl, fun _ => rfl, fun h => absurd rfl h⟩

theorem sineSetInt_inv {fs f : Word} {i j : BitVec 24} {r : SineRegs} (h : SineInv fs f j r) :
    SineInv fs f i (sineSetInt i r) :=
  ⟨h.fCur_ok, h.iEff_ok, h.iEff_ok, rfl, by show (0#10).toNat < _; decide,
    fun hf => by simp [sineSetInt] at hf, h.steady, h.table⟩

theorem sineSetFreq_inv {fs f g : Word} {i : BitVec 24} {r : SineRegs} (h : SineInv fs g i r) :
    SineInv fs f i (sineSetFreq fs f r) :=
  ⟨h.fCur_ok, h.iEff_ok, h.iStart_ok, h.iTgt_eq, h.rampK_lt, h.ramp_off,
    fun ht => by simp [sineSetFreq] at ht, fun _ => rfl⟩

theorem steadyStep_inv {fs f : Word} {i : BitVec 24} {r : SineRegs} (h : SineInv fs f i r) :
    SineInv fs f i (steadyStep fs r).regs := by
  simp only [steadyStep]
  split
  · rename_i hc
    refine ⟨h.fCur_ok, h.iEff_ok, h.iStart_ok, h.iTgt_eq, h.rampK_lt, h.ramp_off, ?_, ?_⟩
    · intro ht
      simp at ht
    · intro _
      exact h.table (by simp [hc.1])
  · exact ⟨h.fCur_ok, h.iEff_ok, h.iStart_ok, h.iTgt_eq, h.rampK_lt, h.ramp_off, h.steady, h.table⟩

theorem runStep_inv {fs f : Word} {i : BitVec 24} {r : SineRegs} (h : SineInv fs f i r) :
    SineInv fs f i (runStep r).regs :=
  ⟨h.fCur_ok, h.iEff_ok, h.iStart_ok, h.iTgt_eq, h.rampK_lt, h.ramp_off, h.steady, h.table⟩

theorem phaseStep_inv {fs f : Word} {i : BitVec 24} {r : SineRegs} (h : SineInv fs f i r) :
    SineInv fs f i (phaseStep fs r).regs := by
  unfold phaseStep
  split
  · exact runStep_inv h
  · exact steadyStep_inv h
  · exact steadyStep_inv h

theorem resync_inv {P : Params} {fs f p : Word} {i : BitVec 24} {out : Int} {r : SineRegs}
    (h : SineInv fs f i r) (hf : FreqOk f.toNat fs.toNat) :
    SineInv fs f i (resync P fs f p out r) :=
  ⟨hf, h.iEff_ok, h.iStart_ok, h.iTgt_eq, h.rampK_lt, h.ramp_off, fun _ => rfl,
    fun ht => absurd rfl ht⟩

theorem sineSample_inv {P : Params} {fs f : Word} {i : BitVec 24} {r : SineRegs}
    (h : SineInv fs f i r) (hf : FreqOk f.toNat fs.toNat) (hi : UnitOk i.toNat) :
    SineInv fs f i (sineSample P fs f r).2.1 := by
  have h2 := phaseStep_inv (rampStep_inv h hi)
  have h3 : SineInv fs f i
      { (phaseStep fs (rampStep r)).regs with pPrev := (phaseStep fs (rampStep r)).p } :=
    ⟨h2.fCur_ok, h2.iEff_ok, h2.iStart_ok, h2.iTgt_eq, h2.rampK_lt, h2.ramp_off, h2.steady,
      h2.table⟩
  simp only [sineSample]
  split
  · exact resync_inv h3 hf
  · exact h3

/-! ### The oscillator -/

theorem oscInit_inv {kind : Waveform} {fs f : Word} {i : BitVec 24}
    (hf : FreqOk f.toNat fs.toNat) (hi : UnitOk i.toNat) :
    OscInv kind fs i (oscInit kind fs f i) := by
  refine ⟨hf, rfl, ?_⟩
  cases kind
  · exact ⟨rfl, sawInit_inv hf hi⟩
  · exact ⟨rfl, sineInit_inv hf hi⟩
  · exact ⟨rfl, squareInit_inv hf hi⟩

/-- `set_frequency`, inverted: the frequency was in range, the oscillator free, and the result keeps
the intensity and holds the new frequency. -/
theorem Osc.setFrequency_ok {fs f : Word} {o o' : Osc} (h : o.setFrequency fs f = .ok o') :
    FreqOk f.toNat fs.toNat ∧ o.busy = false ∧ o'.f = f ∧ o'.i = o.i := by
  unfold Osc.setFrequency at h
  split at h
  · cases h
  · rename_i hf
    split at h
    · cases h
    · rename_i hb
      cases h
      exact ⟨not_not.mp hf, by simpa using hb, rfl, rfl⟩

/-- R203: on a frequency in range and a free oscillator `set_frequency` cannot fail. -/
theorem Osc.setFrequency_succeeds {fs f : Word} {o : Osc} (hf : FreqOk f.toNat fs.toNat)
    (hb : o.busy = false) : ∃ o', o.setFrequency fs f = .ok o' := by
  unfold Osc.setFrequency
  rw [if_neg (not_not.mpr hf), if_neg (by simp [hb])]
  exact ⟨_, rfl⟩

theorem Osc.setFrequency_inv {kind : Waveform} {fs f : Word} {i : BitVec 24} {o o' : Osc}
    (ho : OscInv kind fs i o) (h : o.setFrequency fs f = .ok o') : OscInv kind fs i o' := by
  obtain ⟨hf, _, h1, h2⟩ := Osc.setFrequency_ok h
  refine ⟨by rw [h1]; exact hf, by rw [h2]; exact ho.i_eq, ?_⟩
  unfold Osc.setFrequency at h
  rw [if_neg (not_not.mpr hf)] at h
  split at h
  · cases h
  · cases h
    have hw := ho.wave_ok
    cases hr : o.wave with
    | saw r =>
      rw [hr] at hw
      exact ⟨hw.1, sawSetFreq_inv hw.2 hf⟩
    | sine r =>
      rw [hr] at hw
      exact ⟨hw.1, sineSetFreq_inv hw.2⟩
    | square r =>
      rw [hr] at hw
      exact ⟨hw.1, squareSetFreq_inv hw.2 hf⟩

/-- `set_intensity`, inverted: the intensity was legal and the frequency stays. -/
theorem Osc.setIntensity_ok {fs i : Word} {o o' : Osc} (h : o.setIntensity fs i = .ok o') :
    UnitOk i.toNat ∧ o'.f = o.f ∧ o'.i = ureg 24 i.toNat := by
  unfold Osc.setIntensity at h
  split at h
  · cases h
  · rename_i hi
    cases h
    exact ⟨not_not.mp hi, rfl, rfl⟩

/-- `set_intensity` of a legal intensity cannot fail. -/
theorem Osc.setIntensity_succeeds {fs i : Word} (o : Osc) (hi : UnitOk i.toNat) :
    ∃ o', o.setIntensity fs i = .ok o' := by
  unfold Osc.setIntensity
  rw [if_neg (not_not.mpr hi)]
  exact ⟨_, rfl⟩

/-- A legal intensity fits its 24-bit register. -/
theorem toNat_unit {i : Word} (hi : UnitOk i.toNat) : (ureg 24 i.toNat).toNat = i.toNat := by
  simp only [UnitOk, Config.one_val] at hi
  exact toNat_ureg (by omega)

theorem Osc.setIntensity_inv {kind : Waveform} {fs i : Word} {j : BitVec 24} {o o' : Osc}
    (ho : OscInv kind fs j o) (h : o.setIntensity fs i = .ok o') :
    OscInv kind fs (ureg 24 i.toNat) o' := by
  obtain ⟨hi, h1, h2⟩ := Osc.setIntensity_ok h
  have hi' : UnitOk (ureg 24 i.toNat).toNat := by rw [toNat_unit hi]; exact hi
  refine ⟨by rw [h1]; exact ho.f_ok, h2, ?_⟩
  unfold Osc.setIntensity at h
  rw [if_neg (not_not.mpr hi)] at h
  cases h
  have hw := ho.wave_ok
  cases hr : o.wave with
  | saw r =>
    rw [hr] at hw
    exact ⟨hw.1, sawSetInt_inv ho.f_ok hi'⟩
  | sine r =>
    rw [hr] at hw
    exact ⟨hw.1, sineSetInt_inv hw.2⟩
  | square r =>
    rw [hr] at hw
    exact ⟨hw.1, squareSetInt_inv hw.2 hi'⟩

/-- A sample keeps the frequency and the intensity of the oscillator. -/
theorem Osc.sample_frame (P : Params) (fs : Word) (o : Osc) :
    (o.sample P fs).2.1.f = o.f ∧ (o.sample P fs).2.1.i = o.i := by
  unfold Osc.sample
  split <;> exact ⟨rfl, rfl⟩

theorem Osc.sample_inv {P : Params} {kind : Waveform} {fs : Word} {i : BitVec 24} {o : Osc}
    (h : OscInv kind fs i o) (hi : UnitOk i.toNat) :
    OscInv kind fs i (o.sample P fs).2.1 := by
  obtain ⟨h1, h2⟩ := Osc.sample_frame P fs o
  refine ⟨by rw [h1]; exact h.f_ok, by rw [h2]; exact h.i_eq, ?_⟩
  rw [h1]
  have hw := h.wave_ok
  unfold Osc.sample
  cases hr : o.wave with
  | saw r =>
    rw [hr] at hw
    exact ⟨hw.1, sawSample_inv hw.2 h.f_ok⟩
  | sine r =>
    rw [hr] at hw
    exact ⟨hw.1, sineSample_inv hw.2 h.f_ok hi⟩
  | square r =>
    rw [hr] at hw
    exact ⟨hw.1, squareSample_inv hw.2⟩

end Sys2Proof.Machine
end

