-- ==== Sys2Proof/Laws/PerInstr.lean ====
section
/-!
SUPPORT. The per-instruction family `EncodeShape`: the encoding of a command is one header whose
opcode takes exactly the operand words that follow it (`30_encoding.md` R60, R62), and the header
with those words assembles to the command itself (R65, R66 (b)).
-/

namespace Sys2Proof.Laws.EncodeShape

/-- The words of `i` are a header and its operand words, which make up the command `i`. -/
def Statement (i : Instr) : Prop :=
  ∃ h ops, encode i = h :: ops ∧ operandCount (opField h) = some ops.length
    ∧ commandOf h ops = some i

/-- A format-`Z` command: header with the opcode alone. -/
theorem of_formatZ {i : Instr} (op : BitVec 8) (ops : List Word)
    (he : encode i = header op 0#8 0#16 :: ops) (hk : operandCount op = some ops.length)
    (h40 : op ≠ 0x40#8) (h12 : op ≠ 0x12#8) (hz : formatZ op ops = some i) : Statement i :=
  ⟨_, ops, he, by simpa using hk, by simp [commandOf, h40, h12, hz]⟩

/-- A format-`S` command: header with the selector. -/
theorem of_formatS {i : Instr} (sel : BitVec 8) (he : encode i = [header 0x40#8 sel 0#16])
    (hg : getCommand sel = some i) : Statement i :=
  ⟨_, [], he, by simp [operandCount], by simp [commandOf, hg]⟩

theorem nop : Statement .nop := of_formatZ 0x00#8 [] rfl rfl (by decide) (by decide) rfl

theorem reset : Statement .reset := of_formatZ 0x01#8 [] rfl rfl (by decide) (by decide) rfl

theorem config (fs n kind coupling int f0 fc q gain attackMs decayMs sustain releaseMs : Word) :
    Statement (.config fs n kind coupling int f0 fc q gain attackMs decayMs sustain releaseMs) :=
  of_formatZ 0x02#8 _ rfl rfl (by decide) (by decide) rfl

theorem setFreq (f : Word) : Statement (.setFreq f) :=
  of_formatZ 0x10#8 _ rfl rfl (by decide) (by decide) rfl

theorem setInt (i : Word) : Statement (.setInt i) :=
  of_formatZ 0x11#8 _ rfl rfl (by decide) (by decide) rfl

theorem toggle (on : Bool) : Statement (.toggle on) := by
  refine ⟨_, [], rfl, ?_, ?_⟩
  · simp [operandCount]
  · cases on <;> simp [commandOf]

theorem filtUpdate (fc q gain : Word) : Statement (.filtUpdate fc q gain) :=
  of_formatZ 0x20#8 _ rfl rfl (by decide) (by decide) rfl

theorem filtSweep (targetFc totalSamples : Word) : Statement (.filtSweep targetFc totalSamples) :=
  of_formatZ 0x21#8 _ rfl rfl (by decide) (by decide) rfl

theorem process : Statement .process := of_formatZ 0x30#8 [] rfl rfl (by decide) (by decide) rfl

theorem getStatus : Statement .getStatus := of_formatS 0#8 rfl rfl

theorem getFreq1 : Statement .getFreq1 := of_formatS 1#8 rfl rfl

theorem getFreq2 : Statement .getFreq2 := of_formatS 2#8 rfl rfl

theorem getInt : Statement .getInt := of_formatS 3#8 rfl rfl

theorem getFc : Statement .getFc := of_formatS 4#8 rfl rfl

theorem getQ : Statement .getQ := of_formatS 5#8 rfl rfl

theorem getGain : Statement .getGain := of_formatS 6#8 rfl rfl

theorem getStage : Statement .getStage := of_formatS 7#8 rfl rfl

theorem getFactor : Statement .getFactor := of_formatS 8#8 rfl rfl

theorem getFs : Statement .getFs := of_formatS 9#8 rfl rfl

theorem getN : Statement .getN := of_formatS 10#8 rfl rfl

theorem getMode : Statement .getMode := of_formatS 11#8 rfl rfl

end Sys2Proof.Laws.EncodeShape
end

