-- ==== Sys2Proof/Laws/Voice.lean ====
section
/-!
SUPPORT. The voice: what construction, each voice operation and a voice sample can do, and that each
keeps the Voice sound (`VoiceInv` of `Safety.lean`).
-/

namespace Sys2Proof.Machine

/-- The filter's target coefficients are those designed for what it reports. -/
def Voice.Designed (P : Params) (v : Voice) : Prop := v.filt.Designed P v.cfg.fs

/-! ### Construction -/

/-- R201, inverted: every check passed, and the Voice is the constructed one. -/
theorem configure_ok {P : Params}
    {fs n kind coupling int f0 fc q gain attackMs decayMs sustain releaseMs : Word} {v : Voice}
    (h : configure P fs n kind coupling int f0 fc q gain attackMs decayMs sustain releaseMs
      = .ok v) :
    configRangesOk P fs n int f0 attackMs decayMs sustain releaseMs = true
      ∧ ∃ k c d, Waveform.ofWord kind = some k ∧ Coupling.ofWord coupling = some c
        ∧ coupledOk c f0 fs = true ∧ P.design fc q gain fs = some d
        ∧ v = voiceInit fs n k c int f0 d fc q gain attackMs decayMs sustain releaseMs := by
  unfold configure at h
  split at h
  · rename_i hr
    split at h
    · rename_i k c hk hc
      split at h
      · rename_i hco
        split at h
        · rename_i d hd
          cases h
          exact ⟨hr, k, c, d, hk, hc, hco, hd, rfl⟩
        · cases h
      · cases h
    · cases h
  · cases h

/-- R201: CONFIG fails with `EINVAL` alone. -/
theorem configure_error {P : Params}
    {fs n kind coupling int f0 fc q gain attackMs decayMs sustain releaseMs : Word} {st : Status}
    (h : configure P fs n kind coupling int f0 fc q gain attackMs decayMs sustain releaseMs
      = .error st) : st = .einval := by
  unfold configure at h
  repeat' split at h
  all_goals cases h
  all_goals rfl

/-- R15: the reference `DESIGN` fails on a cutoff outside (0, fs/2). -/
theorem chip_designRange : DesignRange chip := by
  intro fc q gain fs d h
  have h' : design fc q gain fs = some d := h
  unfold design at h'
  split at h'
  · cases h'
  · rename_i hn
    simp only [not_or, ge_iff_le, Nat.not_le] at hn
    refine ⟨?_, hn.2.2.2⟩
    have : fc.toNat ≠ 0 := fun h0 => hn.2.2.1 (BitVec.eq_of_toNat_eq h0)
    omega

/-- R200, R202: `O2` at construction. -/
theorem second_init_inv {cfg : Cfg} {f0 : Word} {i : BitVec 24}
    (hco : coupledOk cfg.coupling f0 cfg.fs = true) (hi : UnitOk i.toNat) :
    SecondInv cfg i f0 ((coupled cfg.coupling f0).map fun f2 =>
      oscInit cfg.kind cfg.fs (coupledWord cfg.coupling f0 f2) i) := by
  unfold coupledOk at hco
  cases hc : coupled cfg.coupling f0 with
  | none => exact hc
  | some f2 =>
    rw [hc] at hco
    have h2 : FreqOk f2 cfg.fs.toNat := of_decide_eq_true hco
    exact ⟨f2, hc, h2, rfl, oscInit_inv (freqOk_coupledWord h2) hi⟩

theorem configure_inv {P : Params} (hP : DesignRange P)
    {fs n kind coupling int f0 fc q gain attackMs decayMs sustain releaseMs : Word} {v : Voice}
    (h : configure P fs n kind coupling int f0 fc q gain attackMs decayMs sustain releaseMs
      = .ok v) : VoiceInv P v ∧ v.Designed P := by
  obtain ⟨hr, k, c, d, _, _, hco, hd, rfl⟩ := configure_ok h
  simp only [configRangesOk, Bool.and_eq_true, decide_eq_true_eq] at hr
  obtain ⟨⟨⟨⟨⟨hfs, hn, hnm⟩, hint, hsus⟩, _⟩, hf0⟩, _⟩ := hr
  have hi : UnitOk (ureg 24 int.toNat).toNat := by rw [toNat_unit hint]; exact hint
  exact ⟨⟨hn, hnm, hi, oscInit_inv hf0 hi,
    second_init_inv (cfg := { fs := fs, n := n, kind := k, coupling := c }) hco hi,
    envInit_inv hsus, filterInit_inv (hP _ _ _ _ _ hd)⟩, hd⟩

/-! ### Control operations -/

/-- R203, inverted: the frequencies were in range, nothing was busy, and both oscillators are set. -/
theorem Voice.setFrequency_ok {f : Word} {v v' : Voice} (h : v.setFrequency f = .ok v') :
    FreqOk f.toNat v.cfg.fs.toNat ∧ coupledOk v.cfg.coupling f v.cfg.fs = true
      ∧ v.o1.busy = false ∧ v.osc2Busy = false
      ∧ ∃ o1 o2, v.o1.setFrequency v.cfg.fs f = .ok o1
        ∧ onSecond (Osc.setFrequency v.cfg.fs (secondFreq v.cfg.coupling f)) v.o2 = .ok o2
        ∧ v' = { v with o1 := o1, o2 := o2 } := by
  unfold Voice.setFrequency at h
  split at h
  · cases h
  · rename_i hf
    split at h
    · cases h
    · rename_i hc
      split at h
      · cases h
      · rename_i hb
        simp only [not_or, Bool.not_eq_true] at hb
        split at h
        · cases h
        · rename_i o1 ho1
          split at h
          · cases h
          · rename_i o2 ho2
            cases h
            exact ⟨not_not.mp hf, by simpa using hc, hb.1, hb.2, o1, o2, ho1, ho2, rfl⟩

theorem Voice.setFrequency_inv {P : Params} {f : Word} {v v' : Voice} (hi : VoiceInv P v)
    (h : v.setFrequency f = .ok v') : VoiceInv P v' := by
  obtain ⟨_, hco, _, _, o1, o2, h1, h2, rfl⟩ := Voice.setFrequency_ok h
  obtain ⟨_, _, hf1, _⟩ := Osc.setFrequency_ok h1
  refine ⟨hi.frame_pos, hi.frame_le, hi.int_ok, Osc.setFrequency_inv hi.first h1, ?_, hi.env, hi.filt⟩
  show SecondInv v.cfg v.int o1.f o2
  rw [hf1]
  have hs := hi.second
  rcases onSecond_ok h2 with ⟨hn, rfl⟩ | ⟨a, b, ha, rfl, hab⟩
  · rw [hn] at hs
    have hs' : v.cfg.coupling.ratio = none := by
      simpa only [SecondInv, coupled, Option.map_eq_none_iff] using hs
    simp only [SecondInv, coupled, hs', Option.map_none]
  · rw [ha] at hs
    obtain ⟨g2, hg, _, _, hosc⟩ := hs
    obtain ⟨r, hr⟩ : ∃ r, v.cfg.coupling.ratio = some r := by
      cases hr : v.cfg.coupling.ratio with
      | none => simp [coupled, hr] at hg
      | some r => exact ⟨r, rfl⟩
    have hc2 : coupled v.cfg.coupling f = some (f.toNat * r / 2 ^ 30) := by simp [coupled, hr]
    rw [coupledOk, hc2] at hco
    obtain ⟨_, _, hbf, _⟩ := Osc.setFrequency_ok hab
    refine ⟨_, hc2, of_decide_eq_true hco, ?_, Osc.setFrequency_inv hosc hab⟩
    rw [hbf, secondFreq, hc2]

/-- R204, inverted: the intensity was legal and both oscillators are set. -/
theorem Voice.setIntensity_ok {i : Word} {v v' : Voice} (h : v.setIntensity i = .ok v') :
    UnitOk i.toNat
      ∧ ∃ o1 o2, v.o1.setIntensity v.cfg.fs i = .ok o1
        ∧ onSecond (Osc.setIntensity v.cfg.fs i) v.o2 = .ok o2
        ∧ v' = { v with int := ureg 24 i.toNat, o1 := o1, o2 := o2 } := by
  unfold Voice.setIntensity at h
  split at h
  · cases h
  · rename_i hi
    split at h
    · cases h
    · rename_i o1 ho1
      split at h
      · cases h
      · rename_i o2 ho2
        cases h
        exact ⟨not_not.mp hi, o1, o2, ho1, ho2, rfl⟩

theorem Voice.setIntensity_inv {P : Params} {i : Word} {v v' : Voice} (hi : VoiceInv P v)
    (h : v.setIntensity i = .ok v') : VoiceInv P v' := by
  obtain ⟨hu, o1, o2, h1, h2, rfl⟩ := Voice.setIntensity_ok h
  have hu' : UnitOk (ureg 24 i.toNat).toNat := by rw [toNat_unit hu]; exact hu
  obtain ⟨_, hf1, _⟩ := Osc.setIntensity_ok h1
  refine ⟨hi.frame_pos, hi.frame_le, hu', Osc.setIntensity_inv hi.first h1, ?_, hi.env, hi.filt⟩
  show SecondInv v.cfg (ureg 24 i.toNat) o1.f o2
  rw [hf1]
  have hs := hi.second
  rcases onSecond_ok h2 with ⟨hn, rfl⟩ | ⟨a, b, ha, rfl, hab⟩
  · rw [hn] at hs
    exact hs
  · rw [ha] at hs
    obtain ⟨g2, hg, hok, hw, hosc⟩ := hs
    obtain ⟨_, hbf, _⟩ := Osc.setIntensity_ok hab
    exact ⟨g2, hg, hok, by rw [hbf]; exact hw, Osc.setIntensity_inv hosc hab⟩

/-- R205, inverted: the envelope alone is replaced, by what the trigger gives. -/
theorem Voice.toggle_ok {on : Bool} {v v' : Voice} (h : v.toggle on = .ok v') :
    ∃ e, v.env.trigger on v.int = .ok e ∧ v' = { v with env := e } := by
  unfold Voice.toggle at h
  split at h
  · cases h
  · rename_i e he
    cases h
    exact ⟨e, he, rfl⟩

theorem Voice.toggle_inv {P : Params} {on : Bool} {v v' : Voice} (hi : VoiceInv P v)
    (h : v.toggle on = .ok v') : VoiceInv P v' := by
  obtain ⟨e, he, rfl⟩ := Voice.toggle_ok h
  exact ⟨hi.frame_pos, hi.frame_le, hi.int_ok, hi.first, hi.second,
    Envelope.trigger_inv hi.env hi.int_ok he, hi.filt⟩

/-- R206, inverted: the filter alone is replaced, by its update. -/
theorem Voice.filtUpdate_ok {P : Params} {fc q gain : Word} {v v' : Voice}
    (h : v.filtUpdate P fc q gain = .ok v') :
    ∃ F, v.filt.update P v.cfg.fs fc q gain = .ok F ∧ v' = { v with filt := F } := by
  unfold Voice.filtUpdate at h
  split at h
  · cases h
  · rename_i F hF
    cases h
    exact ⟨F, hF, rfl⟩

theorem Voice.filtUpdate_inv {P : Params} (hP : DesignRange P) {fc q gain : Word} {v v' : Voice}
    (hi : VoiceInv P v) (h : v.filtUpdate P fc q gain = .ok v') :
    VoiceInv P v' ∧ v'.Designed P := by
  obtain ⟨F, hF, rfl⟩ := Voice.filtUpdate_ok h
  obtain ⟨d, hd, _, _⟩ := Filter.update_ok hF
  obtain ⟨h1, h2⟩ := Filter.update_inv (hP _ _ _ _ _ hd) hF
  exact ⟨⟨hi.frame_pos, hi.frame_le, hi.int_ok, hi.first, hi.second, hi.env, h1⟩, h2⟩

/-- R208, inverted: the filter alone is replaced, by the started sweep. -/
theorem Voice.filtSweep_ok {P : Params} {targetFc totalSamples : Word} {v v' : Voice}
    {ev : Sticky} (h : v.filtSweep P targetFc totalSamples = .ok (v', ev)) :
    ∃ F e, v.filt.startSweep P v.cfg.fs targetFc totalSamples = .ok (F, e)
      ∧ v' = { v with filt := F } ∧ ev = Sticky.ofDesignErr e := by
  unfold Voice.filtSweep at h
  split at h
  · cases h
  · rename_i F e hF
    cases h
    exact ⟨F, e, hF, rfl, rfl⟩

theorem Voice.filtSweep_inv {P : Params} {targetFc totalSamples : Word} {v v' : Voice}
    {ev : Sticky} (hi : VoiceInv P v) (h : v.filtSweep P targetFc totalSamples = .ok (v', ev)) :
    VoiceInv P v' ∧ (ev.designErr = false → v'.Designed P) := by
  obtain ⟨F, e, hF, rfl, rfl⟩ := Voice.filtSweep_ok h
  obtain ⟨h1, h2⟩ := Filter.startSweep_inv hi.filt hF
  exact ⟨⟨hi.frame_pos, hi.frame_le, hi.int_ok, hi.first, hi.second, hi.env, h1⟩, h2⟩

/-! ### One sample and a frame -/

/-- R212: what the oscillators' samples leave: each oscillator as its own sample leaves it. -/
theorem Voice.oscillators_regs (P : Params) (v : Voice) :
    (v.oscillators P).o1 = (v.o1.sample P v.cfg.fs).2.1
      ∧ (v.oscillators P).o2 = v.o2.map fun o => (o.sample P v.cfg.fs).2.1 := by
  unfold Voice.oscillators
  cases v.o2 <;> exact ⟨rfl, rfl⟩

/-- R35: a sample writes no configuration register and no intensity. -/
@[simp] theorem Voice.sample_cfg (P : Params) (v : Voice) : (v.sample P).2.1.cfg = v.cfg := rfl

@[simp] theorem Voice.sample_int (P : Params) (v : Voice) : (v.sample P).2.1.int = v.int := rfl

/-- R212: what the filter gives in a voice sample. -/
def Voice.filterOut (P : Params) (v : Voice) : FilterOut :=
  v.filt.sample P v.cfg.fs (envMultiply (v.oscillators P).o v.env.gain)

/-- R212: one voice sample, component by component. -/
theorem Voice.sample_eq (P : Params) (v : Voice) :
    v.sample P =
      ((v.filterOut P).y,
        { v with
          o1 := (v.oscillators P).o1
          o2 := (v.oscillators P).o2
          env := v.env.advance
          filt := (v.filterOut P).filt },
        { filtOvf := (v.filterOut P).ovf
          designErr := (v.filterOut P).designErr
          idxWrap := (v.oscillators P).wrapped }) := (rfl)

theorem Voice.sample_inv {P : Params} {v : Voice} (hi : VoiceInv P v) :
    VoiceInv P (v.sample P).2.1
      ∧ (v.Designed P → (v.sample P).2.2.designErr = false
        → (v.sample P).2.1.Designed P) := by
  obtain ⟨h1, h2⟩ := v.oscillators_regs P
  have hF := Filter.sample_inv (P := P) hi.filt (envMultiply (v.oscillators P).o v.env.gain)
  rw [Voice.sample_eq]
  refine ⟨⟨hi.frame_pos, hi.frame_le, hi.int_ok, ?_, ?_, Envelope.advance_inv hi.env, hF.1⟩, hF.2⟩
  · show OscInv v.cfg.kind v.cfg.fs v.int (v.oscillators P).o1
    rw [h1]
    exact Osc.sample_inv hi.first hi.int_ok
  · show SecondInv v.cfg v.int (v.oscillators P).o1.f (v.oscillators P).o2
    rw [h1, h2, (Osc.sample_frame P v.cfg.fs v.o1).1]
    have hs := hi.second
    cases ho : v.o2 with
    | none =>
      rw [ho] at hs
      exact hs
    | some o =>
      rw [ho] at hs
      obtain ⟨f2, hc, hok, hw, hosc⟩ := hs
      exact ⟨f2, hc, hok, by rw [(Osc.sample_frame P v.cfg.fs o).1]; exact hw,
        Osc.sample_inv hosc hi.int_ok⟩

/-- R207: a frame of `n + 1` samples is one sample and a frame of `n`. -/
theorem Voice.process_succ (P : Params) (n : Nat) (v : Voice) :
    v.process P (n + 1) =
      { out := sampleWord (v.sample P).1 :: ((v.sample P).2.1.process P n).out
        voice := ((v.sample P).2.1.process P n).voice
        events := (v.sample P).2.2.or ((v.sample P).2.1.process P n).events } := (rfl)

/-- R64, R207: a frame has as many sample words as asked for. -/
@[simp] theorem Voice.process_length (P : Params) (n : Nat) (v : Voice) :
    (v.process P n).out.length = n := by
  induction n generalizing v with
  | zero => rfl
  | succ n ih => simp [Voice.process_succ, ih]

theorem Voice.process_inv {P : Params} {n : Nat} {v : Voice} (hi : VoiceInv P v) :
    VoiceInv P (v.process P n).voice
      ∧ (v.Designed P → (v.process P n).events.designErr = false
        → (v.process P n).voice.Designed P) := by
  induction n generalizing v with
  | zero => exact ⟨hi, fun h _ => h⟩
  | succ n ih =>
    obtain ⟨h1, h2⟩ := Voice.sample_inv hi
    obtain ⟨h3, h4⟩ := ih h1
    rw [Voice.process_succ]
    refine ⟨h3, fun hd he => ?_⟩
    have he' := he
    simp only [Sticky.or_designErr, Bool.or_eq_false_iff] at he'
    exact h4 (h2 hd he'.1) he'.2

end Sys2Proof.Machine
end

