-- ==== Sys2Proof/WellFormed.lean ====
section
/-!
DEFINITION. The static legality of a command's operand words: each operand is a value of the format
that `30_encoding.md` R63 gives it. Every term of `Instr` has an encoding (an operand is any word),
and an operand outside its format is no encoding error but `EINVAL` from the command's own rule
(R66 (d), `60_exceptions.md` R241); the checks here are those that need no state.
-/

namespace Sys2Proof

/-- R63: a UQ1.23 value, 0 .. 2^23. -/
def Word.isUnit (w : Word) : Bool := decide (w.toNat ≤ Config.one)

/-- R63: a duration in milliseconds, 0 .. 65535. -/
def Word.isMillis (w : Word) : Bool := decide (w.toNat ≤ 65535)

/-- R63: a waveform kind, 0 saw, 1 sine, 2 square. -/
def Word.isKind (w : Word) : Bool := decide (w.toNat ≤ 2)

/-- R63: a coupling mode, 0 none .. 4 octave. -/
def Word.isCoupling (w : Word) : Bool := decide (w.toNat ≤ 4)

/-- R63: every operand word of the command is a value of its declared format. -/
def Instr.wellFormed : Instr → Bool
  | .config _ _ kind coupling int _ _ _ _ attackMs decayMs sustain releaseMs =>
      Word.isKind kind && Word.isCoupling coupling && Word.isUnit int && Word.isMillis attackMs
        && Word.isMillis decayMs && Word.isUnit sustain && Word.isMillis releaseMs
  | .setInt i => Word.isUnit i
  | .nop => true
  | .reset => true
  | .setFreq _ => true
  | .toggle _ => true
  | .filtUpdate _ _ _ => true
  | .filtSweep _ _ => true
  | .process => true
  | .getStatus => true
  | .getFreq1 => true
  | .getFreq2 => true
  | .getInt => true
  | .getFc => true
  | .getQ => true
  | .getGain => true
  | .getStage => true
  | .getFactor => true
  | .getFs => true
  | .getN => true
  | .getMode => true

end Sys2Proof
end

