-- ==== Sys2Proof/Tests/Slice0.lean ====
section
/-!
SUPPORT. The model's own tests: header words written out from `30_encoding.md` R60 and R65, the
checks of `WellFormed.lean`, the worked examples of the rules and the vectors of
`95_test_vectors.md`, one command or one sample each; and, for every statement that has hypotheses,
a theorem that meets them. Expected values are the spec's unless a comment says otherwise.
-/

namespace Sys2Proof.Tests

set_option Elab.async false

open Sys2Proof.Machine

/-! ### Small states -/

/-- R201's example with four samples a frame, and the kind and coupling given. -/
def configured (kind coupling : Word) : Except Status Voice :=
  configure chip 48000#32 4#32 kind coupling 8388608#32 28835840#32 65536000#32 46341#32 65536#32
    25#32 15#32 5872026#32 10#32

/-- The same Voice, with the coefficients of R161's second worked value. -/
def voice (kind : Waveform) (coupling : Coupling) : Voice :=
  voiceInit 48000#32 4#32 kind coupling 8388608#32 28835840#32
    ⟨1051227#32, 2102455#32, 1051227#32, BitVec.ofInt 32 (-487301956), 223071409#32⟩
    65536000#32 46341#32 65536#32 25#32 15#32 5872026#32 10#32

/-- An unconfigured core with the words in its command stream. -/
def sent (ws : List Word) : State := { State.reset with cmd := ws }

/-- A core with the Voice. -/
def holding (v : Voice) : State := { State.reset with voice := some v }

/-- The response words of a command performed on a state. -/
def answer (i : Instr) (s : State) : List Word :=
  match exec i s with
  | .next t => t.resp
  | .fault _ => []
  | .refused _ => []

/-- The Voice after a command. -/
def after (i : Instr) (v : Voice) : Voice :=
  match exec i (holding v) with
  | .next t => t.voice.getD v
  | .fault _ => v
  | .refused _ => v

/-- The stage, index and factor of the envelope. -/
def envView (v : Voice) : Stage × Nat × Nat := (v.env.stage, v.env.idx.toNat, v.env.factor.toNat)

/-- The peak, step and amplitude of a saw. -/
def sawView (v : Voice) : Nat × Nat × Int :=
  match v.o1.wave with
  | .saw r => (r.max.toNat, r.step.toNat, r.amp.toInt)
  | .sine _ => (0, 0, 0)
  | .square _ => (0, 0, 0)

/-- A stage with `E.na`, `E.nd`, `E.nr` of the given lengths and `E.s` 0.7. -/
def env (na nd nr : Word) (stage : Stage) : Envelope :=
  { na := na, nd := nd, nr := nr, s := 5872026#24, stage := stage, idx := 0#32, factor := 0#24
    cap := 8388608#24 }

/-- The Voice with the envelope. -/
def withEnv (e : Envelope) : Voice := { voice .saw .uncoupled with env := e }

/-- The Voice with a crossfade or a sweep in progress. -/
def withFilter (xfOn swOn : Bool) : Voice :=
  { voice .saw .uncoupled with
    filt := { (voice .saw .uncoupled).filt with xfOn := xfOn, swOn := swOn } }

theorem configured_saw : configured 0#32 0#32 = .ok (voice .saw .uncoupled) := by decide +kernel

theorem configured_sine : configured 1#32 3#32 = .ok (voice .sine .fifth) := by decide +kernel

theorem configured_square : configured 2#32 4#32 = .ok (voice .square .octave) := by decide +kernel

theorem voice_saw_inv : VoiceInv chip (voice .saw .uncoupled) :=
  (configure_inv chip_designRange configured_saw).1

theorem voice_sine_inv : VoiceInv chip (voice .sine .fifth) :=
  (configure_inv chip_designRange configured_sine).1

theorem voice_square_inv : VoiceInv chip (voice .square .octave) :=
  (configure_inv chip_designRange configured_square).1

/-! ### Decoding (R60, R65) -/

theorem test_decode_nop : decode [0x00000000#32] = .command .nop [] := by decide +kernel

theorem test_decode_reset : decode [0x01000000#32] = .command .reset [] := by decide +kernel

theorem test_decode_config :
    decode [0x02000000#32, 1#32, 2#32, 3#32, 4#32, 5#32, 6#32, 7#32, 8#32, 9#32, 10#32, 11#32,
        12#32, 13#32, 14#32]
      = .command (.config 1#32 2#32 3#32 4#32 5#32 6#32 7#32 8#32 9#32 10#32 11#32 12#32 13#32)
          [14#32] := by
  decide +kernel

theorem test_decode_set_freq :
    decode [0x10000000#32, 0x01B80000#32] = .command (.setFreq 0x01B80000#32) [] := by
  decide +kernel

theorem test_decode_set_int :
    decode [0x11000000#32, 0x00400000#32] = .command (.setInt 0x00400000#32) [] := by
  decide +kernel

theorem test_decode_toggle_on : decode [0x12000001#32] = .command (.toggle true) [] := by
  decide +kernel

theorem test_decode_toggle_off : decode [0x12000000#32] = .command (.toggle false) [] := by
  decide +kernel

theorem test_decode_filt_update :
    decode [0x20000000#32, 1#32, 2#32, 3#32] = .command (.filtUpdate 1#32 2#32 3#32) [] := by
  decide +kernel

theorem test_decode_filt_sweep :
    decode [0x21000000#32, 0x07D00000#32, 0x12C0#32]
      = .command (.filtSweep 0x07D00000#32 0x12C0#32) [] := by
  decide +kernel

theorem test_decode_process : decode [0x30000000#32] = .command .process [] := by decide +kernel

theorem test_decode_get_status : decode [0x40000000#32] = .command .getStatus [] := by
  decide +kernel

theorem test_decode_get_freq1 : decode [0x40010000#32] = .command .getFreq1 [] := by decide +kernel

theorem test_decode_get_freq2 : decode [0x40020000#32] = .command .getFreq2 [] := by decide +kernel

theorem test_decode_get_int : decode [0x40030000#32] = .command .getInt [] := by decide +kernel

theorem test_decode_get_fc : decode [0x40040000#32] = .command .getFc [] := by decide +kernel

theorem test_decode_get_q : decode [0x40050000#32] = .command .getQ [] := by decide +kernel

theorem test_decode_get_gain : decode [0x40060000#32] = .command .getGain [] := by decide +kernel

theorem test_decode_get_stage : decode [0x40070000#32] = .command .getStage [] := by decide +kernel

theorem test_decode_get_factor : decode [0x40080000#32] = .command .getFactor [] := by
  decide +kernel

theorem test_decode_get_fs : decode [0x40090000#32] = .command .getFs [] := by decide +kernel

theorem test_decode_get_n : decode [0x400A0000#32] = .command .getN [] := by decide +kernel

theorem test_decode_get_mode : decode [0x400B0000#32] = .command .getMode [] := by decide +kernel

/-- R66 (a): the header alone is consumed. -/
theorem test_decode_unknown_opcode :
    decode [0x03000000#32, 7#32] = .unknownOpcode [7#32] := by
  decide +kernel

/-- R66 (b): the operand words are consumed too. -/
theorem test_decode_reserved_field :
    decode [0x10010000#32, 7#32, 8#32] = .reservedField [8#32] := by
  decide +kernel

/-- R66 (b): selector 12, `arg` of GET, `arg[1]` of TOGGLE. -/
theorem test_decode_reserved_selector :
    decode [0x400C0000#32] = .reservedField [] ∧ decode [0x40000001#32] = .reservedField []
      ∧ decode [0x12000002#32] = .reservedField [] := by
  decide +kernel

/-- R49: a command whose words have not all arrived. -/
theorem test_decode_incomplete :
    decode [0x20000000#32, 1#32, 2#32] = .incomplete ∧ decode [] = .incomplete := by
  decide +kernel

/-- The host's numbering of the bits: operands above the header are 0. -/
theorem test_decode_table_word :
    decodeTableWord 32 0x12000001 = some (.toggle true)
      ∧ decodeTableWord 32 0x21000000 = some (.filtSweep 0#32 0#32)
      ∧ decodeTableWord 64 0x01B8000010000000 = some (.setFreq 0x01B80000#32)
      ∧ decodeTableWord 32 0xFF000000 = none := by
  decide +kernel

/-- R5, log 13: `_` between two hexadecimal digits, and nowhere else. -/
theorem test_digit_separator :
    assemble "SET_FREQ 0x01B8_0000" = some [0x10000000#32, 0x01B80000#32]
      ∧ assemble "SET_FREQ 0x_" = none ∧ assemble "SET_FREQ _" = none
      ∧ assemble "SET_FREQ 0x1__0" = none ∧ assemble "SET_FREQ 0.1_5q16" = none := by
  decide +kernel

theorem test_assemble_config :
    assemble "CONFIG 48000, 500, saw, none, 1.0q23, 440hz, 1000hz, 0.7071q16, 1.0q16, 25, 15, 0.7q23, 10"
      = some [0x02000000#32, 0xBB80#32, 0x1F4#32, 0#32, 0#32, 0x00800000#32, 0x01B80000#32,
          0x03E80000#32, 0xB505#32, 0x10000#32, 0x19#32, 0x0F#32, 0x0059999A#32, 0x0A#32] := by
  decide +kernel

/-! ### Well-formed operands: one ill-formed term for each check (R63) -/

/-- CONFIG with the operands that carry a format of their own. -/
def configOf (kind coupling int att dec sus rel : Word) : Instr :=
  .config 48000#32 4#32 kind coupling int 1#32 1#32 1#32 1#32 att dec sus rel

theorem test_well_formed :
    (configOf 2#32 4#32 8388608#32 65535#32 65535#32 8388608#32 65535#32).wellFormed = true := by
  decide

theorem test_ill_formed_kind :
    (configOf 3#32 0#32 0#32 0#32 0#32 0#32 0#32).wellFormed = false := by decide

theorem test_ill_formed_coupling :
    (configOf 0#32 5#32 0#32 0#32 0#32 0#32 0#32).wellFormed = false := by decide

theorem test_ill_formed_int :
    (configOf 0#32 0#32 8388609#32 0#32 0#32 0#32 0#32).wellFormed = false := by decide

theorem test_ill_formed_attack :
    (configOf 0#32 0#32 0#32 65536#32 0#32 0#32 0#32).wellFormed = false := by decide

theorem test_ill_formed_decay :
    (configOf 0#32 0#32 0#32 0#32 65536#32 0#32 0#32).wellFormed = false := by decide

theorem test_ill_formed_sustain :
    (configOf 0#32 0#32 0#32 0#32 0#32 8388609#32 0#32).wellFormed = false := by decide

theorem test_ill_formed_release :
    (configOf 0#32 0#32 0#32 0#32 0#32 0#32 65536#32).wellFormed = false := by decide

theorem test_ill_formed_set_int : (Instr.setInt 8388609#32).wellFormed = false := by decide

/-! ### Commands -/

theorem test_nop : answer .nop State.reset = [0#32] := by decide

/-- R211: after RESET, PROCESS answers `ENOTREADY`. -/
theorem test_reset :
    exec .reset (holding (voice .saw .uncoupled)) = .next { State.reset with resp := [0#32] } := rfl

/-- R201: the same with `kind` 3, `coupling` 5, `N` 0, or octave at 12000 Hz answers `EINVAL`. -/
theorem test_config_einval :
    configured 3#32 0#32 = .error .einval ∧ configured 0#32 5#32 = .error .einval
      ∧ configure chip 48000#32 0#32 0#32 0#32 0#32 28835840#32 65536000#32 46341#32 65536#32 25#32
          15#32 0#32 10#32 = .error .einval
      ∧ configure chip 48000#32 4#32 0#32 4#32 0#32 786432000#32 65536000#32 46341#32 65536#32
          25#32 15#32 0#32 10#32 = .error .einval := by
  decide +kernel

/-- R105: `O.max`, `O.step`, `O.amp` at construction. -/
theorem test_config_saw : sawView (voice .saw .uncoupled) = (8388607, 153791, 8388607) := by
  decide +kernel

/-- R106. -/
theorem test_set_freq_saw :
    sawView (after (.setFreq 0x2EE00000#32) (voice .saw .uncoupled)) = (8388607, 4194303, 8388607) := by
  decide +kernel

/-- R202, R203: fifth coupling; octave coupling at 12000 Hz. -/
theorem test_set_freq_coupled :
    (after (.setFreq 28835840#32) (voice .sine .fifth)).freq2 = 43204943#32
      ∧ answer (.setFreq 0x2EE00000#32) (holding (voice .square .octave)) = [1#32] := by
  decide +kernel

/-- R107: the clamp on a falling intensity (V-SAW-3, before the first sample). -/
theorem test_set_int_saw :
    sawView (after (.setInt 2097152#32) (voice .saw .uncoupled)) = (2097151, 38447, 2097151) := by
  decide +kernel

theorem test_set_int_einval :
    answer (.setInt 8388609#32) (holding (voice .saw .uncoupled)) = [1#32] := by
  decide +kernel

/-- R144, R205: `TOGGLE on`, and again at once. -/
theorem test_toggle_on :
    envView (after (.toggle true) (voice .saw .uncoupled)) = (.attack, 0, 0)
      ∧ answer (.toggle true) (holding (after (.toggle true) (voice .saw .uncoupled))) = [2#32] := by
  decide +kernel

/-- R145: from `ATTACK` the release starts at the sustain factor. -/
theorem test_toggle_off :
    envView (after (.toggle false) (withEnv { env 1200#32 720#32 480#32 .attack with
      factor := 699050#24 })) = (.release, 0, 5872026) := by
  decide +kernel

/-- R163: the example. -/
theorem test_filt_update :
    ((after (.filtUpdate 131072000#32 46341#32 65536#32) (voice .saw .uncoupled)).filt.tgt.b1.toInt,
      (after (.filtUpdate 131072000#32 46341#32 65536#32) (voice .saw .uncoupled)).filt.tgt.a1.toInt)
      = (7731716, -438353337) := by
  decide +kernel

/-- R163, R244: the design is checked before the sweep. -/
theorem test_filt_update_fails :
    answer (.filtUpdate 131072000#32 0#32 65536#32) (holding (withFilter true true)) = [1#32]
      ∧ answer (.filtUpdate 131072000#32 46341#32 65536#32) (holding (withFilter true true))
        = [2#32] := by
  decide +kernel

/-- R164: the example. -/
theorem test_filt_sweep :
    ((after (.filtSweep 131072000#32 1000#32) (voice .saw .uncoupled)).filt.fc,
      (after (.filtSweep 131072000#32 1000#32) (voice .saw .uncoupled)).filt.swRem)
      = (87381333#32, 2#32) := by
  decide +kernel

/-- R208. -/
theorem test_filt_sweep_einval :
    answer (.filtSweep 131072000#32 255#32) (holding (voice .saw .uncoupled)) = [1#32] := by
  decide +kernel

/-- R212: the first samples of the first frame of a note. -/
theorem test_process :
    answer .process (holding (after (.toggle true) (voice .saw .uncoupled)))
      = [0#32, 0#32, 27#32, 156#32, 471#32] := by
  decide +kernel

theorem test_process_not_ready : answer .process State.reset = [4#32] := by decide

theorem test_get_status :
    answer .getStatus (holding (voice .saw .uncoupled)) = [0#32, 1#32]
      ∧ answer .getStatus State.reset = [0#32, 0#32] := by
  decide +kernel

theorem test_get_freq1 : answer .getFreq1 (holding (voice .sine .fifth)) = [0#32, 0x01B80000#32] := by
  decide +kernel

theorem test_get_freq2 :
    answer .getFreq2 (holding (voice .sine .fifth)) = [0#32, 0x0293414F#32]
      ∧ answer .getFreq2 (holding (voice .saw .uncoupled)) = [0#32, 0#32] := by
  decide +kernel

theorem test_get_int : answer .getInt (holding (voice .saw .uncoupled)) = [0#32, 8388608#32] := by
  decide +kernel

theorem test_get_fc : answer .getFc (holding (voice .saw .uncoupled)) = [0#32, 0x03E80000#32] := by
  decide +kernel

theorem test_get_q : answer .getQ (holding (voice .saw .uncoupled)) = [0#32, 46341#32] := by
  decide +kernel

theorem test_get_gain : answer .getGain (holding (voice .saw .uncoupled)) = [0#32, 65536#32] := by
  decide +kernel

theorem test_get_stage :
    answer .getStage (holding (withEnv (env 1#32 1#32 1#32 .release))) = [0#32, 4#32] := by
  decide +kernel

theorem test_get_factor :
    answer .getFactor (holding (withEnv { env 1#32 1#32 1#32 .sustain with factor := 5872026#24 }))
      = [0#32, 5872026#32] := by
  decide +kernel

theorem test_get_fs : answer .getFs (holding (voice .saw .uncoupled)) = [0#32, 48000#32] := by
  decide +kernel

theorem test_get_n : answer .getN (holding (voice .saw .uncoupled)) = [0#32, 4#32] := by
  decide +kernel

theorem test_get_mode : answer .getMode (holding (voice .square .octave)) = [0#32, 0x402#32] := by
  decide +kernel

/-- R66, R253: through `step`, with the word that follows left in the stream. -/
theorem test_step_ebadop :
    step (sent [0x10010000#32, 7#32, 8#32]) = .next { sent [8#32] with resp := [5#32] } := by
  rfl

/-! ### Samples and reference functions -/

/-- R108: sample 109 underflows. -/
theorem test_saw_wrap :
    ((sawSample ⟨8388607#23, 153791#24, BitVec.ofInt 32 (-8374612)⟩).1,
      (sawSample ⟨8388607#23, 153791#24, BitVec.ofInt 32 (-8374612)⟩).2.amp.toInt)
      = (-8374612, 8248811) := by
  decide +kernel

/-- V-SQ-1. -/
theorem test_square_half :
    (sqHalf 28835840 48000, sqHalf 1048576000 48000, sqHalf 1572798464 48000) = (55, 2, 1) := by
  decide +kernel

/-- R116, R117. -/
theorem test_sine_value :
    (phase 28835840 1 48000, phase 28835840 110 48000) = (0x0258BF25#32, 0x02222222#32)
      ∧ (sineValue chip 8388608#24 39370533#32, sineValue chip 8388608#24 118111600#32)
        = (482882, 1442246) := by
  decide +kernel

/-- R120: the example. -/
theorem test_transition_table :
    ((transitionTable 28835840#32 57671680#32 48000#32)[0]).toNat = 39524324 := by
  decide +kernel

/-- R125: V-SIN-4, an intensity of 0 takes the lowest index of the slope. -/
theorem test_resync_silent :
    resyncIndex chip 48000#32 65536000#32 0#24 3632826378#32 0 = 0 := by
  decide +kernel

/-- R142. -/
theorem test_factors :
    ((env 1200#32 720#32 480#32 .idle).fac .attack 1, (env 1200#32 720#32 480#32 .idle).fac .decay 719,
      (env 1200#32 720#32 480#32 .idle).fac .release 479) = (6990, 5875522, 12234) := by
  decide +kernel

/-- R172: the second sample of the impulse response. -/
theorem test_biquad :
    (((voice .saw .uncoupled).filt.biquad 8388607).2.1.biquad 0).1 = 125337 := by
  decide +kernel

/-- R161: the first worked value of `DESIGN`. -/
theorem test_design :
    design 786432000#32 65536#32 65536#32 48000#32
      = some ⟨89478485#32, 178956971#32, 89478485#32, 0#32, 89478485#32⟩ := by
  decide +kernel

/-- R9: ties go away from zero. -/
theorem test_rshr_sym : (rshrSym 1 1, rshrSym (-1) 1, rshrSym 5 2, rshrSym (-5) 2) = (1, -1, 1, -1) := by
  decide +kernel

/-! ### Witnesses: states and operands that meet the hypotheses of the statements

Each theorem is named after the statement; a statement of several clauses has its clauses' boundary
values side by side. -/

/-- Parameters with a design that never fails and a sine at full scale: for hypotheses that speak of
every phase or every cutoff. -/
def flat : Params :=
  { chip with
    sinrom := fun _ => 8388608
    design := fun _ _ _ _ => some ⟨1#32, 2#32, 1#32, 0#32, 0#32⟩ }

/-- The saw of R105's example. -/
def saw : SawRegs := sawInit 48000#32 28835840#32 8388608#24

/-- The sine of R115, with the transition state given. -/
def sine (tr : Transition) : SineRegs := { sineInit 28835840#32 8388608#24 with tr := tr }

theorem witness_IllegalHeaders_unknown :
    (∀ k, ((0x03000000#32).toNat / 2 ^ 24, k) ∉ operandCounts)
      ∧ ∀ k, ((0xFFFFFFFF#32).toNat / 2 ^ 24, k) ∉ operandCounts := by
  simp [operandCounts]

theorem witness_IllegalHeaders_fields :
    (((0x02000001#32).toNat / 2 ^ 24, 13) ∈ operandCounts ∧ (0x02000001#32).toNat % 2 ^ 16 ≠ 0)
      ∧ (((0x12000002#32).toNat / 2 ^ 24, 0) ∈ operandCounts
        ∧ 2 ≤ (0x12000002#32).toNat % 2 ^ 16)
      ∧ (((0x400C0000#32).toNat / 2 ^ 24, 0) ∈ operandCounts
        ∧ 11 < (0x400C0000#32).toNat / 2 ^ 16 % 2 ^ 8)
      ∧ 13 ≤ (List.replicate 13 (0#32)).length := by
  decide +kernel

theorem witness_WaitsForWords :
    (sent []).cmd = []
      ∧ operandCount (opField 0x02000000#32) = some 13
      ∧ (List.replicate 12 (0#32)).length < 13 := by
  decide +kernel

theorem witness_StepRunsCommand :
    decode (sent [0x30000000#32, 5#32]).cmd = .command .process [5#32]
      ∧ (sent [0x30000000#32, 5#32]).cmd = encode .process ++ [5#32] := by
  decide +kernel

/-- At parameters other than the machine's a step runs the command at those parameters. -/
theorem witness_StepRunsCommand_params :
    step (sent [0x30000000#32, 5#32]) = stepWith chip (sent [0x30000000#32, 5#32])
      ∧ stepWith flat (sent [0x30000000#32, 5#32]) = execWith flat .process (sent [5#32]) :=
  ⟨rfl, rfl⟩

theorem witness_FailedCommandDropped :
    step (sent [0x30000000#32, 0#32]) = .next { sent [0#32] with resp := [4#32] }
      ∧ (4#32 : Word) ≠ 0#32 := by
  exact ⟨rfl, by decide⟩

theorem witness_StreamsAppendOnly :
    decode (sent [0#32]).cmd ≠ .incomplete
      ∧ step (sent [0#32]) = .next { sent [] with resp := [0#32] } := by
  exact ⟨by decide +kernel, rfl⟩

theorem witness_StreamsAppendOnly_params :
    commandStep flat [0x30000000#32, 5#32] ⟨none, Sticky.clear⟩
        = { rest := [5#32], out := [4#32], regs := ⟨none, Sticky.clear⟩ }
      ∧ commandStep flat [0x02000000#32] ⟨none, Sticky.clear⟩
        = { rest := [0x02000000#32], out := [], regs := ⟨none, Sticky.clear⟩ } := by
  decide +kernel

theorem witness_NotReady :
    needsConfig (.filtSweep 1#32 256#32) = true ∧ State.reset.voice = none
      ∧ (sent (encode (.filtSweep 1#32 256#32))).voice = none := by
  decide +kernel

theorem witness_EinvalCauses :
    (holding (voice .saw .uncoupled)).voice = some (voice .saw .uncoupled)
      ∧ exec .nop State.reset = .next { State.reset with resp := [0#32] } :=
  ⟨rfl, rfl⟩

theorem witness_EagainCauses :
    (holding (withFilter true true)).voice = some (withFilter true true)
      ∧ exec (.setInt 0#32) State.reset = .next { State.reset with resp := [4#32] } :=
  ⟨rfl, rfl⟩

/-- A busy oscillator, crossfade, sweep and envelope that SET_INT leaves busy. -/
theorem witness_BusyPersists :
    answer (.setInt 1#32) (holding (withFilter true true)) = [0#32]
      ∧ (withFilter true true).filt.xfOn = true ∧ (withFilter true true).filt.swOn = true
      ∧ (after (.setFreq 28835840#32) (voice .sine .fifth)).o1.busy = true
      ∧ (after (.setFreq 28835840#32) (voice .sine .fifth)).osc2Busy = true
      ∧ (after (.toggle true) (voice .sine .fifth)).env.stage.busy = true := by
  decide +kernel

/-- Note off in an attack whose release has one sample, and in one whose release is empty (log 16). -/
theorem witness_BusyPersists_noteOff :
    (withEnv (env 1#32 0#32 1#32 .attack)).env.nr ≠ 0#32
      ∧ (withEnv (env 1#32 0#32 1#32 .attack)).env.stage.busy = true
      ∧ (after (.toggle false) (withEnv (env 1#32 0#32 1#32 .attack))).env.stage.busy = true
      ∧ (after (.toggle false) (withEnv (env 1#32 0#32 0#32 .attack))).env.stage.busy = false := by
  decide +kernel

/-- Every limit of CONFIG at its last legal value: frame size, intensity, sustain, durations, and the
highest frequency. -/
theorem witness_ConfigRegisters :
    (48000#32 : Word) ≠ 0#32 ∧ (65536#32 : Word) ≠ 0#32 ∧ (65536#32).toNat ≤ chip.frameMax
      ∧ (Waveform.square, (2#32).toNat) ∈ [(Waveform.saw, 0), (.sine, 1), (.square, 2)]
      ∧ (Coupling.uncoupled, (0#32).toNat) ∈ [(Coupling.uncoupled, 0), (.minorThird, 1),
        (.majorThird, 2), (.fifth, 3), (.octave, 4)]
      ∧ (8388608#32).toNat ≤ 2 ^ 23 ∧ (65535#32).toNat ≤ 65535
      ∧ (65535#32).toNat * (48000#32).toNat / 1000 < 2 ^ 32
      ∧ (0x5DBFFFFF#32 : Word) ≠ 0#32 ∧ (0x5DBFFFFF#32).toNat < (48000#32).toNat * 2 ^ 15
      ∧ ¬CoupledBad (0#32).toNat (0x5DBFFFFF#32).toNat (48000#32).toNat
      ∧ chip.design 786432000#32 65536#32 65536#32 48000#32
        = some ⟨89478485#32, 178956971#32, 89478485#32, 0#32, 89478485#32⟩ := by
  refine ⟨by decide, by decide, by decide, by decide, by decide, by decide, by decide, by decide,
    by decide, by decide, ?_, by decide +kernel⟩
  rintro ⟨r, hr, _⟩
  simp [ratioTable] at hr

/-- The same with two oscillators: octave coupling just below a quarter of the sampling rate. -/
theorem witness_ConfigRegisters_coupled :
    (Coupling.octave, (4#32).toNat) ∈ [(Coupling.uncoupled, 0), (.minorThird, 1), (.majorThird, 2),
        (.fifth, 3), (.octave, 4)]
      ∧ ¬CoupledBad (4#32).toNat (786431999#32).toNat (48000#32).toNat := by
  refine ⟨by decide, ?_⟩
  rintro ⟨r, hr, hb⟩
  simp only [ratioTable, List.mem_cons, Prod.mk.injEq, List.not_mem_nil] at hr
  obtain ⟨h, -⟩ | ⟨h, -⟩ | ⟨h, -⟩ | ⟨-, rfl⟩ | h := hr
  · cases h
  · cases h
  · cases h
  · revert hb
    decide
  · cases h

theorem witness_SetFreqEffect :
    (holding (voice .saw .uncoupled)).voice = some (voice .saw .uncoupled)
      ∧ VoiceInv chip (voice .saw .uncoupled) ∧ (1#32 : Word) ≠ 0#32
      ∧ (1#32).toNat < (voice .saw .uncoupled).cfg.fs.toNat * 2 ^ 15
      ∧ ¬CoupledBad (voice .saw .uncoupled).cfg.coupling.code (1#32).toNat
          (voice .saw .uncoupled).cfg.fs.toNat
      ∧ (voice .saw .uncoupled).o1.busy = false ∧ (voice .saw .uncoupled).osc2Busy = false
      ∧ (voice .saw .uncoupled).o2 = none := by
  refine ⟨rfl, voice_saw_inv, by decide, by decide +kernel, ?_, rfl, rfl, rfl⟩
  rintro ⟨r, hr, _⟩
  simp [ratioTable, Coupling.code, voice, voiceInit] at hr

/-- The same with a coupled sine, at the highest frequency whose fifth is in range. -/
theorem witness_SetFreqEffect_coupled :
    VoiceInv chip (voice .sine .fifth)
      ∧ (1049760775#32).toNat < (voice .sine .fifth).cfg.fs.toNat * 2 ^ 15
      ∧ (3, 1608794974) ∈ ratioTable ∧ 1049760775 * 1608794974 / 2 ^ 30 < 48000 * 2 ^ 15
      ∧ ¬1049760776 * 1608794974 / 2 ^ 30 < 48000 * 2 ^ 15
      ∧ (voice .sine .fifth).cfg.coupling.code = 3
      ∧ (voice .sine .fifth).o1.busy = false ∧ (voice .sine .fifth).osc2Busy = false
      ∧ (voice .sine .fifth).o2.isSome = true :=
  ⟨voice_sine_inv, by decide +kernel⟩

/-- The range and the busy clause: no frequency, the lowest one out of range, and a sine that has a
transition pending. -/
theorem witness_SetFreqEffect_fails :
    (voice .saw .uncoupled).cfg.fs.toNat * 2 ^ 15 ≤ (0x5DC00000#32).toNat
      ∧ VoiceInv chip (after (.setFreq 28835840#32) (voice .sine .fifth))
      ∧ (after (.setFreq 28835840#32) (voice .sine .fifth)).o1.busy = true := by
  refine ⟨by decide +kernel, ?_, by decide +kernel⟩
  have h : (voice .sine .fifth).setFrequency 28835840#32
      = .ok (after (.setFreq 28835840#32) (voice .sine .fifth)) := by decide +kernel
  exact Voice.setFrequency_inv voice_sine_inv h

theorem witness_SetIntEffect :
    (holding (voice .square .octave)).voice = some (voice .square .octave)
      ∧ VoiceInv chip (voice .square .octave) ∧ (8388608#32).toNat ≤ 2 ^ 23
      ∧ 2 ^ 23 < (8388609#32).toNat
      ∧ (voice .square .octave).o2.isSome = true :=
  ⟨rfl, voice_square_inv, by decide, by decide, by decide +kernel⟩

/-- Note on: idle with a first stage of each kind, sustain, and a busy stage. -/
theorem witness_NoteOnEffect :
    (env 1#32 0#32 0#32 .idle).stage = .idle ∧ (env 1#32 0#32 0#32 .idle).na ≠ 0#32
      ∧ (env 0#32 1#32 0#32 .idle).na = 0#32 ∧ (env 0#32 1#32 0#32 .idle).nd ≠ 0#32
      ∧ (env 0#32 0#32 0#32 .idle).nd = 0#32
      ∧ (env 0#32 0#32 0#32 .sustain).stage = .sustain
      ∧ (env 1#32 0#32 0#32 .attack).stage = .attack
      ∧ (holding (withEnv (env 1#32 0#32 0#32 .idle))).voice
        = some (withEnv (env 1#32 0#32 0#32 .idle)) := by
  decide +kernel

/-- Note off: a stage of each clause, with a release of length 0 and 1. -/
theorem witness_NoteOffEffect :
    (withEnv (env 0#32 0#32 0#32 .idle)).env.stage = .idle
      ∧ (withEnv (env 0#32 0#32 1#32 .release)).env.stage = .release
      ∧ (withEnv (env 1#32 0#32 0#32 .attack)).env.stage = .attack
      ∧ (withEnv (env 0#32 0#32 1#32 .sustain)).env.stage = .sustain
      ∧ (withEnv (env 1#32 0#32 0#32 .attack)).env.nr = 0#32
      ∧ (withEnv (env 0#32 0#32 1#32 .sustain)).env.nr ≠ 0#32 := by
  decide +kernel

/-- The trigger succeeds for note on in `IDLE` and for note off. -/
theorem witness_NoteEffects_trigger :
    ((env 1#32 0#32 0#32 .idle).trigger true 8388608#24).isOk = true
      ∧ ((env 1#32 0#32 0#32 .attack).trigger false 8388608#24).isOk = true := by
  decide +kernel

theorem witness_FiltUpdateEffect :
    (chip.design 1#32 46341#32 65536#32 48000#32).isSome = true
      ∧ (withFilter true false).filt.swOn = false ∧ (withFilter true true).filt.swOn = true
      ∧ chip.design 0x5DC00000#32 46341#32 65536#32 48000#32 = none := by
  decide +kernel

/-- A sweep of one segment and one of two, to the ends of the cutoff's range. -/
theorem witness_FiltSweepEffect :
    (255#32).toNat < 256
      ∧ (voice .saw .uncoupled).cfg.fs.toNat * 2 ^ 15 ≤ (0x5DC00000#32).toNat
      ∧ (withFilter true false).filt.xfOn = true
      ∧ 256 ≤ (256#32).toNat ∧ 256 ≤ (512#32).toNat ∧ (1#32 : Word) ≠ 0#32
      ∧ (0x5DBFFFFF#32).toNat < (voice .saw .uncoupled).cfg.fs.toNat * 2 ^ 15
      ∧ (voice .saw .uncoupled).filt.swOn = false ∧ (voice .saw .uncoupled).filt.xfOn = false
      ∧ (chip.design 1#32 46341#32 65536#32 48000#32).isSome = true := by
  decide +kernel

/-- A first segment whose design fails: a gain near 65536 designs at 1 Hz and not at 12000 Hz. -/
theorem witness_FiltSweepEffect_fails :
    (chip.design 65536#32 46341#32 0xFFFFFFFF#32 48000#32).isSome = true
      ∧ chip.design 786432000#32 46341#32 0xFFFFFFFF#32 48000#32 = none := by
  decide +kernel

theorem witness_ProcessIsVoiceSamples :
    (holding (voice .square .octave)).voice = some (voice .square .octave)
      ∧ (voice .square .octave).cfg.n.toNat = 4 := by
  decide +kernel

theorem witness_FrameWiseEqualsSampleWise :
    (holding (voice .saw .uncoupled)).voice = some (voice .saw .uncoupled) := rfl

theorem witness_VoiceSamplePipeline :
    (voice .saw .uncoupled).o2 = none ∧ (voice .square .octave).o2.isSome = true := by
  decide +kernel

theorem witness_ProcessKeepsParameters :
    (holding (voice .sine .fifth)).voice = some (voice .sine .fifth) := rfl

theorem witness_GetViews :
    (holding (voice .sine .fifth)).voice = some (voice .sine .fifth) ∧ State.reset.voice = none
      ∧ ((voice .sine .fifth).env.stage, 0#32) ∈ [(Stage.idle, 0#32), (.attack, 1#32),
        (.decay, 2#32), (.sustain, 3#32), (.release, 4#32)]
      ∧ ((voice .sine .fifth).cfg.kind, 1) ∈ [(Waveform.saw, 0), (.sine, 1), (.square, 2)]
      ∧ ((voice .sine .fifth).cfg.coupling, 3) ∈ [(Coupling.uncoupled, 0), (.minorThird, 1),
        (.majorThird, 2), (.fifth, 3), (.octave, 4)]
      ∧ (0x400C0000#32).toNat / 2 ^ 24 = 0x40 ∧ 11 < (0x400C0000#32).toNat / 2 ^ 16 % 2 ^ 8
      ∧ (0x40000001#32).toNat / 2 ^ 24 = 0x40 ∧ (0x40000001#32).toNat % 2 ^ 16 ≠ 0 := by
  decide +kernel

/-- A sticky bit through a NOP, and cleared by RESET. -/
theorem witness_StickyBits :
    step { sent [0x00000000#32] with sticky := ⟨true, true, true⟩ }
        = .next { State.reset with resp := [0#32], sticky := ⟨true, true, true⟩ }
      ∧ step { sent [0x01000000#32] with sticky := ⟨true, true, true⟩ }
        = .next { State.reset with resp := [0#32] }
      ∧ ∀ rest, decode [0x00000000#32] ≠ .command .getStatus rest :=
  ⟨rfl, rfl, fun rest h => by cases h⟩

theorem witness_RshrSymNearest :
    2 * |(1 : Int) - rshrSym 1 1 * 2 ^ 1| = 2 ^ 1 ∧ 2 * |(-1 : Int) - rshrSym (-1) 1 * 2 ^ 1| = 2 ^ 1 := by
  decide +kernel

theorem witness_SatFsClamps :
    (8388607 : Int) < 8388608 ∧ (-8388608 : Int) < -8388607 ∧ (-8388607 : Int) ≤ -8388607
      ∧ (8388607 : Int) ≤ 8388607 := by
  decide

theorem witness_IntegerDivisions :
    (0 : Int) < 1 ∧ (0 : Int) ≤ 0 ∧ (-1 : Int) < 0 ∧ (0 : Nat) < 1 := by decide

theorem witness_WrapsUnique :
    (1 : Nat) ≤ 1 ∧ (-1 : Int) = wrapS 1 1 ∧ (1 : Int) = wrapU 1 (-1) := by decide +kernel

/-- The lowest amplitude that does not underflow and the highest step, which does. -/
theorem witness_SawSample :
    |(BitVec.ofInt 32 (-99) : Word).toInt| ≤ ((99#23).toNat : Int) ∧ (99#24).toNat ≤ (99#23).toNat
      ∧ -((99#23).toNat : Int) ≤ (0#32).toInt - (99#24).toNat
      ∧ (BitVec.ofInt 32 (-1) : Word).toInt - (99#24).toNat < -((99#23).toNat : Int) := by
  decide +kernel

theorem witness_SawFallsModuloPeak :
    FreqOk (28835840#32).toNat (48000#32).toNat ∧ SawInv 48000#32 28835840#32 8388608#24 saw :=
  ⟨by decide, sawInit_inv (by decide) (by decide)⟩

/-- A saw oscillator and a square one. -/
theorem witness_oscillatorSamples :
    (voice .saw .uncoupled).o1.wave = .saw saw
      ∧ ({ f := 1#32, i := 0#24, wave := .square ⟨1#23, .plus, 0#32, 1#32⟩ } : Osc).wave
        = .square ⟨1#23, .plus, 0#32, 1#32⟩ :=
  ⟨rfl, rfl⟩

/-- A count that fills the half-period and one that does not. -/
theorem witness_SquareSample :
    (⟨1#23, .plus, 0#32, 1#32⟩ : SquareRegs).half.toNat ≤ (0#32).toNat + 1
      ∧ (0#32).toNat + 1 < (⟨1#23, .plus, 0#32, 2#32⟩ : SquareRegs).half.toNat := by
  decide

theorem witness_SquarePeriod :
    (⟨1#23, .minus, 0#32, 1#32⟩ : SquareRegs).cnt = 0#32
      ∧ 1 ≤ (⟨1#23, .minus, 0#32, 1#32⟩ : SquareRegs).half.toNat ∧ 1 < 2 * (1#32).toNat := by
  decide

theorem witness_SineRampAndSteadySample :
    (sine .none).iEff.toNat ≤ 2 ^ 23 ∧ (0#24).toNat ≤ 2 ^ 23 ∧ 999 < 1000 ∧ 1000 ≤ 1000 := by
  decide +kernel

/-- The steady sample: the last index, a ramp at its last step and the one before it, and an armed
transition at a phase that fell and at one that did not. -/
theorem witness_SineRampAndSteadySample_steady :
    (sine .none).tr ≠ .run ∧ (sine .none).rampOn = false ∧ (sine .run).tr = .run
      ∧ ({ sine .armed with n := 0xFFFFFFFF#32 } : SineRegs).tr ≠ .run
      ∧ (998#10).toNat < 999 ∧ 999 ≤ (999#10).toNat
      ∧ phase (sine .armed).fCur.toNat (sine .armed).n.toNat 48000 < 1#32
      ∧ ¬phase (sine .armed).fCur.toNat (sine .armed).n.toNat 48000 < (sine .armed).pPrev := by
  decide +kernel

/-- A sine oscillator passes its own frequency on. -/
theorem witness_SineRampAndSteadySample_osc :
    ({ f := 28835840#32, i := 8388608#24, wave := .sine (sine .none) } : Osc).wave
      = .sine (sine .none) := rfl

/-- R127: the wrap flag at the last index, and not at the one before it. -/
theorem test_idxWrap :
    (sineSample flat 48000#32 28835840#32 { sine .none with n := 0xFFFFFFFF#32 }).2.2 = true
      ∧ (sineSample flat 48000#32 28835840#32 { sine .none with n := 0xFFFFFFFE#32 }).2.2 = false := by
  decide +kernel

theorem witness_CrossingIsWholeTurn :
    FreqOk (1#32).toNat (1#32).toNat ∧ FreqOk (0x5DBFFFFF#32).toNat (48000#32).toNat := by
  decide

theorem witness_ArmedTransitionStarts :
    (sine .armed).tr = .armed ∧ FreqOk (sine .armed).fCur.toNat (48000#32).toNat
      ∧ (sine .armed).pPrev = phase (sine .armed).fCur.toNat ((sine .armed).n.toNat - 1) 48000
      ∧ (sine .armed).n.toNat
          + ((48000#32).toNat * 2 ^ 16 + (sine .armed).fCur.toNat - 1) / (sine .armed).fCur.toNat + 1
        ≤ 2 ^ 32 := by
  decide +kernel

theorem witness_TransitionRuns256 :
    ∃ at' : Nat → SineRegs, (sine .run).tr = .run ∧ (sine .run).trK = 0#8 ∧ at' 0 = sine .run
      ∧ ∀ k, at' (k + 1) = (sineSample chip 48000#32 57671680#32 (at' k)).2.1 :=
  ⟨fun k => Nat.rec (sine .run) (fun _ r => (sineSample chip 48000#32 57671680#32 r).2.1) k,
    rfl, rfl, rfl, fun _ => rfl⟩

theorem witness_ResyncClosestIndex : FreqOk (57671680#32).toNat (48000#32).toNat := by decide

/-- R124's boundary values, and the phases just below them. -/
theorem test_ascending :
    (ascending 0#32, ascending 0x3FFFFFFF#32, ascending 0x40000000#32, ascending 0xBFFFFFFF#32,
        ascending 0xC0000000#32, ascending 0xFFFFFFFF#32)
      = (true, true, false, false, true, true) := by
  decide

theorem witness_SamplesWithinFullScale :
    (∀ p, |flat.sinrom p| ≤ 2 ^ 23) ∧ UnitOk (8388608#24).toNat
      ∧ OscInv .saw 48000#32 8388608#24 (oscInit .saw 48000#32 28835840#32 8388608#24)
      ∧ OscInv .sine 48000#32 8388608#24 (oscInit .sine 48000#32 28835840#32 8388608#24)
      ∧ (8388608 : Nat) ≤ 2 ^ 23 :=
  ⟨fun _ => by show |(8388608 : Int)| ≤ 2 ^ 23; decide, by decide,
    oscInit_inv (by decide) (by decide), oscInit_inv (by decide) (by decide), by decide⟩

/-- Lengths 0 and 1 of each stage, and a stage of each kind for note off. -/
theorem witness_EnvelopeTimeline :
    (env 1#32 0#32 0#32 .idle).stage = .idle ∧ UnitOk (env 1#32 0#32 0#32 .idle).s.toNat
      ∧ UnitOk (8388608#24).toNat ∧ 0 < (env 1#32 0#32 0#32 .idle).na.toNat
      ∧ (env 0#32 1#32 0#32 .attack).stage = .attack ∧ (env 0#32 0#32 1#32 .decay).stage = .decay
      ∧ (env 0#32 0#32 1#32 .sustain).stage = .sustain := by
  decide +kernel

theorem witness_CrossfadeLandsOnDesign :
    ((voice .saw .uncoupled).filt.update chip 48000#32 131072000#32 46341#32 65536#32).toOption.isSome
        = true
      ∧ (chip.design 131072000#32 46341#32 65536#32 48000#32).isSome = true
      ∧ (List.replicate 255 (0 : Int)).length < 256 ∧ 256 ≤ (List.replicate 256 (0 : Int)).length := by
  decide +kernel

theorem witness_SweepLandsOnTarget :
    ((voice .saw .uncoupled).filt.startSweep flat 48000#32 131072000#32 1000#32).toOption.isSome
        = true
      ∧ (∀ fc q gain fs : Word, flat.design fc q gain fs ≠ none)
      ∧ (List.replicate 767 (0 : Int)).length < (1000#32).toNat / 256 * 256
      ∧ (1000#32).toNat / 256 * 256 ≤ (List.replicate 768 (0 : Int)).length :=
  ⟨by decide +kernel, fun _ _ _ _ => by simp [flat], by decide +kernel, by decide +kernel⟩

/-- A segment that ends before a cutoff without a design (the gain of `witness_FiltSweepEffect_fails`),
the last segment and one before it. -/
theorem witness_SweepLandsOnTarget_fails :
    (0#32 : Word) ≠ 1#32 ∧ (1#32 : Word) ≠ 0#32 ∧ (2#32 : Word) ≠ 0#32
      ∧ chip.design 786432000#32 46341#32 0xFFFFFFFF#32 48000#32 = none
      ∧ (({ (voice .saw .uncoupled).filt with
            gain := 0xFFFFFFFF#32, xfOn := true, xfIdx := 255#8, swOn := true
            swRem := 1#32, swTarget := 786432000#32 } : Filter).advance chip 48000#32).2 = true
      ∧ (({ (voice .saw .uncoupled).filt with
            gain := 0xFFFFFFFF#32, xfOn := true, xfIdx := 255#8, swOn := true
            swRem := 2#32, fc := 786431999#32, swDelta := 1#33 } : Filter).advance chip
              48000#32).2 = true := by
  decide +kernel

theorem witness_BiquadSample :
    (-2 ^ 31 : Int) ≤ -2147483648 ∧ (2147483647 : Int) < 2 ^ 31
      ∧ (voice .saw .uncoupled).filt.xfOn = false
      ∧ (voice .saw .uncoupled).filt.advance chip 48000#32 = ((voice .saw .uncoupled).filt, false)
      ∧ |(8388608 : Int)| ≤ 2 ^ 23 ∧ |(voice .saw .uncoupled).filt.x1.toInt| ≤ 2 ^ 23
      ∧ |(voice .saw .uncoupled).filt.cur.a1.toInt| ≤ 2 ^ 29
      ∧ |(voice .saw .uncoupled).filt.cur.a2.toInt| ≤ 2 ^ 28 := by
  decide +kernel

/-- A buffer of one sample. -/
theorem witness_BiquadSample_buffer :
    Filter.process chip 48000#32 [] ((voice .saw .uncoupled).filt.sample chip 48000#32 0).filt
      = ([], ((voice .saw .uncoupled).filt.sample chip 48000#32 0).filt, false, false) := rfl

/-- R177's example, with the largest rest state and the next constant. -/
theorem witness_RestStates :
    0 ≤ 2 ^ 28 + (voice .saw .uncoupled).filt.cur.a1.toInt
          + (voice .saw .uncoupled).filt.cur.a2.toInt
      ∧ (31 : Int) * 4204909 ≤ 2 ^ 27 ∧ ¬(32 : Int) * 4204909 ≤ 2 ^ 27
      ∧ ({ (voice .saw .uncoupled).filt with y1 := 31#32, y2 := 31#32 } : Filter).y1 = 31#32 := by
  decide +kernel

theorem witness_RatioNearest :
    (Coupling.octave, 12, 2147483648) ∈ [(Coupling.minorThird, 3, 1276901417),
      (Coupling.majorThird, 4, 1352829926), (Coupling.fifth, 7, 1608794974),
      (Coupling.octave, 12, 2147483648)] := by
  decide

theorem witness_CoupleAccuracy :
    (Coupling.minorThird, 3) ∈ [(Coupling.minorThird, 3), (Coupling.majorThird, 4),
      (Coupling.fifth, 7), (Coupling.octave, 12)] := by
  decide

theorem witness_DefaultParameters : (0#8 : BitVec 8) ≤ 255#8 := by decide

theorem witness_SinromProperties :
    (0x80000000#32).toNat ≤ 2 ^ 31 ∧ 2 ^ 31 ≤ (0x80000000#32).toNat := by decide

theorem witness_DesignProperties :
    (48000#32).toNat * 2 ^ 15 ≤ (0x5DC00000#32).toNat
      ∧ FreqOk (0x5DBFFFFF#32).toNat (48000#32).toNat
      ∧ (262143#32).toNat ≤ 4 * 2 ^ 16 - 1
      ∧ (chip.design 65536000#32 46341#32 0#32 48000#32).isSome = true := by
  decide +kernel

/-- At a quarter of the sampling rate and Q 1 the largest coefficient is two thirds of the gain: it
fits at a gain just below 12 and does not at 12 (R15 by hand: `k = 1`, `norm = 1/3`). -/
theorem witness_DesignProperties_edge :
    (chip.design 786432000#32 65536#32 786431#32 48000#32).isSome = true
      ∧ chip.design 786432000#32 65536#32 786432#32 48000#32 = none
      ∧ (2 / 3 * (786431 / 2 ^ 16) * 2 ^ 28 : ℚ) ≤ 2 ^ 31 - 1 / 2 - 1 / 2 ^ 9
      ∧ (2 ^ 31 - 1 / 2 + 1 / 2 ^ 9 : ℚ) ≤ 2 / 3 * (786432 / 2 ^ 16) * 2 ^ 28 :=
  ⟨by decide +kernel, by decide +kernel, by norm_num, by norm_num⟩

theorem witness_DesignIsBilinearLowPass :
    chip.design 786432000#32 65536#32 65536#32 48000#32
      = some ⟨89478485#32, 178956971#32, 89478485#32, 0#32, 89478485#32⟩ := by
  decide +kernel

/-- A sound configured state. -/
theorem witness_StepKeepsInvariant : (holding (voice .sine .fifth)).Inv := by
  refine ⟨fun h => ?_, fun v h => ?_, fun v h _ => ?_⟩
  · cases h
  · cases h
    exact voice_sine_inv
  · cases h
    exact (configure_inv chip_designRange configured_sine).2

/-- The same at parameters other than the machine's, whose `DESIGN` fails outside (0, fs/2). -/
theorem witness_StepKeepsInvariant_params :
    DesignRange { chip with frameMax := 1 } ∧ State.reset.InvAt { chip with frameMax := 1 } :=
  ⟨chip_designRange, fun _ => rfl, fun _ h => (nomatch h), fun _ h => (nomatch h)⟩

theorem witness_ConfigurationReadOnly :
    step { holding (voice .saw .uncoupled) with cmd := [0x01000000#32] }
      = .next { State.reset with resp := [0#32] } := rfl

/-- R48: the bytes of a word in each order. -/
theorem test_word_bytes :
    bytesOfWord .little 0x12345678#32 = [0x78#8, 0x56#8, 0x34#8, 0x12#8]
      ∧ bytesOfWord .big 0x12345678#32 = [0x12#8, 0x34#8, 0x56#8, 0x78#8] := by
  decide +kernel

theorem witness_ByteTransport :
    ([] : List Byte).length < 4 ∧ ([1#8, 2#8, 3#8] : List Byte).length < 4 := by decide

end Sys2Proof.Tests
end

