-- ==== Sys2Proof/Proofs/ScopeArithmetic.lean ====
section
/-!
PROOFS. The arithmetic primitives of `00_scope.md` R7 to R12 and the machine's default parameters:
what each primitive is characterised by, and the obligations O31 to O34 and O52.
-/

namespace Sys2Proof.Machine

/-! ### Rounding shift (R9) -/

/-- `rshr_sym` is odd: it rounds the magnitude and puts the sign back. -/
theorem rshrSym_neg (v : Int) {k : Nat} (hk : 1 ≤ k) : rshrSym (-v) k = -rshrSym v k := by
  rcases lt_trichotomy v 0 with hv | rfl | hv
  · rw [rshrSym_of_neg hv, rshrSym_of_nonneg (by omega), neg_neg]
  · have hzero : rshrSym 0 k = 0 := by
      have h := rshrSym_le (v := 0) (m := 0) hk le_rfl (by simp) (by simp)
      omega
    simp [hzero]
  · rw [rshrSym_of_nonneg hv.le, rshrSym_of_neg (by omega), neg_neg]

/-- On a value that is not negative `rshr_sym` leaves an error in the half-open interval
[-1/2, 1/2): a tie goes up. -/
theorem rshrSym_error_of_nonneg {v : Int} (hv : 0 ≤ v) {k : Nat} (hk : 1 ≤ k) :
    -2 ^ k ≤ 2 * (v - rshrSym v k * 2 ^ k) ∧ 2 * (v - rshrSym v k * 2 ^ k) < 2 ^ k := by
  have hhalf : (2 : Int) ^ k = 2 * 2 ^ (k - 1) := by
    rw [← pow_succ', Nat.sub_add_cancel hk]
  have hlo := asr_mul_le (v + 2 ^ (k - 1)) k
  have hhi := lt_asr_succ_mul (v + 2 ^ (k - 1)) k
  rw [← rshrSym_of_nonneg hv, add_mul, one_mul] at hhi
  rw [← rshrSym_of_nonneg hv] at hlo
  constructor <;> linarith

/-- `rshr_sym` is nearest and sends a tie away from zero, where the value is not negative. -/
theorem rshrSym_nearest_of_nonneg {v : Int} (hv : 0 ≤ v) {k : Nat} (hk : 1 ≤ k) :
    2 * |v - rshrSym v k * 2 ^ k| ≤ 2 ^ k
      ∧ (2 * |v - rshrSym v k * 2 ^ k| = 2 ^ k → |v| < |rshrSym v k * 2 ^ k|) := by
  obtain ⟨hlo, hhi⟩ := rshrSym_error_of_nonneg hv hk
  have hp : (0 : Int) < 2 ^ k := by positivity
  rcases le_or_gt (rshrSym v k * 2 ^ k) v with h | h
  · rw [abs_of_nonneg (sub_nonneg.2 h)]
    exact ⟨hhi.le, fun htie => absurd htie hhi.ne⟩
  · rw [abs_of_neg (sub_neg.2 h), abs_of_nonneg hv, abs_of_pos (hv.trans_lt h)]
    exact ⟨by linarith, fun _ => h⟩

/-- Settles O31: the nonnegative case, carried to the negative values by oddness. -/
theorem rshrSymNearest : Obligations.RshrSymNearest := by
  intro v k hk
  have hodd := rshrSym_neg v hk
  rcases le_or_gt 0 v with hv | hv
  · obtain ⟨hnear, htie⟩ := rshrSym_nearest_of_nonneg hv hk
    exact ⟨hnear, htie, hodd⟩
  · obtain ⟨hnear, htie⟩ := rshrSym_nearest_of_nonneg (v := -v) (by omega) hk
    have herr : |-v - rshrSym (-v) k * 2 ^ k| = |v - rshrSym v k * 2 ^ k| := by
      rw [hodd, ← abs_neg]
      congr 1
      ring
    rw [herr, abs_neg v, hodd, neg_mul, abs_neg] at htie
    rw [herr] at hnear
    exact ⟨hnear, htie, hodd⟩

/-! ### Saturation and integer divisions (R10, R11) -/

/-- Settles O32: above, below and inside the two bounds of the clamp. -/
theorem satFsClamps : Obligations.SatFsClamps := by
  intro v
  have hfsc : (Config.fsc : Int) = 8388607 := rfl
  refine ⟨fun h => if_pos h, fun h => ?_, fun hlo hhi => ?_⟩
  · exact (if_neg (by omega)).trans (if_pos h)
  · exact (if_neg (by omega)).trans (if_neg (by omega))

/-- `fdiv` is the floor. -/
theorem fdiv_floor (a : Int) {b : Int} (hb : 0 < b) :
    fdiv a b * b ≤ a ∧ a < (fdiv a b + 1) * b :=
  ⟨Int.ediv_mul_le a hb.ne', Int.lt_ediv_add_one_mul_self a hb⟩

/-- `tdiv` of a dividend that is not negative is `fdiv`. -/
theorem tdiv_of_nonneg {a : Int} (ha : 0 ≤ a) (b : Int) : tdiv a b = fdiv a b := if_pos ha

/-- `tdiv` of a negative dividend is the `fdiv` of the magnitude, negated. -/
theorem tdiv_of_neg {a : Int} (ha : a < 0) (b : Int) : tdiv a b = -fdiv (-a) b :=
  if_neg (by omega)

/-- `cdiv` is the least multiplier that reaches the dividend. -/
theorem cdiv_ceiling (a : Nat) {b : Nat} (hb : 0 < b) :
    a ≤ cdiv a b * b ∧ ∀ m, a ≤ m * b → cdiv a b ≤ m := by
  have hreach : a + b - 1 < (cdiv a b + 1) * b := Nat.lt_mul_of_div_lt (Nat.lt_succ_self _) hb
  refine ⟨?_, fun m hm => ?_⟩
  · rw [add_mul, one_mul] at hreach
    omega
  · apply Nat.le_of_lt_succ
    rw [cdiv, Nat.div_lt_iff_lt_mul hb, Nat.succ_mul]
    omega

/-- Settles O33, one division at a time; the sign of the dividend decides `tdiv`. -/
theorem integerDivisions : Obligations.IntegerDivisions := by
  refine ⟨fun a b hb => ⟨fdiv_floor a hb, fun ha => ?_, fun ha => ?_⟩,
    fun a b hb => cdiv_ceiling a hb⟩
  · rw [tdiv_of_nonneg ha]
    exact ⟨Int.ediv_nonneg ha hb.le, fdiv_floor a hb⟩
  · obtain ⟨hlo, hhi⟩ := fdiv_floor (-a) hb
    have hmag : 0 ≤ fdiv (-a) b := Int.ediv_nonneg (by omega) hb.le
    rw [tdiv_of_neg ha]
    exact ⟨by linarith, by linarith, by linarith⟩

/-! ### Wraps (R7) -/

/-- Two integers of one interval of length `m` that are congruent modulo `m` are equal. -/
theorem eq_of_dvd_sub_of_mem_interval {m lo r t v : Int} (hr : lo ≤ r ∧ r < lo + m)
    (ht : lo ≤ t ∧ t < lo + m) (hrv : m ∣ r - v) (htv : m ∣ t - v) : r = t := by
  have hdvd : m ∣ r - t := by simpa using dvd_sub hrv htv
  have hzero := Int.eq_zero_of_abs_lt_dvd hdvd (abs_lt.2 ⟨by omega, by omega⟩)
  omega

/-- `wrap_N` lies in the signed range and is congruent to its argument. -/
theorem wrapS_spec {n : Nat} (hn : 1 ≤ n) (v : Int) :
    -(2 ^ (n - 1)) ≤ wrapS n v ∧ wrapS n v < 2 ^ (n - 1) ∧ (2 ^ n : Int) ∣ wrapS n v - v := by
  have hhalf : ((2 ^ n : Nat) : Int) = 2 * 2 ^ (n - 1) := by
    rw [← pow_succ', Nat.sub_add_cancel hn]
    push_cast
    rfl
  have hlo := Int.le_bmod (x := v) (m := 2 ^ n) (by positivity)
  have hhi := Int.bmod_lt (x := v) (m := 2 ^ n) (by positivity)
  have hdvd := Int.dvd_bmod_sub_self (x := v) (m := 2 ^ n)
  rw [hhalf] at hlo hhi
  exact ⟨by unfold wrapS; omega, by unfold wrapS; omega, by exact_mod_cast hdvd⟩

/-- `wrapu_N` lies in the unsigned range and is congruent to its argument. -/
theorem wrapU_spec (n : Nat) (v : Int) :
    (0 : Int) ≤ wrapU n v ∧ (wrapU n v : Int) < 2 ^ n ∧ (2 ^ n : Int) ∣ wrapU n v - v := by
  have hp : (0 : Int) < 2 ^ n := by positivity
  have hcast : (wrapU n v : Int) = v % 2 ^ n := Int.toNat_of_nonneg (Int.emod_nonneg v hp.ne')
  rw [hcast]
  exact ⟨Int.emod_nonneg v hp.ne', Int.emod_lt_of_pos v hp,
    (Int.mod_modEq v (2 ^ n)).symm.dvd⟩

/-- Settles O34: each wrap has the three properties, and they leave one integer. -/
theorem wrapsUnique : Obligations.WrapsUnique := by
  intro n v r hn
  have hhalf : (2 : Int) ^ n = 2 * 2 ^ (n - 1) := by
    rw [← pow_succ', Nat.sub_add_cancel hn]
  obtain ⟨hslo, hshi, hsdvd⟩ := wrapS_spec hn v
  obtain ⟨hulo, huhi, hudvd⟩ := wrapU_spec n v
  constructor
  · refine ⟨fun h => h ▸ wrapS_spec hn v, fun ⟨hlo, hhi, hdvd⟩ => ?_⟩
    exact eq_of_dvd_sub_of_mem_interval ⟨hlo, by omega⟩ ⟨hslo, by omega⟩ hdvd hsdvd
  · refine ⟨fun h => h ▸ wrapU_spec n v, fun ⟨hlo, hhi, hdvd⟩ => ?_⟩
    exact eq_of_dvd_sub_of_mem_interval ⟨hlo, by omega⟩ ⟨hulo, by omega⟩ hdvd hudvd

/-! ### Default parameters (R43, R47) -/

/-- The machine's crossfade table is the identity. -/
@[simp] theorem chip_xfade (i : BitVec 8) : chip.xfade i = i := rfl

/-- Settles O52: the table is the identity, so it keeps the order of its indices. -/
theorem defaultParameters : Obligations.DefaultParameters :=
  ⟨chip_xfade, fun i j hij => by simpa using hij, rfl⟩

end Sys2Proof.Machine
end

