-- ==== Sys2Proof/Proofs/ScopeStep.lean ====
section
/-!
PROOFS. What a step is a function of: the decoder of an encoded command and of a longer stream, the
commands as functions of the registers that only append to the response stream, and the obligations
O7 and O10.
-/

namespace Sys2Proof

/-! ### Decoding what was encoded (R60 to R66) -/

open Laws in
/-- The encoding of every command is a header with as many operand words as its opcode takes. -/
theorem encodeShape (i : Instr) : EncodeShape.Statement i := by
  cases i with
  | nop => exact EncodeShape.nop
  | reset => exact EncodeShape.reset
  | config => apply EncodeShape.config
  | setFreq f => exact EncodeShape.setFreq f
  | setInt x => exact EncodeShape.setInt x
  | toggle on => exact EncodeShape.toggle on
  | filtUpdate fc q gain => exact EncodeShape.filtUpdate fc q gain
  | filtSweep target total => exact EncodeShape.filtSweep target total
  | process => exact EncodeShape.process
  | getStatus => exact EncodeShape.getStatus
  | getFreq1 => exact EncodeShape.getFreq1
  | getFreq2 => exact EncodeShape.getFreq2
  | getInt => exact EncodeShape.getInt
  | getFc => exact EncodeShape.getFc
  | getQ => exact EncodeShape.getQ
  | getGain => exact EncodeShape.getGain
  | getStage => exact EncodeShape.getStage
  | getFactor => exact EncodeShape.getFactor
  | getFs => exact EncodeShape.getFs
  | getN => exact EncodeShape.getN
  | getMode => exact EncodeShape.getMode

/-- The decoder reads an encoded command back and leaves the words behind it. -/
theorem decode_encode_append (i : Instr) (rest : List Word) :
    decode (encode i ++ rest) = .command i rest := by
  obtain ⟨h, ops, henc, hcount, hcmd⟩ := encodeShape i
  rw [henc, List.cons_append, decode_operands ops rest hcount, hcmd]

/-! ### A longer command stream -/

/-- What the decoder has read, with `more` behind the words it has not consumed. -/
def Decoded.followedBy (more : List Word) : Decoded → Decoded
  | .command i rest => .command i (rest ++ more)
  | .unknownOpcode rest => .unknownOpcode (rest ++ more)
  | .reservedField rest => .reservedField (rest ++ more)
  | .incomplete => .incomplete

/-- Words behind a whole command do not change what the decoder reads. -/
theorem decode_append {ws : List Word} (h : decode ws ≠ .incomplete) (more : List Word) :
    decode (ws ++ more) = (decode ws).followedBy more := by
  cases ws with
  | nil => exact absurd rfl h
  | cons hd tail =>
    cases hk : operandCount (opField hd) with
    | none => rw [List.cons_append, decode_unknown _ hk, decode_unknown _ hk]; rfl
    | some k =>
      have hlen : k ≤ tail.length := by
        by_contra hlt
        exact h (decode_short hk (by omega))
      have htake : (tail.take k).length = k := List.length_take_of_le hlen
      have hsplit : tail = tail.take k ++ tail.drop k := (List.take_append_drop k tail).symm
      have hcount : operandCount (opField hd) = some (tail.take k).length := by rw [hk, htake]
      rw [hsplit, List.cons_append, List.append_assoc, decode_operands _ _ hcount,
        decode_operands _ _ hcount]
      cases commandOf hd (tail.take k) <;> rfl

end Sys2Proof

namespace Sys2Proof.Machine

/-! ### The step on a command (R61) -/

/-- The machine's commands are those of the parameters `chip`. -/
theorem exec_eq_execWith_chip (i : Instr) (s : State) : exec i s = execWith chip i s := by
  cases i <;> rfl

/-- The machine's step is that of the parameters `chip`. -/
theorem step_eq_stepWith_chip (s : State) : step s = stepWith chip s := by
  have hrun : exec = execWith chip := funext₂ exec_eq_execWith_chip
  rw [step, stepWith, hrun]

/-- A step with a whole command at the front of the stream consumes and runs it. -/
theorem stepBy_command (run : Instr → State → Host.Outcome State Fault Refusal) {s : State}
    {i : Instr} {rest : List Word} (h : decode s.cmd = .command i rest) :
    stepBy run s = run i { s with cmd := rest } := by
  rw [stepBy, h]
  rfl

/-- A step with an encoded command at the front of the stream consumes and runs it. -/
theorem stepBy_encode (run : Instr → State → Host.Outcome State Fault Refusal) {s : State}
    {i : Instr} {rest : List Word} (h : s.cmd = encode i ++ rest) :
    stepBy run s = run i { s with cmd := rest } :=
  stepBy_command run (by rw [h, decode_encode_append])

/-- Settles O7: the two ways to give the command, for the step around any way to run commands. -/
theorem stepRunsCommand : Obligations.StepRunsCommand :=
  ⟨fun _ _ _ => ⟨stepBy_command exec, stepBy_encode exec⟩,
    fun P _ _ _ => ⟨stepBy_command (execWith P), stepBy_encode (execWith P)⟩,
    fun s i => ⟨exec_eq_execWith_chip i s, step_eq_stepWith_chip s⟩⟩

/-! ### Commands as functions of the registers (R16, R52) -/

/-- From the registers `r` the command `run` answers a next state whatever the streams hold; it
leaves the command stream, appends the same words to any response stream and leaves the same
registers. -/
def AppendsFrom (run : State → Host.Outcome State Fault Refusal) (r : Registers) : Prop :=
  ∃ (out : List Word) (r' : Registers), ∀ cmd resp : List Word,
    run ⟨cmd, resp, r.voice, r.sticky⟩ = .next ⟨cmd, resp ++ out, r'.voice, r'.sticky⟩

/-- A failure appends its status word. -/
theorem appendsFrom_fail (st : Status) (r : Registers) : AppendsFrom (fail st) r :=
  ⟨[st.word], r, fun _ _ => rfl⟩

/-- A command that needs a Voice appends, if it does so on the Voice there is. -/
theorem appendsFrom_withVoice {k : State → Voice → Host.Outcome State Fault Refusal} {r : Registers}
    (hk : ∀ v, r.voice = some v → AppendsFrom (fun s => k s v) r) :
    AppendsFrom (fun s => withVoice s (k s)) r := by
  cases hv : r.voice with
  | none =>
    obtain ⟨out, r', h⟩ := appendsFrom_fail .enotready r
    exact ⟨out, r', fun cmd resp => (withVoice_none hv _).trans (h cmd resp)⟩
  | some v =>
    obtain ⟨out, r', h⟩ := hk v hv
    exact ⟨out, r', fun cmd resp => (withVoice_some hv _).trans (h cmd resp)⟩

/-- A control command appends its status word, whether its operation succeeds or fails. -/
theorem appendsFrom_control (op : Voice → Except Status (Voice × Sticky)) (r : Registers) :
    AppendsFrom (fun s => control s op) r := by
  refine appendsFrom_withVoice fun v _ => ?_
  cases op v with
  | error st => exact appendsFrom_fail st r
  | ok res => exact ⟨[Status.ok.word], ⟨some res.1, r.sticky.or res.2⟩, fun _ _ => rfl⟩

/-- A GET appends `OK` and the word it reads. -/
theorem appendsFrom_view (get : Voice → Word) (r : Registers) :
    AppendsFrom (fun s => view s get) r :=
  appendsFrom_withVoice fun v _ => ⟨[Status.ok.word, get v], r, fun _ _ => rfl⟩

/-- CONFIG appends its status word, and builds the Voice where it succeeds. -/
theorem appendsFrom_configWith (P : Params)
    (fs n kind coupling int f0 fc q gain att dec sus rel : Word) (r : Registers) :
    AppendsFrom (configWith P fs n kind coupling int f0 fc q gain att dec sus rel) r := by
  cases hc : configure P fs n kind coupling int f0 fc q gain att dec sus rel with
  | error st =>
    exact ⟨[st.word], r, fun _ _ => by rw [configWith, hc]; rfl⟩
  | ok v =>
    exact ⟨[Status.ok.word], ⟨some v, Sticky.clear⟩, fun _ _ => by rw [configWith, hc]; rfl⟩

/-- PROCESS appends `OK` and the samples of the Voice. -/
theorem appendsFrom_processWith (P : Params) (r : Registers) : AppendsFrom (processWith P) r :=
  appendsFrom_withVoice fun v _ =>
    ⟨Status.ok.word :: (v.process P v.cfg.n.toNat).out,
      ⟨some (v.process P v.cfg.n.toNat).voice, r.sticky.or (v.process P v.cfg.n.toNat).events⟩,
      fun _ _ => rfl⟩

/-- GET.STATUS appends `OK` and the status view, which reads the registers alone. -/
theorem appendsFrom_execGetStatus (r : Registers) : AppendsFrom execGetStatus r :=
  ⟨[Status.ok.word, State.statusView ⟨[], [], r.voice, r.sticky⟩], r, fun _ _ => rfl⟩

/-- Every command, at any parameters, is a function of the registers that appends its response. -/
theorem appendsFrom_execWith (P : Params) (i : Instr) (r : Registers) :
    AppendsFrom (execWith P i) r := by
  cases i with
  | nop => exact ⟨[Status.ok.word], r, fun _ _ => rfl⟩
  | reset => exact ⟨[Status.ok.word], ⟨none, Sticky.clear⟩, fun _ _ => rfl⟩
  | config => apply appendsFrom_configWith
  | setFreq | setInt | toggle | filtUpdate | filtSweep => exact appendsFrom_control _ r
  | process => exact appendsFrom_processWith P r
  | getStatus => exact appendsFrom_execGetStatus r
  | getFreq1 | getFreq2 | getInt | getFc | getQ | getGain | getStage | getFactor | getFs | getN
  | getMode => exact appendsFrom_view _ r

/-! ### The step as a function of stream and registers (R16, R41, R52) -/

/-- The step is a function of the command stream and the registers: it consumes the same words and
appends the same response, whatever responses stand there and, behind a whole command, whatever
words follow. -/
theorem stepWith_frame (P : Params) (cmd : List Word) (r : Registers) :
    ∃ (rest out : List Word) (r' : Registers), ∀ more resp : List Word,
      more = [] ∨ decode cmd ≠ .incomplete →
        stepWith P ⟨cmd ++ more, resp, r.voice, r.sticky⟩
          = .next ⟨rest ++ more, resp ++ out, r'.voice, r'.sticky⟩ := by
  cases hd : decode cmd with
  | command i rest =>
    obtain ⟨out, r', hrun⟩ := appendsFrom_execWith P i r
    refine ⟨rest, out, r', fun more resp _ => ?_⟩
    have hmore : decode (cmd ++ more) = .command i (rest ++ more) := by
      rw [decode_append (by simp [hd]), hd]; rfl
    rw [stepWith, stepBy_command _ hmore, hrun]
  | unknownOpcode rest =>
    refine ⟨rest, [Status.ebadop.word], r, fun more resp _ => ?_⟩
    have hmore : decode (cmd ++ more) = .unknownOpcode (rest ++ more) := by
      rw [decode_append (by simp [hd]), hd]; rfl
    rw [stepWith, stepBy, hmore]
    rfl
  | reservedField rest =>
    refine ⟨rest, [Status.ebadop.word], r, fun more resp _ => ?_⟩
    have hmore : decode (cmd ++ more) = .reservedField (rest ++ more) := by
      rw [decode_append (by simp [hd]), hd]; rfl
    rw [stepWith, stepBy, hmore]
    rfl
  | incomplete =>
    refine ⟨cmd, [], r, fun more resp hmore => ?_⟩
    obtain rfl : more = [] := hmore.resolve_right fun h => h rfl
    rw [stepWith, stepBy, List.append_nil, hd, List.append_nil]

/-- Settles O10, by the step as a function of stream and registers: once at two pairs of streams,
once at the empty response stream of `commandStep`. -/
theorem streamsAppendOnly : Obligations.StreamsAppendOnly := by
  constructor
  · intro s t more resp hwhole hstep
    obtain ⟨rest, out, r', hframe⟩ := stepWith_frame chip s.cmd ⟨s.voice, s.sticky⟩
    have hself := hframe [] s.resp (.inl rfl)
    simp only [List.append_nil] at hself
    have ht : t = ⟨rest, s.resp ++ out, r'.voice, r'.sticky⟩ := by
      rw [step_eq_stepWith_chip] at hstep
      exact (Host.Outcome.next.inj (hself.symm.trans hstep)).symm
    subst ht
    exact ⟨out, rfl, (step_eq_stepWith_chip _).trans (hframe more resp (.inr hwhole))⟩
  · rintro P s c rfl
    obtain ⟨rest, out, r', hframe⟩ := stepWith_frame P s.cmd ⟨s.voice, s.sticky⟩
    have hself : ∀ resp, stepWith P ⟨s.cmd, resp, s.voice, s.sticky⟩
        = .next ⟨rest, resp ++ out, r'.voice, r'.sticky⟩ := by
      intro resp
      simpa using hframe [] resp (.inl rfl)
    have hcommand : commandStep P s.cmd ⟨s.voice, s.sticky⟩ = ⟨rest, out, r'⟩ := by
      rw [commandStep, hself []]
      rfl
    rw [hcommand]
    exact hself s.resp

end Sys2Proof.Machine
end

