-- ==== Sys2Proof/Proofs/ScopeTrig.lean ====
section
/-!
PROOFS. The fixed-point sine and cosine of `Machine/Trig.lean` against the real ones: the infinite
series whose Horner recursion `trigHorner` cuts off, the error of the cut and of the roundings, the
error of `trigPi`, the quadrants, and the obligation O54.
-/

namespace Sys2Proof.Machine

/-! ### The series behind the Horner recursion -/

/-- The series `1 - y/(n(n+1)) (1 - y/((n+2)(n+3)) (1 - ...))`, not cut off: `trigHorner` sums its
first terms. At `n = 1` it is the cosine and at `n = 2` the sine over its argument, for `y = x²`. -/
noncomputable def trigSeries (n : ℕ) (y : ℝ) : ℝ := ∑' k : ℕ, (-y) ^ k / n.ascFactorial (2 * k)

theorem one_le_ascFactorial {n : ℕ} (hn : 1 ≤ n) (k : ℕ) : (1 : ℝ) ≤ n.ascFactorial k := by
  obtain ⟨m, rfl⟩ := Nat.exists_eq_add_of_le' hn
  exact_mod_cast Nat.ascFactorial_pos m k

/-- Two more factors in front of a rising factorial. -/
theorem ascFactorial_two_mul_succ (n k : ℕ) :
    n.ascFactorial (2 * (k + 1)) = n * (n + 1) * (n + 2).ascFactorial (2 * k) := by
  rw [mul_add, mul_one, add_comm, ← Nat.ascFactorial_mul_ascFactorial]
  simp only [Nat.ascFactorial]
  ring

/-- The terms of the series are dominated by the geometric ones. -/
theorem abs_trigSeries_term_le {n : ℕ} (hn : 1 ≤ n) {y : ℝ} (hy : 0 ≤ y) (k : ℕ) :
    ‖(-y) ^ k / (n.ascFactorial (2 * k) : ℝ)‖ ≤ y ^ k := by
  have h1 := one_le_ascFactorial hn (2 * k)
  rw [norm_div, norm_pow, norm_neg, Real.norm_of_nonneg hy, Real.norm_of_nonneg (by linarith)]
  exact div_le_self (by positivity) h1

theorem summable_trigSeries {n : ℕ} (hn : 1 ≤ n) {y : ℝ} (hy : 0 ≤ y) (hy1 : y < 1) :
    Summable fun k : ℕ => (-y) ^ k / (n.ascFactorial (2 * k) : ℝ) :=
  (summable_geometric_of_lt_one hy hy1).of_norm_bounded (abs_trigSeries_term_le hn hy)

/-- The series obeys the recursion of `trigHorner`, without its rounding. -/
theorem trigSeries_rec {n : ℕ} (hn : 1 ≤ n) {y : ℝ} (hy : 0 ≤ y) (hy1 : y < 1) :
    trigSeries n y = 1 - y * trigSeries (n + 2) y / (n * (n + 1)) := by
  have hn0 : (n : ℝ) ≠ 0 := by positivity
  have hterm : ∀ k : ℕ, (-y) ^ (k + 1) / (n.ascFactorial (2 * (k + 1)) : ℝ)
      = -(y / (n * (n + 1))) * ((-y) ^ k / ((n + 2).ascFactorial (2 * k) : ℝ)) := by
    intro k
    have hasc := one_le_ascFactorial (n := n + 2) (by omega) (2 * k)
    rw [ascFactorial_two_mul_succ]
    push_cast
    field_simp
    ring
  rw [trigSeries, (summable_trigSeries hn hy hy1).tsum_eq_zero_add, tsum_congr hterm,
    tsum_mul_left, ← trigSeries]
  simp
  ring

theorem abs_trigSeries_le {n : ℕ} (hn : 1 ≤ n) {y : ℝ} (hy : 0 ≤ y) (hy1 : y ≤ 3 / 4) :
    |trigSeries n y| ≤ 4 := by
  have hlt : y < 1 := by linarith
  calc |trigSeries n y| ≤ (1 - y)⁻¹ :=
        tsum_of_norm_bounded (hasSum_geometric_of_lt_one hy hlt) (abs_trigSeries_term_le hn hy)
    _ ≤ (1 / 4)⁻¹ := inv_anti₀ (by norm_num) (by linarith)
    _ = 4 := by norm_num

theorem trigSeries_one (x : ℝ) : trigSeries 1 (x ^ 2) = Real.cos x := by
  rw [trigSeries, ← (Real.hasSum_cos x).tsum_eq]
  refine tsum_congr fun k => ?_
  rw [Nat.one_ascFactorial, neg_pow, ← pow_mul]

theorem mul_trigSeries_two (x : ℝ) : x * trigSeries 2 (x ^ 2) = Real.sin x := by
  rw [trigSeries, ← (Real.hasSum_sin x).tsum_eq, ← tsum_mul_left]
  refine tsum_congr fun k => ?_
  have hfact : (2 : ℕ).ascFactorial (2 * k) = (2 * k + 1).factorial := by
    have h := Nat.succ_ascFactorial 1 (2 * k)
    rw [one_mul, Nat.one_ascFactorial, add_comm] at h
    exact h
  rw [hfact, neg_pow, ← pow_mul]
  ring

/-! ### The recursion in fixed point -/

/-- A quotient of naturals rounded down is within one of the real quotient. -/
theorem abs_natDiv_sub_le (a b : ℕ) : |((a / b : ℕ) : ℝ) - a / b| ≤ 1 := by
  rw [← Nat.floor_div_eq_div (K := ℝ), abs_sub_comm, abs_of_nonneg]
  · linarith [Nat.lt_floor_add_one ((a : ℝ) / b)]
  · exact sub_nonneg.2 (Nat.floor_le (by positivity))

/-- The same with the quotient read in units of 2^-256. -/
theorem abs_natDiv_scaled_sub_le (a b : ℕ) :
    |((a / b : ℕ) : ℝ) / 2 ^ 256 - a / b / 2 ^ 256| ≤ 1 / 2 ^ 256 := by
  rw [← sub_div, abs_div, abs_of_pos (by positivity : (0 : ℝ) < 2 ^ 256)]
  exact div_le_div_of_nonneg_right (abs_natDiv_sub_le a b) (by positivity)

theorem trigOne_cast : (trigOne : ℝ) = 2 ^ 256 := by norm_num [trigOne]

theorem trigHorner_le (x2 terms n : ℕ) : trigHorner x2 terms n ≤ trigOne := by
  cases terms with
  | zero => exact le_rfl
  | succ terms => exact Nat.sub_le _ _

/-- One step of the recursion, over the reals: 1 less a quotient that is rounded down; it does not
run below 0. -/
theorem trigHorner_succ_cast {x2 : ℕ} (hx : x2 ≤ trigOne) (terms : ℕ) {n : ℕ} (hn : 1 ≤ n) :
    (trigHorner x2 (terms + 1) n : ℝ)
      = 2 ^ 256 - ((x2 * trigHorner x2 terms (n + 2) / (trigOne * (n * (n + 1))) : ℕ) : ℝ) := by
  have hquot : x2 * trigHorner x2 terms (n + 2) / (trigOne * (n * (n + 1))) ≤ trigOne := by
    apply Nat.div_le_of_le_mul
    have hprod := Nat.mul_le_mul hx (trigHorner_le x2 terms (n + 2))
    have hone : 1 ≤ n * (n + 1) := Nat.mul_pos hn (by omega)
    calc _ ≤ trigOne * trigOne := hprod
      _ ≤ trigOne * (n * (n + 1)) * trigOne := by
        exact Nat.mul_le_mul_right _ (Nat.le_mul_of_pos_right _ hone)
  rw [trigHorner, Nat.cast_sub hquot]
  norm_num [trigOne]

/-- One step of the recursion takes the error `2u + δ + e` of the inner value `h` to
`2u + δ + e/m`, where the argument has the error `δ` and the quotient `q` is rounded by `u`. -/
theorem horner_step_error {a y h c q m u δ e : ℝ} (h0 : 0 ≤ h) (h1 : h ≤ 1) (hy : 0 ≤ y)
    (hy1 : y ≤ 1) (hm : 2 ≤ m) (ha : |a - y| ≤ δ) (hc : |h - c| ≤ 2 * u + δ + e)
    (hq : |q - a * h / m| ≤ u) : |1 - q - (1 - y * c / m)| ≤ 2 * u + δ + e / m := by
  have hu : 0 ≤ u := (abs_nonneg _).trans hq
  have hδ : 0 ≤ δ := (abs_nonneg _).trans ha
  have hprod : |a * h - y * c| ≤ 2 * (δ + u) + e := by
    calc |a * h - y * c| = |(a - y) * h + y * (h - c)| := by ring_nf
      _ ≤ |a - y| * h + y * |h - c| := by
        refine (abs_add_le _ _).trans_eq ?_
        rw [abs_mul, abs_mul, abs_of_nonneg h0, abs_of_nonneg hy]
      _ ≤ δ * 1 + 1 * (2 * u + δ + e) := by gcongr
      _ = 2 * (δ + u) + e := by ring
  have hquot : |a * h / m - y * c / m| ≤ δ + u + e / m := by
    rw [← sub_div, abs_div, abs_of_pos (by linarith : 0 < m)]
    calc |a * h - y * c| / m ≤ (2 * (δ + u) + e) / m := by gcongr
      _ = 2 * (δ + u) / m + e / m := add_div _ _ _
      _ ≤ 2 * (δ + u) / 2 + e / m := by gcongr
      _ = δ + u + e / m := by ring
  calc |1 - q - (1 - y * c / m)| = |(q - a * h / m) + (a * h / m - y * c / m)| := by
        rw [← abs_neg]
        ring_nf
    _ ≤ u + (δ + u + e / m) := (abs_add_le _ _).trans (add_le_add hq hquot)
    _ = 2 * u + δ + e / m := by ring

/-- The error of the recursion: two units and the error of `y` for the roundings, and what the
series has left after `terms` terms. -/
theorem trigHorner_error {x2 : ℕ} (hx : x2 ≤ trigOne) {y δ : ℝ} (hy : 0 ≤ y) (hy1 : y ≤ 3 / 4)
    (hδ : |(x2 : ℝ) / 2 ^ 256 - y| ≤ δ) (terms : ℕ) {n : ℕ} (hn : 1 ≤ n) :
    |(trigHorner x2 terms n : ℝ) / 2 ^ 256 - trigSeries n y|
      ≤ 2 * (1 / 2 ^ 256) + δ + 5 / n.ascFactorial (2 * terms) := by
  induction terms generalizing n with
  | zero =>
    have hδ0 := (abs_nonneg _).trans hδ
    obtain ⟨hlo, hhi⟩ := abs_le.1 (abs_trigSeries_le hn hy hy1)
    have hstart : (trigHorner x2 0 n : ℝ) / 2 ^ 256 = 1 := by norm_num [trigHorner, trigOne]
    have hunit : (0 : ℝ) < 1 / 2 ^ 256 := by positivity
    rw [hstart, Nat.mul_zero, Nat.ascFactorial_zero, Nat.cast_one, div_one, abs_le]
    constructor <;> linarith
  | succ terms ih =>
    have hm : (2 : ℝ) ≤ n * (n + 1) := by
      have : (1 : ℝ) ≤ n := by exact_mod_cast hn
      nlinarith
    have hinner : (trigHorner x2 terms (n + 2) : ℝ) / 2 ^ 256 ≤ 1 := by
      rw [div_le_one (by positivity)]
      exact_mod_cast trigHorner_le x2 terms (n + 2)
    have hquot := abs_natDiv_scaled_sub_le
      (x2 * trigHorner x2 terms (n + 2)) (trigOne * (n * (n + 1)))
    have hexact : ((x2 * trigHorner x2 terms (n + 2) : ℕ) : ℝ)
          / ((trigOne * (n * (n + 1)) : ℕ) : ℝ) / 2 ^ 256
        = (x2 : ℝ) / 2 ^ 256 * ((trigHorner x2 terms (n + 2) : ℝ) / 2 ^ 256) / (n * (n + 1)) := by
      push_cast
      rw [trigOne_cast]
      field_simp
    rw [hexact] at hquot
    have htail : 5 / (n.ascFactorial (2 * (terms + 1)) : ℝ)
        = 5 / ((n + 2).ascFactorial (2 * terms) : ℝ) / (n * (n + 1)) := by
      rw [ascFactorial_two_mul_succ, div_div]
      push_cast
      rw [mul_comm]
    rw [trigHorner_succ_cast hx terms hn, trigSeries_rec hn hy (by linarith), htail, sub_div,
      div_self (by positivity)]
    exact horner_step_error (by positivity) hinner hy (by linarith) hm hδ (ih (by omega)) hquot

/-! ### Sine and cosine of a small argument -/

/-- The square of `x / 2^256` as `sinSmall` and `cosSmall` give it to the recursion. -/
theorem trigSquare_error {x : ℕ} {r : ℝ} (hr : (x : ℝ) / 2 ^ 256 = r) (hr1 : r ≤ 4 / 5) :
    x * x / trigOne ≤ trigOne ∧ |((x * x / trigOne : ℕ) : ℝ) / 2 ^ 256 - r ^ 2| ≤ 1 / 2 ^ 256 := by
  constructor
  · have hle : (x : ℝ) ≤ (2 ^ 256 : ℕ) := by
      rw [div_eq_iff (by positivity)] at hr
      push_cast
      nlinarith [show (0 : ℝ) < 2 ^ 256 by positivity]
    have hxle : x ≤ trigOne := by exact_mod_cast hle
    exact Nat.div_le_of_le_mul (Nat.mul_le_mul hxle hxle)
  · have hround := abs_natDiv_scaled_sub_le (x * x) trigOne
    have hexact : ((x * x : ℕ) : ℝ) / (trigOne : ℝ) / 2 ^ 256 = r ^ 2 := by
      rw [← hr, trigOne_cast]
      push_cast
      field_simp
    rwa [hexact] at hround

/-- The recursion at the square of `x / 2^256`, where the series is left with less than 2^-242. -/
theorem trigHorner_square_error {x : ℕ} {r : ℝ} (hr : (x : ℝ) / 2 ^ 256 = r) (hr1 : r ≤ 4 / 5)
    {n : ℕ} (hn : 1 ≤ n) (htail : (2 : ℝ) ^ 245 ≤ n.ascFactorial (2 * trigTerms)) :
    |(trigHorner (x * x / trigOne) trigTerms n : ℝ) / 2 ^ 256 - trigSeries n (r ^ 2)|
      ≤ 1 / 2 ^ 241 := by
  have hr0 : 0 ≤ r := (div_nonneg x.cast_nonneg (pow_nonneg zero_le_two 256)).trans_eq hr
  obtain ⟨hle, hround⟩ := trigSquare_error hr hr1
  have hsquare : r ^ 2 ≤ 3 / 4 := by nlinarith
  refine (trigHorner_error hle (sq_nonneg r) hsquare hround trigTerms hn).trans ?_
  calc _ ≤ (2 : ℝ) * (1 / 2 ^ 256) + 1 / 2 ^ 256 + 5 / 2 ^ 245 := by gcongr
    _ ≤ 1 / 2 ^ 241 := by norm_num

theorem cosSmall_error {x : ℕ} {r : ℝ} (hr : (x : ℝ) / 2 ^ 256 = r) (hr1 : r ≤ 4 / 5) :
    |(cosSmall x : ℝ) / 2 ^ 256 - Real.cos r| ≤ 1 / 2 ^ 240 := by
  have h := trigHorner_square_error hr hr1 (n := 1) le_rfl (by norm_num [trigTerms])
  rw [trigSeries_one] at h
  exact h.trans (by norm_num)

theorem sinSmall_error {x : ℕ} {r : ℝ} (hr : (x : ℝ) / 2 ^ 256 = r) (hr1 : r ≤ 4 / 5) :
    |(sinSmall x : ℝ) / 2 ^ 256 - Real.sin r| ≤ 1 / 2 ^ 240 := by
  have hr0 : 0 ≤ r := (div_nonneg x.cast_nonneg (pow_nonneg zero_le_two 256)).trans_eq hr
  have hseries := trigHorner_square_error hr hr1 (n := 2) (by norm_num) (by norm_num [trigTerms])
  have hround := abs_natDiv_scaled_sub_le (x * trigHorner (x * x / trigOne) trigTerms 2) trigOne
  rw [← sinSmall] at hround
  generalize trigHorner (x * x / trigOne) trigTerms 2 = h at hseries hround
  have hexact : ((x * h : ℕ) : ℝ) / (trigOne : ℝ) / 2 ^ 256 = r * ((h : ℝ) / 2 ^ 256) := by
    rw [← hr, trigOne_cast]
    push_cast
    field_simp
  rw [hexact] at hround
  have hfactor : |r * ((h : ℝ) / 2 ^ 256) - r * trigSeries 2 (r ^ 2)| ≤ 1 / 2 ^ 241 := by
    rw [← mul_sub, abs_mul, abs_of_nonneg hr0]
    exact (mul_le_of_le_one_left (abs_nonneg _) (by linarith)).trans hseries
  rw [← mul_trigSeries_two]
  exact (abs_sub_le _ _ _).trans ((add_le_add hround hfactor).trans (by norm_num))

/-! ### Pi -/

/-- Near an eighth of a turn, the difference of sine and cosine bounds the distance to it. -/
theorem abs_sub_pi_div_four_le {x : ℝ} (hx : |x - Real.pi / 4| ≤ 1) :
    |x - Real.pi / 4| ≤ 2 * |Real.sin x - Real.cos x| := by
  have hpi := Real.pi_gt_three
  have hpi4 := Real.pi_le_four
  have hsin := Real.mul_abs_le_abs_sin (x := x - Real.pi / 4) (by linarith)
  have hdiff : Real.sin x - Real.cos x = √2 * Real.sin (x - Real.pi / 4) := by
    rw [Real.sin_sub, Real.cos_pi_div_four, Real.sin_pi_div_four]
    have hsq : √2 * √2 = 2 := Real.mul_self_sqrt (by norm_num)
    linear_combination (Real.cos x - Real.sin x) * hsq / 2
  have hsqrt : 1 ≤ √2 := Real.one_le_sqrt.2 (by norm_num)
  have hhalf : |x - Real.pi / 4| / 2 ≤ 2 / Real.pi * |x - Real.pi / 4| := by
    rw [div_eq_inv_mul]
    gcongr
    rw [le_div_iff₀ Real.pi_pos]
    linarith
  rw [hdiff, abs_mul, abs_of_nonneg (Real.sqrt_nonneg 2)]
  nlinarith [abs_nonneg (Real.sin (x - Real.pi / 4))]

/-- At `trigPi / 4` the model's own sine and cosine agree, to a unit. -/
theorem sinSmall_sub_cosSmall_trigPi :
    (sinSmall (trigPi / 4) : ℤ) - cosSmall (trigPi / 4) = -1 := by
  decide +kernel

/-- `trigPi` is pi: where the model's sine and cosine agree, the real ones nearly do. -/
theorem trigPi_error : |(trigPi : ℝ) / 2 ^ 256 - Real.pi| ≤ 1 / 2 ^ 232 := by
  obtain ⟨x, hx⟩ : ∃ x : ℝ, ((trigPi / 4 : ℕ) : ℝ) / 2 ^ 256 = x := ⟨_, rfl⟩
  obtain ⟨hlo, hhi⟩ : 7 / 10 ≤ x ∧ x ≤ 4 / 5 := by
    rw [← hx]
    norm_num [trigPi]
  have hfour : |(trigPi : ℝ) / 2 ^ 256 - 4 * x| ≤ 1 / 2 ^ 250 := by
    rw [← hx]
    norm_num [trigPi, abs_le]
  have hsin := sinSmall_error hx hhi
  have hcos := cosSmall_error hx hhi
  have hmodel : (sinSmall (trigPi / 4) : ℝ) / 2 ^ 256 - (cosSmall (trigPi / 4) : ℝ) / 2 ^ 256
      = -1 / 2 ^ 256 := by
    rw [← sub_div]
    congr 1
    exact_mod_cast sinSmall_sub_cosSmall_trigPi
  have hreal : |Real.sin x - Real.cos x| ≤ 1 / 2 ^ 238 := by
    rw [abs_le] at hsin hcos ⊢
    norm_num at hsin hcos hmodel ⊢
    constructor <;> linarith
  have hnear : |x - Real.pi / 4| ≤ 1 := by
    rw [abs_le]
    constructor <;> linarith [Real.pi_gt_three, Real.pi_le_four]
  have hquarter := abs_sub_pi_div_four_le hnear
  rw [abs_le] at hfour hquarter ⊢
  norm_num at hfour hreal ⊢
  constructor <;> linarith

/-! ### Quadrants -/

/-- The argument of a quarter turn's first half, in fixed point. -/
theorem quarterArgument_error {m b : ℕ} (hb : 0 < b) (hm : 2 * m ≤ b) :
    ((trigPi * m / (2 * b) : ℕ) : ℝ) / 2 ^ 256 ≤ 4 / 5
      ∧ |((trigPi * m / (2 * b) : ℕ) : ℝ) / 2 ^ 256 - Real.pi / 2 * (m / b)| ≤ 1 / 2 ^ 231 := by
  have hb0 : (0 : ℝ) < b := by exact_mod_cast hb
  have hfrac : (m : ℝ) / b ≤ 1 / 2 := by
    rw [div_le_iff₀ hb0]
    have : (2 : ℝ) * m ≤ b := by exact_mod_cast hm
    linarith
  have hfrac0 : 0 ≤ (m : ℝ) / b := by positivity
  have hround := abs_natDiv_scaled_sub_le (trigPi * m) (2 * b)
  have hexact : ((trigPi * m : ℕ) : ℝ) / ((2 * b : ℕ) : ℝ) / 2 ^ 256
      = (trigPi : ℝ) / 2 ^ 256 / 2 * (m / b) := by
    push_cast
    field_simp
  rw [hexact] at hround
  have hpi : |(trigPi : ℝ) / 2 ^ 256 / 2 * (m / b) - Real.pi / 2 * (m / b)| ≤ 1 / 2 ^ 232 := by
    rw [← sub_mul, ← sub_div, abs_mul, abs_div, abs_of_nonneg hfrac0]
    have hpi := trigPi_error
    calc |(trigPi : ℝ) / 2 ^ 256 - Real.pi| / |2| * ((m : ℝ) / b)
        ≤ 1 / 2 ^ 232 / |2| * (1 / 2) := by gcongr
      _ ≤ 1 / 2 ^ 232 := by norm_num
  have htotal := (abs_sub_le _ _ _).trans (add_le_add hround hpi)
  constructor
  · have hle := (abs_le.1 hround).2
    have hval : (trigPi : ℝ) / 2 ^ 256 / 2 ≤ 79 / 50 := by norm_num [trigPi]
    have hunit : (1 : ℝ) / 2 ^ 256 ≤ 1 / 100 := by norm_num
    nlinarith
  · exact htotal.trans (by norm_num)

/-- The sine of a part of a quarter turn. -/
theorem sinQuarter_error {r b : ℕ} (hb : 0 < b) (hr : r ≤ b) :
    |(sinQuarter r b : ℝ) / 2 ^ 256 - Real.sin (Real.pi / 2 * (r / b))| ≤ 1 / 2 ^ 230 := by
  unfold sinQuarter
  split
  · rename_i hlow
    obtain ⟨hsmall, harg⟩ := quarterArgument_error hb hlow
    have hsin := (Real.abs_sin_sub_sin_le _ _).trans harg
    exact (abs_sub_le _ _ _).trans
      ((add_le_add (sinSmall_error rfl hsmall) hsin).trans (by norm_num))
  · rename_i hhigh
    obtain ⟨hsmall, harg⟩ := quarterArgument_error (m := b - r) hb (by omega)
    have hcos := (Real.abs_cos_sub_cos_le _ _).trans harg
    have hreflect : Real.sin (Real.pi / 2 * (r / b))
        = Real.cos (Real.pi / 2 * ((b - r : ℕ) / b)) := by
      have hb0 : (b : ℝ) ≠ 0 := by positivity
      rw [← Real.cos_pi_div_two_sub, Nat.cast_sub hr]
      congr 1
      field_simp
    rw [hreflect]
    exact (abs_sub_le _ _ _).trans
      ((add_le_add (cosSmall_error rfl hsmall) hcos).trans (by norm_num))

/-- The real sine of `a / b` turns by quadrant `k` and part `r / b` of the quarter turn. -/
theorem sin_turns_eq {a b k r : ℕ} (hb : 0 < b) (h : 4 * (a % b) = b * k + r) :
    Real.sin (2 * Real.pi * (a / b)) = Real.sin (Real.pi / 2 * (r / b) + k * (Real.pi / 2)) := by
  have hb0 : (b : ℝ) ≠ 0 := by positivity
  have hmod : (a : ℝ) = b * (a / b : ℕ) + (a % b : ℕ) := by
    exact_mod_cast (Nat.div_add_mod a b).symm
  have hr : (4 : ℝ) * (a % b : ℕ) = b * k + r := by exact_mod_cast h
  rw [← Real.sin_add_nat_mul_two_pi (Real.pi / 2 * (r / b) + k * (Real.pi / 2)) (a / b)]
  congr 1
  rw [hmod]
  field_simp
  linear_combination hr

/-- The sine half a turn on. -/
theorem sin_add_two_quarters (x : ℝ) :
    Real.sin (x + (2 : ℕ) * (Real.pi / 2)) = -Real.sin x := by
  rw [← Real.sin_add_pi]
  congr 1
  push_cast
  ring

/-- The sine three quarters of a turn on. -/
theorem sin_add_three_quarters (x : ℝ) :
    Real.sin (x + (3 : ℕ) * (Real.pi / 2)) = -Real.cos x := by
  rw [← Real.sin_add_pi_div_two, ← Real.sin_add_pi]
  congr 1
  push_cast
  ring

/-- The fixed-point sine of `a / b` turns is the real one, to 2^-230. -/
theorem sinTurns_error (a : ℕ) {b : ℕ} (hb : 0 < b) :
    |(sinTurns a b : ℝ) / 2 ^ 256 - Real.sin (2 * Real.pi * (a / b))| ≤ 1 / 2 ^ 230 := by
  have hlt : 4 * (a % b) % b < b := Nat.mod_lt _ hb
  have hquad : 4 * (a % b) / b < 4 := by
    rw [Nat.div_lt_iff_lt_mul hb]
    have := Nat.mod_lt a hb
    omega
  rw [sin_turns_eq hb (Nat.div_add_mod (4 * (a % b)) b).symm]
  unfold sinTurns
  generalize 4 * (a % b) % b = r at hlt
  generalize 4 * (a % b) / b = k at hquad
  have hdirect := sinQuarter_error hb hlt.le
  have hmirror : |(sinQuarter (b - r) b : ℝ) / 2 ^ 256 - Real.cos (Real.pi / 2 * (r / b))|
      ≤ 1 / 2 ^ 230 := by
    have h := sinQuarter_error hb (Nat.sub_le b r)
    have hreflect : Real.pi / 2 * ((b - r : ℕ) / b) = Real.pi / 2 - Real.pi / 2 * (r / b) := by
      have hb0 : (b : ℝ) ≠ 0 := by positivity
      rw [Nat.cast_sub hlt.le]
      field_simp
    rwa [hreflect, Real.sin_pi_div_two_sub] at h
  interval_cases k <;> dsimp only
  · simpa using hdirect
  · simpa [Real.sin_add_pi_div_two] using hmirror
  · change |((-(sinQuarter r b : ℤ) : ℤ) : ℝ) / 2 ^ 256 - _| ≤ _
    rw [sin_add_two_quarters, Int.cast_neg, neg_div, neg_sub_neg, abs_sub_comm]
    exact hdirect
  · change |((-(sinQuarter (b - r) b : ℤ) : ℤ) : ℝ) / 2 ^ 256 - _| ≤ _
    rw [sin_add_three_quarters, Int.cast_neg, neg_div, neg_sub_neg, abs_sub_comm]
    exact hmirror

/-- The fixed-point cosine of `a / b` turns is the real one, to 2^-230. -/
theorem cosTurns_error (a : ℕ) {b : ℕ} (hb : 0 < b) :
    |(cosTurns a b : ℝ) / 2 ^ 256 - Real.cos (2 * Real.pi * (a / b))| ≤ 1 / 2 ^ 230 := by
  have h := sinTurns_error (4 * a + b) (b := 4 * b) (by omega)
  have hb0 : (b : ℝ) ≠ 0 := by positivity
  have harg : 2 * Real.pi * (((4 * a + b : ℕ) : ℝ) / ((4 * b : ℕ) : ℝ))
      = 2 * Real.pi * (a / b) + Real.pi / 2 := by
    push_cast
    field_simp
    ring
  rwa [harg, Real.sin_add_pi_div_two] at h

/-! ### The sine table (R14) -/

/-- `rshr_sym` is within a half of the real quotient. -/
theorem abs_rshrSym_sub_le (v : ℤ) {k : ℕ} (hk : 1 ≤ k) :
    |(rshrSym v k : ℝ) - v / 2 ^ k| ≤ 1 / 2 := by
  obtain ⟨hnear, -, -⟩ := rshrSymNearest v k hk
  have hp : (0 : ℝ) < 2 ^ k := by positivity
  have hnear' : 2 * |(v : ℝ) - rshrSym v k * 2 ^ k| ≤ 2 ^ k := by exact_mod_cast hnear
  have hscale : (rshrSym v k : ℝ) - v / 2 ^ k = -((v : ℝ) - rshrSym v k * 2 ^ k) / 2 ^ k := by
    field_simp
    ring
  rw [hscale, abs_div, abs_neg, abs_of_pos hp, div_le_iff₀ hp]
  linarith

/-- Settles O54: the fixed-point sine is scaled to 23 bits and rounded once. -/
theorem sinromIsSine : Obligations.SinromIsSine := by
  intro p
  have hsine := sinTurns_error p.toNat (b := 2 ^ 32) (by norm_num)
  have hround := abs_rshrSym_sub_le (sinTurns p.toNat (2 ^ 32)) (k := 256 - 23) (by norm_num)
  have harg : 2 * Real.pi * (p.toNat / ((2 ^ 32 : ℕ) : ℝ)) = 2 * Real.pi * p.toNat / 2 ^ 32 := by
    push_cast
    ring
  rw [harg] at hsine
  generalize Real.sin (2 * Real.pi * p.toNat / 2 ^ 32) = x at hsine ⊢
  have hscale : |(sinTurns p.toNat (2 ^ 32) : ℝ) / 2 ^ (256 - 23) - 2 ^ 23 * x| ≤ 1 / 2 ^ 20 := by
    have hfactor : (sinTurns p.toNat (2 ^ 32) : ℝ) / 2 ^ (256 - 23) - 2 ^ 23 * x
        = 2 ^ 23 * ((sinTurns p.toNat (2 ^ 32) : ℝ) / 2 ^ 256 - x) := by
      field_simp
      ring
    rw [hfactor, abs_mul, abs_of_pos (by positivity)]
    calc _ ≤ (2 : ℝ) ^ 23 * (1 / 2 ^ 230) := by gcongr
      _ ≤ 1 / 2 ^ 20 := by norm_num
  exact (abs_sub_le _ _ _).trans (add_le_add hround hscale)

end Sys2Proof.Machine
end

