-- ==== Sys2Proof/Proofs/ScopeDesign.lean ====
section
/-!
PROOFS. The reference `DESIGN` of `Machine/Reference.lean`: rounding of a rational, the bounds of
the fixed-point sine, the numerators and the denominator of the five coefficients, and where
`DESIGN` succeeds and what its results satisfy (R161).
-/

namespace Sys2Proof.Machine

/-! ### Rounding a rational (R12) -/

/-- The floor of a rational and a half is within a half of the rational. -/
theorem two_mul_abs_halfUp_sub_le (num : ℤ) {den : ℕ} (hden : 0 < den) :
    2 * |(2 * num + den) / (2 * den) * den - num| ≤ den := by
  have hpos : (0 : ℤ) < 2 * den := by omega
  have hlo := Int.ediv_mul_le (2 * num + den) hpos.ne'
  have hhi := Int.lt_ediv_add_one_mul_self (2 * num + den) hpos
  generalize (2 * num + (den : ℤ)) / (2 * den) = m at hlo hhi
  rw [← abs_two, ← abs_mul, abs_le]
  constructor <;> linarith

/-- `rha` is within a half of the rational. -/
theorem two_mul_abs_rha_sub_le (num : ℤ) {den : ℕ} (hden : 0 < den) :
    2 * |rha num den * den - num| ≤ den := by
  unfold rha
  split
  · exact two_mul_abs_halfUp_sub_le num hden
  · have h := two_mul_abs_halfUp_sub_le (-num) hden
    rwa [mul_neg, ← abs_neg, neg_sub', ← neg_mul, neg_neg] at h

theorem abs_rha_sub_le (num : ℤ) {den : ℕ} (hden : 0 < den) :
    |(rha num den : ℝ) - num / den| ≤ 1 / 2 := by
  have hp : (0 : ℝ) < den := by exact_mod_cast hden
  have h : 2 * |(rha num den : ℝ) * den - num| ≤ den := by
    exact_mod_cast two_mul_abs_rha_sub_le num hden
  have hscale : (rha num den : ℝ) - num / den = ((rha num den : ℝ) * den - num) / den := by
    field_simp
  rw [hscale, abs_div, abs_of_pos hp, div_le_iff₀ hp]
  linarith

/-- `rha` does not pass an integer that the rational does not pass, from above. -/
theorem rha_le {num m : ℤ} {den : ℕ} (hden : 0 < den) (h : num ≤ m * den) : rha num den ≤ m := by
  have hp : (0 : ℤ) < den := by exact_mod_cast hden
  have hnear := two_mul_abs_rha_sub_le num hden
  have hle := le_abs_self (rha num den * den - num)
  by_contra hlt
  have : (m + 1) * (den : ℤ) ≤ rha num den * den := by gcongr; omega
  linarith

/-- `rha` does not pass an integer that the rational does not pass, from below. -/
theorem le_rha {num m : ℤ} {den : ℕ} (hden : 0 < den) (h : m * den ≤ num) : m ≤ rha num den := by
  have hp : (0 : ℤ) < den := by exact_mod_cast hden
  have hnear := two_mul_abs_rha_sub_le num hden
  have hle := neg_le_abs (rha num den * den - num)
  by_contra hlt
  have : rha num den * (den : ℤ) ≤ (m - 1) * den := by gcongr; omega
  linarith

theorem abs_rha_le {num m : ℤ} {den : ℕ} (hden : 0 < den) (h : |num| ≤ m * den) :
    |rha num den| ≤ m := by
  obtain ⟨hlo, hhi⟩ := abs_le.1 h
  exact abs_le.2 ⟨le_rha hden (by linarith), rha_le hden hhi⟩

/-- Doubling before the rounding differs from doubling after it by at most one. -/
theorem abs_rha_two_mul_sub_le (num : ℤ) {den : ℕ} (hden : 0 < den) :
    |rha (2 * num) den - 2 * rha num den| ≤ 1 := by
  have hp : (0 : ℤ) < den := by exact_mod_cast hden
  have h1 := two_mul_abs_rha_sub_le num hden
  have h2 := two_mul_abs_rha_sub_le (2 * num) hden
  generalize rha num den = r at h1 ⊢
  generalize rha (2 * num) den = t at h2 ⊢
  have hscaled : 2 * |(t - 2 * r) * den| ≤ 3 * den := by
    calc 2 * |(t - 2 * r) * den| = 2 * |(t * den - 2 * num) - 2 * (r * den - num)| := by ring_nf
      _ ≤ 2 * (|t * den - 2 * num| + |2 * (r * den - num)|) := by gcongr; exact abs_sub _ _
      _ = 2 * |t * den - 2 * num| + 2 * (2 * |r * den - num|) := by rw [abs_mul]; norm_num; ring
      _ ≤ 3 * den := by linarith
  rw [abs_mul, abs_of_pos hp] at hscaled
  by_contra hlt
  have : 2 * (den : ℤ) ≤ |t - 2 * r| * den := by gcongr; omega
  linarith

/-! ### Bounds of the fixed-point sine -/

theorem sinSmall_le {x : ℕ} (hx : x ≤ trigOne) : sinSmall x ≤ trigOne :=
  Nat.div_le_of_le_mul (Nat.mul_le_mul hx (trigHorner_le _ _ _))

theorem sinQuarter_le (r b : ℕ) : sinQuarter r b ≤ trigOne := by
  unfold sinQuarter
  split
  · refine sinSmall_le (Nat.div_le_of_le_mul ?_)
    have hpi : trigPi ≤ 4 * trigOne := by decide
    calc trigPi * r ≤ 4 * trigOne * r := Nat.mul_le_mul_right r hpi
      _ = 2 * (2 * r) * trigOne := by ring
      _ ≤ 2 * b * trigOne := by gcongr
  · exact trigHorner_le _ _ _

theorem abs_sinTurns_le (a b : ℕ) : |sinTurns a b| ≤ trigOne := by
  have hquarter : ∀ r, |(sinQuarter r b : ℤ)| ≤ trigOne := fun r => by
    rw [Nat.abs_cast]
    exact_mod_cast sinQuarter_le r b
  unfold sinTurns
  dsimp only
  split
  · exact hquarter _
  · exact hquarter _
  · rw [abs_neg]
    exact hquarter _
  · rw [abs_neg]
    exact hquarter _

/-- In the first half turn the sine is not negative. -/
theorem sinTurns_nonneg {a b : ℕ} (h : 2 * a < b) : 0 ≤ sinTurns a b := by
  have hquad : 4 * (a % b) / b < 2 := by
    rw [Nat.mod_eq_of_lt (by omega), Nat.div_lt_iff_lt_mul (by omega)]
    omega
  unfold sinTurns
  generalize 4 * (a % b) / b = k at hquad
  interval_cases k <;> exact Int.natCast_nonneg _

/-! ### Numerators and denominator of the coefficients (R15) -/

/-- The common denominator of the five coefficients. -/
def designDen (fc q fs : ℕ) : ℕ :=
  (2 * q * trigOne + 2 ^ 16 * sinTurns fc (2 ^ 16 * fs) : ℤ).toNat

/-- The numerator of `b0` and `b2`; that of `b1` is its double. -/
def designB (fc q gain fs : ℕ) : ℤ :=
  2 ^ 12 * gain * q * (trigOne - cosTurns fc (2 ^ 16 * fs))

/-- The numerator of `a1`. -/
def designA1 (fc q fs : ℕ) : ℤ := -(2 ^ 30) * q * cosTurns fc (2 ^ 16 * fs)

/-- The numerator of `a2`. -/
def designA2 (fc q fs : ℕ) : ℤ :=
  2 ^ 28 * (2 * q * trigOne - 2 ^ 16 * sinTurns fc (2 ^ 16 * fs))

theorem designInts_eq (fc q gain fs : ℕ) :
    designInts fc q gain fs
      = (rha (designB fc q gain fs) (designDen fc q fs),
          rha (2 * designB fc q gain fs) (designDen fc q fs),
          rha (designB fc q gain fs) (designDen fc q fs),
          rha (designA1 fc q fs) (designDen fc q fs),
          rha (designA2 fc q fs) (designDen fc q fs)) := rfl

section Bounds

variable {fc q fs : ℕ}

/-- Below half the sampling rate the angle lies in the first half turn. -/
theorem designSin_nonneg (hf : FreqOk fc fs) : 0 ≤ sinTurns fc (2 ^ 16 * fs) :=
  sinTurns_nonneg (by have := hf.2; omega)

theorem designDen_cast (hf : FreqOk fc fs) :
    (designDen fc q fs : ℤ) = 2 * q * trigOne + 2 ^ 16 * sinTurns fc (2 ^ 16 * fs) := by
  have := designSin_nonneg hf
  exact Int.toNat_of_nonneg (by positivity)

theorem two_mul_q_le_designDen (hf : FreqOk fc fs) : 2 * q * trigOne ≤ (designDen fc q fs : ℤ) := by
  rw [designDen_cast hf]
  have := designSin_nonneg hf
  linarith

theorem designDen_pos (hf : FreqOk fc fs) (hq : 0 < q) : 0 < designDen fc q fs := by
  have h := two_mul_q_le_designDen (q := q) hf
  have hone : (0 : ℤ) < trigOne := by decide
  have hq' : (0 : ℤ) < q := by exact_mod_cast hq
  have : (0 : ℤ) < designDen fc q fs := lt_of_lt_of_le (by positivity) h
  exact_mod_cast this

theorem designB_nonneg (gain : ℕ) : 0 ≤ designB fc q gain fs := by
  have hc := (abs_le.1 (abs_sinTurns_le (4 * fc + 2 ^ 16 * fs) (4 * (2 ^ 16 * fs)))).2
  exact mul_nonneg (by positivity) (sub_nonneg.2 hc)

/-- R161 (e): `B0` is below the gain. -/
theorem designB_le (hf : FreqOk fc fs) (gain : ℕ) :
    designB fc q gain fs ≤ 2 ^ 12 * gain * designDen fc q fs := by
  have hc := (abs_le.1 (abs_sinTurns_le (4 * fc + 2 ^ 16 * fs) (4 * (2 ^ 16 * fs)))).1
  have hc' : trigOne - cosTurns fc (2 ^ 16 * fs) ≤ 2 * (trigOne : ℤ) := by
    unfold cosTurns
    linarith
  calc designB fc q gain fs ≤ 2 ^ 12 * gain * q * (2 * trigOne) := by
        unfold designB
        gcongr
    _ = 2 ^ 12 * gain * (2 * q * trigOne) := by ring
    _ ≤ 2 ^ 12 * gain * designDen fc q fs := by
        gcongr
        exact two_mul_q_le_designDen hf

/-- R161 (c): `|A1| < 2`. -/
theorem abs_designA1_le (hf : FreqOk fc fs) :
    |designA1 fc q fs| ≤ 2 ^ 29 * designDen fc q fs := by
  calc |designA1 fc q fs| = 2 ^ 30 * q * |cosTurns fc (2 ^ 16 * fs)| := by
        rw [designA1, abs_mul, abs_mul, abs_neg, abs_pow, Nat.abs_cast, abs_two]
    _ ≤ 2 ^ 30 * q * trigOne := by
        gcongr
        exact abs_sinTurns_le _ _
    _ = 2 ^ 29 * (2 * q * trigOne) := by ring
    _ ≤ 2 ^ 29 * designDen fc q fs := by
        gcongr
        exact two_mul_q_le_designDen hf

/-- R161 (c): `|A2| < 1`. -/
theorem abs_designA2_le (hf : FreqOk fc fs) :
    |designA2 fc q fs| ≤ 2 ^ 28 * designDen fc q fs := by
  have hs := designSin_nonneg hf
  have hq : (0 : ℤ) ≤ 2 * q * trigOne := by positivity
  rw [designDen_cast hf, designA2, abs_mul, abs_of_pos (by positivity : (0 : ℤ) < 2 ^ 28)]
  gcongr
  rw [abs_le]
  constructor <;> linarith

end Bounds

/-! ### Success and failure of `DESIGN` (R15) -/

/-- The five integers of `DESIGN` are the rounded quotients, all of them values of an s32. -/
def DesignFits (fc q gain fs : ℕ) : Prop :=
  ∀ num ∈ [designB fc q gain fs, 2 * designB fc q gain fs, designB fc q gain fs, designA1 fc q fs,
      designA2 fc q fs],
    -2 ^ 31 ≤ rha num (designDen fc q fs) ∧ rha num (designDen fc q fs) < 2 ^ 31

/-- The coefficients that `DESIGN` gives where they fit. -/
def designCoeffs (fc q gain fs : ℕ) : Coeffs :=
  { b0 := sreg 32 (rha (designB fc q gain fs) (designDen fc q fs))
    b1 := sreg 32 (rha (2 * designB fc q gain fs) (designDen fc q fs))
    b2 := sreg 32 (rha (designB fc q gain fs) (designDen fc q fs))
    a1 := sreg 32 (rha (designA1 fc q fs) (designDen fc q fs))
    a2 := sreg 32 (rha (designA2 fc q fs) (designDen fc q fs)) }

theorem fitsS32_iff (v : ℤ) : fitsS32 v = true ↔ -2 ^ 31 ≤ v ∧ v < 2 ^ 31 := decide_eq_true_iff

theorem toInt_sreg_of_fits {v : ℤ} (h : -2 ^ 31 ≤ v ∧ v < 2 ^ 31) : (sreg 32 v).toInt = v :=
  toInt_sreg (by norm_num; omega) (by norm_num; omega)

/-- R161 (b): `DESIGN` fails on arguments out of range. -/
theorem design_out_of_range {fc q gain fs : Word}
    (h : q = 0#32 ∨ fs = 0#32 ∨ fc = 0#32 ∨ fs.toNat * 2 ^ 15 ≤ fc.toNat) :
    design fc q gain fs = none := by
  refine if_pos ?_
  rwa [ge_iff_le, mul_comm]

/-- `DESIGN` on arguments in range: the rounded quotients where they all fit, else failure. -/
theorem design_in_range {fc q gain fs : Word} (hq : q ≠ 0#32) (hf : FreqOk fc.toNat fs.toNat) :
    (DesignFits fc.toNat q.toNat gain.toNat fs.toNat →
        design fc q gain fs = some (designCoeffs fc.toNat q.toNat gain.toNat fs.toNat))
      ∧ (¬DesignFits fc.toNat q.toNat gain.toNat fs.toNat → design fc q gain fs = none) := by
  obtain ⟨hpos, hlt⟩ := hf
  have hrange : ¬(q = 0#32 ∨ fs = 0#32 ∨ fc = 0#32 ∨ fc.toNat ≥ 2 ^ 15 * fs.toNat) := by
    rintro (h | h | h | h)
    · exact hq h
    · rw [h] at hlt
      simp at hlt
    · rw [h] at hpos
      simp at hpos
    · omega
  rw [design, if_neg hrange, designInts_eq]
  simp only [DesignFits, List.forall_mem_cons, ← fitsS32_iff, designCoeffs]
  constructor
  · rintro ⟨hb0, hb1, -, ha1, ha2, -⟩
    simp [hb0, hb1, ha1, ha2]
  · intro h
    refine if_neg fun hall => h ?_
    simpa [and_assoc] using hall

/-- Where `DESIGN` succeeds, its arguments are in range and its results are the rounded quotients,
which fit. -/
theorem design_some {fc q gain fs : Word} {d : Coeffs} (h : design fc q gain fs = some d) :
    q ≠ 0#32 ∧ FreqOk fc.toNat fs.toNat ∧ DesignFits fc.toNat q.toNat gain.toNat fs.toNat
      ∧ d = designCoeffs fc.toNat q.toNat gain.toNat fs.toNat := by
  have hf : FreqOk fc.toNat fs.toNat := chip_designRange fc q gain fs d h
  have hq : q ≠ 0#32 := by
    rintro rfl
    rw [design_out_of_range (.inl rfl)] at h
    cases h
  obtain ⟨hfits, hfails⟩ := design_in_range (gain := gain) hq hf
  by_cases hfit : DesignFits fc.toNat q.toNat gain.toNat fs.toNat
  · exact ⟨hq, hf, hfit, Option.some.inj (h.symm.trans (hfits hfit))⟩
  · rw [hfails hfit] at h
    cases h

/-- R161 (e): with a gain below 4.0 every coefficient fits. -/
theorem designFits_of_gain_le {fc q gain fs : ℕ} (hf : FreqOk fc fs) (hq : 0 < q)
    (hgain : gain ≤ 4 * 2 ^ 16 - 1) : DesignFits fc q gain fs := by
  have hden := designDen_pos hf hq
  have hb0 := designB_nonneg (fc := fc) (q := q) (fs := fs) gain
  have hb : 2 * designB fc q gain fs ≤ (2 ^ 31 - 1) * designDen fc q fs := by
    have hg : (2 : ℤ) ^ 13 * gain ≤ 2 ^ 31 - 1 := by omega
    calc 2 * designB fc q gain fs ≤ 2 * (2 ^ 12 * gain * designDen fc q fs) := by
          gcongr
          exact designB_le hf gain
      _ = 2 ^ 13 * gain * designDen fc q fs := by ring
      _ ≤ (2 ^ 31 - 1) * designDen fc q fs := by gcongr
  have hsmall : ∀ num : ℤ, |num| ≤ (2 ^ 31 - 1) * designDen fc q fs →
      -2 ^ 31 ≤ rha num (designDen fc q fs) ∧ rha num (designDen fc q fs) < 2 ^ 31 := by
    intro num hnum
    have := abs_le.1 (abs_rha_le hden hnum)
    omega
  have hdenInt : (0 : ℤ) < designDen fc q fs := by exact_mod_cast hden
  have ha1 := abs_designA1_le (q := q) hf
  have ha2 := abs_designA2_le (q := q) hf
  have hB : |designB fc q gain fs| ≤ (2 ^ 31 - 1) * designDen fc q fs := by
    rw [abs_of_nonneg hb0]
    linarith
  have hB1 : |2 * designB fc q gain fs| ≤ (2 ^ 31 - 1) * designDen fc q fs := by
    rwa [abs_of_nonneg (by linarith)]
  simp only [DesignFits, List.forall_mem_cons]
  exact ⟨hsmall _ hB, hsmall _ hB1, hsmall _ hB, hsmall _ (by linarith), hsmall _ (by linarith),
    by simp⟩

/-- R161 (c), (f): the relations between the coefficients of a success. -/
theorem designCoeffs_relations {fc q gain fs : ℕ} (hf : FreqOk fc fs) (hq : 0 < q)
    (hfits : DesignFits fc q gain fs) :
    let d := designCoeffs fc q gain fs
    d.b2 = d.b0 ∧ |d.b1.toInt - 2 * d.b0.toInt| ≤ 1 ∧ 0 ≤ d.b0.toInt
      ∧ |d.a1.toInt| ≤ 2 ^ 29 ∧ |d.a2.toInt| ≤ 2 ^ 28
      ∧ (gain = 0 → d.b0 = 0#32 ∧ d.b1 = 0#32 ∧ d.b2 = 0#32) := by
  have hden := designDen_pos hf hq
  simp only [DesignFits, List.forall_mem_cons] at hfits
  obtain ⟨hb0, hb1, -, ha1, ha2, -⟩ := hfits
  simp only [designCoeffs, toInt_sreg_of_fits hb0, toInt_sreg_of_fits hb1, toInt_sreg_of_fits ha1,
    toInt_sreg_of_fits ha2, true_and]
  refine ⟨abs_rha_two_mul_sub_le _ hden, le_rha hden ?_, abs_rha_le hden (abs_designA1_le hf),
    abs_rha_le hden (abs_designA2_le hf), ?_⟩
  · simpa using designB_nonneg gain
  · rintro rfl
    have hzero : designB fc q 0 fs = 0 := by simp [designB]
    have hrha : rha 0 (designDen fc q fs) = 0 :=
      le_antisymm (rha_le hden (by simp)) (le_rha hden (by simp))
    simp [hzero, hrha, sreg]

end Sys2Proof.Machine
end

