-- ==== Sys2Proof/Proofs/ScopeDesignReal.lean ====
section
/-!
PROOFS. The coefficients of the reference `DESIGN` against the real formulas of R15: the rewriting
without the tangent, the error of a quotient of fixed-point numbers, and the obligations O55 and
O56.
-/

namespace Sys2Proof.Machine

/-! ### The formulas of R15 without the tangent -/

/-- R15: the reals `k`, `norm`, `b0` (which is `b2` and half of `b1`), `a1` and `a2` as the rule
computes them from the words `fc`, `q`, `gain` and the integer `fs`. -/
structure BilinearLowPass (fc q gain fs : ℕ) (k norm b0 a1 a2 : ℝ) : Prop where
  k_eq : k = Real.tan (Real.pi * (fc / 2 ^ 16) / fs)
  norm_eq : norm = 1 / (1 + k / (q / 2 ^ 16) + k * k)
  b0_eq : b0 = gain / 2 ^ 16 * k * k * norm
  a1_eq : a1 = 2 * (k * k - 1) * norm
  a2_eq : a2 = (1 - k / (q / 2 ^ 16) + k * k) * norm

/-- The real counterpart of `designDen`, at the angle `φ`. -/
noncomputable def realDen (q : ℕ) (φ : ℝ) : ℝ := 2 * q + 2 ^ 16 * Real.sin φ

/-- The real counterpart of `designB`. -/
noncomputable def realB (q gain : ℕ) (φ : ℝ) : ℝ := 2 ^ 12 * gain * q * (1 - Real.cos φ)

/-- The real counterpart of `designA1`. -/
noncomputable def realA1 (q : ℕ) (φ : ℝ) : ℝ := -(2 ^ 30) * q * Real.cos φ

/-- The real counterpart of `designA2`. -/
noncomputable def realA2 (q : ℕ) (φ : ℝ) : ℝ := 2 ^ 28 * (2 * q - 2 ^ 16 * Real.sin φ)

/-- Below half the sampling rate the tangent of R15 is taken in the first quadrant. -/
theorem designAngle_mem {fc fs : ℕ} (hf : FreqOk fc fs) :
    0 < Real.pi * (fc / 2 ^ 16) / fs ∧ Real.pi * (fc / 2 ^ 16) / fs < Real.pi / 2 := by
  obtain ⟨hpos, hlt⟩ := hf
  have hfs : (0 : ℝ) < fs := by
    have : 0 < fs := by omega
    exact_mod_cast this
  have hfc : (0 : ℝ) < fc := by exact_mod_cast hpos
  have hlt' : (fc : ℝ) < 2 ^ 15 * fs := by exact_mod_cast hlt
  have hpi := Real.pi_pos
  refine ⟨by positivity, ?_⟩
  rw [div_lt_iff₀ hfs]
  nlinarith

/-- The numerators and the denominator with the common factor `2 cos²` give the formulas of R15. -/
theorem BilinearLowPass.quotients {fc q gain fs : ℕ} {k norm b0 a1 a2 : ℝ} (hf : FreqOk fc fs)
    (hq : 0 < q) (h : BilinearLowPass fc q gain fs k norm b0 a1 a2) :
    let φ := 2 * (Real.pi * (fc / 2 ^ 16) / fs)
    b0 * 2 ^ 28 = realB q gain φ / realDen q φ ∧ a1 * 2 ^ 28 = realA1 q φ / realDen q φ
      ∧ a2 * 2 ^ 28 = realA2 q φ / realDen q φ := by
  obtain ⟨hk, hnorm, hb0, ha1, ha2⟩ := h
  obtain ⟨hpos, hlt⟩ := designAngle_mem hf
  generalize Real.pi * (fc / 2 ^ 16) / fs = θ at hpos hlt hk ⊢
  have hsin : 0 < Real.sin θ := Real.sin_pos_of_pos_of_lt_pi hpos (by linarith [Real.pi_pos])
  have hcos : 0 < Real.cos θ := Real.cos_pos_of_mem_Ioo ⟨by linarith, hlt⟩
  have hpyth : Real.sin θ ^ 2 + Real.cos θ ^ 2 = 1 := Real.sin_sq_add_cos_sq θ
  have hq0 : (0 : ℝ) < q := by exact_mod_cast hq
  rw [Real.tan_eq_sin_div_cos] at hk
  simp only [realDen, realB, realA1, realA2, Real.sin_two_mul, Real.cos_two_mul']
  generalize Real.sin θ = s at *
  generalize Real.cos θ = c at *
  have hden : (0 : ℝ) < 2 * q + 2 ^ 16 * (2 * s * c) := by positivity
  have hnorm' : norm = 2 * q * c ^ 2 / (2 * q + 2 ^ 16 * (2 * s * c)) := by
    have hprod : (1 + k / (q / 2 ^ 16) + k * k) * (2 * q * c ^ 2)
        = 2 * q + 2 ^ 16 * (2 * s * c) := by
      rw [hk]
      field_simp
      linear_combination (q : ℝ) * hpyth
    have hfactor : 1 + k / (q / 2 ^ 16) + k * k ≠ 0 := by
      rintro hzero
      rw [hzero, zero_mul] at hprod
      exact hden.ne hprod
    rw [hnorm, ← hprod]
    field_simp
  -- the denominator stays as it is; the squares of `c` cancel
  generalize (2 * q + 2 ^ 16 * (2 * s * c) : ℝ) = D at hden hnorm'
  subst hb0 ha1 ha2
  rw [hnorm', hk]
  refine ⟨?_, ?_, ?_⟩
  · field_simp
    linear_combination (gain : ℝ) * hpyth
  · field_simp
    ring
  · field_simp
    linear_combination (q : ℝ) * hpyth

/-! ### The error of a rounded quotient -/

/-- Small errors of a numerator of bounded size and of a denominator that is not small leave a small
error of the quotient. -/
theorem quotient_error {n n' d d' : ℝ} (hd : 1 ≤ d) (hd' : 1 ≤ d') (hn : |n| ≤ 2 ^ 80)
    (hnum : |n' - n| ≤ 1 / 2 ^ 120) (hden : |d' - d| ≤ 1 / 2 ^ 120) :
    |n' / d' - n / d| ≤ 1 / 2 ^ 30 := by
  have hprod : 1 ≤ d * d' := one_le_mul_of_one_le_of_one_le hd hd'
  have hsplit : n' / d' - n / d = (n' - n) / d' - n * (d' - d) / (d * d') := by
    have h1 : d ≠ 0 := by linarith
    have h2 : d' ≠ 0 := by linarith
    field_simp
    ring
  have hfirst : |(n' - n) / d'| ≤ 1 / 2 ^ 120 := by
    rw [abs_div, abs_of_pos (by linarith : 0 < d')]
    exact (div_le_self (abs_nonneg _) hd').trans hnum
  have hsecond : |n * (d' - d) / (d * d')| ≤ 2 ^ 80 * (1 / 2 ^ 120) := by
    rw [abs_div, abs_of_pos (by linarith : 0 < d * d'), abs_mul]
    exact (div_le_self (by positivity) hprod).trans (by gcongr)
  rw [hsplit]
  exact (abs_sub _ _).trans ((add_le_add hfirst hsecond).trans (by norm_num))

/-- The rounded quotient of two integers in units of 2^-256 against a real quotient. -/
theorem rha_error {num : ℤ} {den : ℕ} {n d : ℝ} (hd : 2 ≤ d) (hn : |n| ≤ 2 ^ 80)
    (hnum : |(num : ℝ) / 2 ^ 256 - n| ≤ 1 / 2 ^ 120)
    (hden : |(den : ℝ) / 2 ^ 256 - d| ≤ 1 / 2 ^ 120) :
    |(rha num den : ℝ) - n / d| ≤ 1 / 2 + 1 / 2 ^ 10 := by
  have hd' : 1 ≤ (den : ℝ) / 2 ^ 256 := by
    have hlow := (abs_le.1 hden).1
    have hsmall : (1 : ℝ) / 2 ^ 120 ≤ 1 := by norm_num
    linarith
  have hpos : 0 < den := by
    rcases Nat.eq_zero_or_pos den with rfl | h
    · norm_num at hd'
    · exact h
  have hquot := quotient_error (by linarith) hd' hn hnum hden
  rw [div_div_div_cancel_right₀ (by positivity)] at hquot
  exact (abs_sub_le _ _ _).trans
    ((add_le_add (abs_rha_sub_le num hpos) hquot).trans (by norm_num))

/-! ### The coefficients against the real ones -/

section Errors

variable {fc q gain fs : ℕ} {φ : ℝ}

/-- The angle of R15 as a part of a turn. -/
theorem designAngle_eq (fc fs : ℕ) :
    2 * Real.pi * (fc / ((2 ^ 16 * fs : ℕ) : ℝ)) = 2 * (Real.pi * (fc / 2 ^ 16) / fs) := by
  rw [Nat.cast_mul, Nat.cast_pow, Nat.cast_ofNat, mul_assoc, ← div_div, mul_div_assoc]

/-- The sine and the cosine that `DESIGN` uses, at the angle of R15. -/
theorem designTrig_error (hf : FreqOk fc fs) (hφ : 2 * (Real.pi * (fc / 2 ^ 16) / fs) = φ) :
    |(sinTurns fc (2 ^ 16 * fs) : ℝ) / 2 ^ 256 - Real.sin φ| ≤ 1 / 2 ^ 230
      ∧ |(cosTurns fc (2 ^ 16 * fs) : ℝ) / 2 ^ 256 - Real.cos φ| ≤ 1 / 2 ^ 230 := by
  have hb : 0 < 2 ^ 16 * fs := by
    have := hf.1
    have := hf.2
    omega
  rw [← hφ, ← designAngle_eq]
  exact ⟨sinTurns_error fc hb, cosTurns_error fc hb⟩

theorem two_le_realDen (hf : FreqOk fc fs) (hq : 0 < q)
    (hφ : 2 * (Real.pi * (fc / 2 ^ 16) / fs) = φ) : 2 ≤ realDen q φ := by
  obtain ⟨hpos, hlt⟩ := designAngle_mem hf
  have hsin : 0 ≤ Real.sin φ := Real.sin_nonneg_of_nonneg_of_le_pi (by linarith) (by linarith)
  have hq1 : (1 : ℝ) ≤ q := by exact_mod_cast hq
  unfold realDen
  linarith

theorem designDen_error (hf : FreqOk fc fs) (hφ : 2 * (Real.pi * (fc / 2 ^ 16) / fs) = φ) :
    |(designDen fc q fs : ℝ) / 2 ^ 256 - realDen q φ| ≤ 1 / 2 ^ 120 := by
  obtain ⟨hsin, -⟩ := designTrig_error hf hφ
  have hcast : (designDen fc q fs : ℝ)
      = 2 * q * 2 ^ 256 + 2 ^ 16 * (sinTurns fc (2 ^ 16 * fs) : ℝ) := by
    rw [← trigOne_cast]
    exact_mod_cast designDen_cast hf
  have hfactor : (designDen fc q fs : ℝ) / 2 ^ 256 - realDen q φ
      = 2 ^ 16 * ((sinTurns fc (2 ^ 16 * fs) : ℝ) / 2 ^ 256 - Real.sin φ) := by
    rw [hcast, realDen, add_div, mul_div_cancel_right₀ _ (by positivity)]
    ring
  rw [hfactor, abs_mul, abs_of_pos (by positivity)]
  calc _ ≤ (2 : ℝ) ^ 16 * (1 / 2 ^ 230) := by gcongr
    _ ≤ 1 / 2 ^ 120 := by norm_num

theorem designB_error (hf : FreqOk fc fs) (hq : q < 2 ^ 32) (hgain : gain < 2 ^ 32)
    (hφ : 2 * (Real.pi * (fc / 2 ^ 16) / fs) = φ) :
    |(designB fc q gain fs : ℝ) / 2 ^ 256 - realB q gain φ| ≤ 1 / 2 ^ 121 := by
  obtain ⟨-, hcos⟩ := designTrig_error hf hφ
  have hq' : (q : ℝ) ≤ 2 ^ 32 := by exact_mod_cast hq.le
  have hgain' : (gain : ℝ) ≤ 2 ^ 32 := by exact_mod_cast hgain.le
  have hfactor : (designB fc q gain fs : ℝ) / 2 ^ 256 - realB q gain φ
      = -(2 ^ 12 * gain * q * ((cosTurns fc (2 ^ 16 * fs) : ℝ) / 2 ^ 256 - Real.cos φ)) := by
    rw [designB, realB]
    push_cast
    rw [trigOne_cast]
    have hT : (2 : ℝ) ^ 256 ≠ 0 := by positivity
    generalize (2 : ℝ) ^ 256 = T at hT ⊢
    field_simp
    ring
  rw [hfactor, abs_neg, abs_mul, abs_of_nonneg (by positivity)]
  calc _ ≤ (2 : ℝ) ^ 12 * 2 ^ 32 * 2 ^ 32 * (1 / 2 ^ 230) := by gcongr
    _ ≤ 1 / 2 ^ 121 := by norm_num

theorem designA1_error (hf : FreqOk fc fs) (hq : q < 2 ^ 32)
    (hφ : 2 * (Real.pi * (fc / 2 ^ 16) / fs) = φ) :
    |(designA1 fc q fs : ℝ) / 2 ^ 256 - realA1 q φ| ≤ 1 / 2 ^ 120 := by
  obtain ⟨-, hcos⟩ := designTrig_error hf hφ
  have hq' : (q : ℝ) ≤ 2 ^ 32 := by exact_mod_cast hq.le
  have hfactor : (designA1 fc q fs : ℝ) / 2 ^ 256 - realA1 q φ
      = -(2 ^ 30 * q * ((cosTurns fc (2 ^ 16 * fs) : ℝ) / 2 ^ 256 - Real.cos φ)) := by
    rw [designA1, realA1]
    push_cast
    ring
  rw [hfactor, abs_neg, abs_mul, abs_of_nonneg (by positivity)]
  calc _ ≤ (2 : ℝ) ^ 30 * 2 ^ 32 * (1 / 2 ^ 230) := by gcongr
    _ ≤ 1 / 2 ^ 120 := by norm_num

theorem designA2_error (hf : FreqOk fc fs) (hφ : 2 * (Real.pi * (fc / 2 ^ 16) / fs) = φ) :
    |(designA2 fc q fs : ℝ) / 2 ^ 256 - realA2 q φ| ≤ 1 / 2 ^ 120 := by
  obtain ⟨hsin, -⟩ := designTrig_error hf hφ
  have hfactor : (designA2 fc q fs : ℝ) / 2 ^ 256 - realA2 q φ
      = -(2 ^ 28 * 2 ^ 16 * ((sinTurns fc (2 ^ 16 * fs) : ℝ) / 2 ^ 256 - Real.sin φ)) := by
    rw [designA2, realA2]
    push_cast
    rw [trigOne_cast]
    have hT : (2 : ℝ) ^ 256 ≠ 0 := by positivity
    generalize (2 : ℝ) ^ 256 = T at hT ⊢
    field_simp
    ring
  rw [hfactor, abs_neg, abs_mul, abs_of_nonneg (by positivity)]
  calc _ ≤ (2 : ℝ) ^ 28 * 2 ^ 16 * (1 / 2 ^ 230) := by gcongr
    _ ≤ 1 / 2 ^ 120 := by norm_num

theorem abs_realB_le (hq : q < 2 ^ 32) (hgain : gain < 2 ^ 32) (φ : ℝ) :
    |realB q gain φ| ≤ 2 ^ 77 := by
  have hq' : (q : ℝ) ≤ 2 ^ 32 := by exact_mod_cast hq.le
  have hgain' : (gain : ℝ) ≤ 2 ^ 32 := by exact_mod_cast hgain.le
  have hcos : |1 - Real.cos φ| ≤ 2 := by
    rw [abs_le]
    constructor <;> linarith [Real.cos_le_one φ, Real.neg_one_le_cos φ]
  rw [realB, abs_mul, abs_of_nonneg (by positivity)]
  calc _ ≤ (2 : ℝ) ^ 12 * 2 ^ 32 * 2 ^ 32 * 2 := by gcongr
    _ = 2 ^ 77 := by norm_num

theorem abs_realA1_le (hq : q < 2 ^ 32) (φ : ℝ) : |realA1 q φ| ≤ 2 ^ 80 := by
  have hq' : (q : ℝ) ≤ 2 ^ 32 := by exact_mod_cast hq.le
  rw [realA1, neg_mul, neg_mul, abs_neg, abs_mul, abs_of_nonneg (by positivity)]
  calc _ ≤ (2 : ℝ) ^ 30 * 2 ^ 32 * 1 := by
        gcongr
        exact Real.abs_cos_le_one φ
    _ ≤ 2 ^ 80 := by norm_num

theorem abs_realA2_le (hq : q < 2 ^ 32) (φ : ℝ) : |realA2 q φ| ≤ 2 ^ 80 := by
  have hq' : (q : ℝ) ≤ 2 ^ 32 := by exact_mod_cast hq.le
  have hq0 : (0 : ℝ) ≤ q := q.cast_nonneg
  have hinner : |2 * (q : ℝ) - 2 ^ 16 * Real.sin φ| ≤ 2 ^ 34 := by
    rw [abs_le]
    constructor <;> linarith [Real.sin_le_one φ, Real.neg_one_le_sin φ]
  rw [realA2, abs_mul, abs_of_pos (by positivity)]
  calc _ ≤ (2 : ℝ) ^ 28 * 2 ^ 34 := by gcongr
    _ ≤ 2 ^ 80 := by norm_num

/-- R15: the rounded quotients are the real coefficients, in the order b0, b1, a1, a2, rounded up to
a slack of 2^-10. -/
theorem BilinearLowPass.error {k norm b0 a1 a2 : ℝ} (hf : FreqOk fc fs) (hq0 : 0 < q)
    (hq : q < 2 ^ 32) (hgain : gain < 2 ^ 32) (h : BilinearLowPass fc q gain fs k norm b0 a1 a2) :
    |(rha (designB fc q gain fs) (designDen fc q fs) : ℝ) - b0 * 2 ^ 28| ≤ 1 / 2 + 1 / 2 ^ 10
      ∧ |(rha (2 * designB fc q gain fs) (designDen fc q fs) : ℝ) - 2 * b0 * 2 ^ 28|
          ≤ 1 / 2 + 1 / 2 ^ 10
      ∧ |(rha (designA1 fc q fs) (designDen fc q fs) : ℝ) - a1 * 2 ^ 28| ≤ 1 / 2 + 1 / 2 ^ 10
      ∧ |(rha (designA2 fc q fs) (designDen fc q fs) : ℝ) - a2 * 2 ^ 28| ≤ 1 / 2 + 1 / 2 ^ 10 := by
  obtain ⟨hb0, ha1, ha2⟩ := h.quotients hf hq0
  obtain ⟨φ, hφ⟩ : ∃ φ : ℝ, 2 * (Real.pi * (fc / 2 ^ 16) / fs) = φ := ⟨_, rfl⟩
  rw [hφ] at hb0 ha1 ha2
  have hden := designDen_error (q := q) hf hφ
  have hden2 := two_le_realDen hf hq0 hφ
  have hB := designB_error hf hq hgain hφ
  have hBle := abs_realB_le hq hgain φ
  have hb1 : 2 * b0 * 2 ^ 28 = 2 * realB q gain φ / realDen q φ := by
    rw [mul_assoc, hb0, mul_div_assoc]
  have hB1 : |((2 * designB fc q gain fs : ℤ) : ℝ) / 2 ^ 256 - 2 * realB q gain φ|
      ≤ 1 / 2 ^ 120 := by
    push_cast
    rw [mul_div_assoc, ← mul_sub, abs_mul, abs_two]
    linarith
  have hB1le : |2 * realB q gain φ| ≤ 2 ^ 80 := by
    rw [abs_mul, abs_two]
    linarith
  rw [hb1, hb0, ha1, ha2]
  exact ⟨rha_error hden2 (by linarith) (hB.trans (by norm_num)) hden,
    rha_error hden2 hB1le hB1 hden,
    rha_error hden2 (abs_realA1_le hq φ) (designA1_error hf hq hφ) hden,
    rha_error hden2 (abs_realA2_le hq φ) (designA2_error hf hφ) hden⟩

end Errors

theorem toNat_pos_of_ne {w : Word} (h : w ≠ 0#32) : 0 < w.toNat :=
  Nat.pos_of_ne_zero fun h0 => h (BitVec.eq_of_toNat_eq h0)

/-- Settles O56: the results of a success are the rounded quotients, and these are the real
coefficients up to the slack. -/
theorem designIsBilinearLowPass : Obligations.DesignIsBilinearLowPass := by
  intro fc q gain fs d k norm b0 a1 a2 hdesign hk hnorm hb0 ha1 ha2
  obtain ⟨hq, hf, hfits, rfl⟩ := design_some hdesign
  obtain ⟨herr0, herr1, herrA1, herrA2⟩ := BilinearLowPass.error hf (toNat_pos_of_ne hq) q.isLt
    gain.isLt ⟨hk, hnorm, hb0, ha1, ha2⟩
  simp only [DesignFits, List.forall_mem_cons] at hfits
  obtain ⟨hfit0, hfit1, -, hfitA1, hfitA2, -⟩ := hfits
  simp only [designCoeffs, toInt_sreg_of_fits hfit0, toInt_sreg_of_fits hfit1,
    toInt_sreg_of_fits hfitA1, toInt_sreg_of_fits hfitA2]
  exact ⟨herr0, herr1, herr0, herrA1, herrA2⟩

/-! ### Where a coefficient fits (R161 (b)) -/

/-- A rounded value fits an s32 where the real one lies inside the edge, by the slack. -/
theorem fits_of_near {v : ℤ} {x : ℝ} (h : |(v : ℝ) - x| ≤ 1 / 2 + 1 / 2 ^ 10)
    (hlo : -2 ^ 31 - 1 / 2 + 1 / 2 ^ 9 ≤ x) (hhi : x ≤ 2 ^ 31 - 1 / 2 - 1 / 2 ^ 9) :
    -2 ^ 31 ≤ v ∧ v < 2 ^ 31 := by
  obtain ⟨h1, h2⟩ := abs_le.1 h
  have hlow : (-2 ^ 31 - 1 : ℝ) < v := by
    norm_num at *
    linarith
  have hhigh : (v : ℝ) < 2 ^ 31 := by
    norm_num at *
    linarith
  have hlow' : (-2 ^ 31 - 1 : ℤ) < v := by exact_mod_cast hlow
  exact ⟨by omega, by exact_mod_cast hhigh⟩

/-- A rounded value does not fit an s32 where the real one lies outside the edge, by the slack. -/
theorem not_fits_of_near {v : ℤ} {x : ℝ} (h : |(v : ℝ) - x| ≤ 1 / 2 + 1 / 2 ^ 10)
    (hout : x ≤ -2 ^ 31 - 1 / 2 - 1 / 2 ^ 9 ∨ 2 ^ 31 - 1 / 2 + 1 / 2 ^ 9 ≤ x) :
    ¬(-2 ^ 31 ≤ v ∧ v < 2 ^ 31) := by
  obtain ⟨h1, h2⟩ := abs_le.1 h
  rintro ⟨hlo, hhi⟩
  have hlo' : (-2 ^ 31 : ℝ) ≤ v := by exact_mod_cast hlo
  have hhi' : (v : ℝ) ≤ 2 ^ 31 - 1 := by exact_mod_cast Int.le_sub_one_of_lt hhi
  rcases hout with hout | hout <;> norm_num at * <;> linarith

/-- R161 (b): the real coefficients decide whether the rounded ones fit, up to the slack. -/
theorem BilinearLowPass.designFits {fc q gain fs : ℕ} {k norm b0 a1 a2 : ℝ} (hf : FreqOk fc fs)
    (hq0 : 0 < q) (hq : q < 2 ^ 32) (hgain : gain < 2 ^ 32)
    (h : BilinearLowPass fc q gain fs k norm b0 a1 a2) :
    ((∀ x ∈ [b0, 2 * b0, b0, a1, a2],
        -2 ^ 31 - 1 / 2 + 1 / 2 ^ 9 ≤ x * 2 ^ 28 ∧ x * 2 ^ 28 ≤ 2 ^ 31 - 1 / 2 - 1 / 2 ^ 9) →
      DesignFits fc q gain fs)
    ∧ ((∃ x ∈ [b0, 2 * b0, b0, a1, a2],
        x * 2 ^ 28 ≤ -2 ^ 31 - 1 / 2 - 1 / 2 ^ 9 ∨ 2 ^ 31 - 1 / 2 + 1 / 2 ^ 9 ≤ x * 2 ^ 28) →
      ¬DesignFits fc q gain fs) := by
  obtain ⟨herr0, herr1, herrA1, herrA2⟩ := h.error hf hq0 hq hgain
  simp only [DesignFits, List.forall_mem_cons, List.exists_mem_cons_iff]
  constructor
  · rintro ⟨h0, h1, -, hA1, hA2, -⟩
    have hfit0 := fits_of_near herr0 h0.1 h0.2
    exact ⟨hfit0, fits_of_near herr1 h1.1 h1.2, hfit0, fits_of_near herrA1 hA1.1 hA1.2,
      fits_of_near herrA2 hA2.1 hA2.2, by simp⟩
  · rintro hout ⟨hfit0, hfit1, -, hfitA1, hfitA2, -⟩
    rcases hout with hout | hout | hout | hout | hout | hout
    · exact not_fits_of_near herr0 hout hfit0
    · exact not_fits_of_near herr1 hout hfit1
    · exact not_fits_of_near herr0 hout hfit0
    · exact not_fits_of_near herrA1 hout hfitA1
    · exact not_fits_of_near herrA2 hout hfitA2
    · simp at hout

/-- Settles O55: `DESIGN` fails out of range and where a rounded quotient does not fit; the
relations are those of the rounded quotients. -/
theorem designProperties : Obligations.DesignProperties := by
  intro fc q gain fs
  refine ⟨design_out_of_range, fun d hd => ?_, fun hq hf hgain => ?_,
    fun k norm b0 a1 a2 hq hf hk hnorm hb0 ha1 ha2 => ?_⟩
  · obtain ⟨hq, hf, hfits, rfl⟩ := design_some hd
    obtain ⟨h2, h1, h0, hA1, hA2, hgain⟩ := designCoeffs_relations hf (toNat_pos_of_ne hq) hfits
    exact ⟨h2, h1, h0, hA1, hA2, fun h => hgain (by simp [h])⟩
  · obtain ⟨hsome, -⟩ := design_in_range (gain := gain) hq hf
    have hfits := designFits_of_gain_le hf (toNat_pos_of_ne hq) hgain
    exact ne_of_eq_of_ne (hsome hfits) (Option.some_ne_none _)
  · obtain ⟨hsome, hnone⟩ := design_in_range (gain := gain) hq hf
    obtain ⟨hin, hout⟩ := BilinearLowPass.designFits hf (toNat_pos_of_ne hq) q.isLt gain.isLt
      ⟨hk, hnorm, hb0, ha1, ha2⟩
    exact ⟨fun h => ne_of_eq_of_ne (hsome (hin h)) (Option.some_ne_none _),
      fun h => hnone (hout h)⟩

end Sys2Proof.Machine
end

