-- ==== Sys2Proof/Proofs/StateFrame.lean ====
section
/-!
PROOFS. What PROCESS leaves as it is (`10_state.md` R35, row PROCESS): the configuration, the
accepted parameters and the captured intensity, through one voice sample and through a frame; and
the obligation O27.
-/

namespace Sys2Proof.Machine

/-- R35, row PROCESS, with R143 and R146: the registers that a frame of samples leaves as they
are. -/
structure Voice.ParametersKept (v w : Voice) : Prop where
  cfg : w.cfg = v.cfg
  int : w.int = v.int
  f1 : w.o1.f = v.o1.f
  i1 : w.o1.i = v.o1.i
  second : w.o2.map (fun o => (o.f, o.i)) = v.o2.map (fun o => (o.f, o.i))
  na : w.env.na = v.env.na
  nd : w.env.nd = v.env.nd
  nr : w.env.nr = v.env.nr
  s : w.env.s = v.env.s
  cap : w.env.cap = v.env.cap
  q : w.filt.q = v.filt.q
  gain : w.filt.gain = v.filt.gain

theorem Voice.ParametersKept.refl (v : Voice) : v.ParametersKept v := by constructor <;> rfl

theorem Voice.ParametersKept.trans {u v w : Voice} (h : u.ParametersKept v)
    (h' : v.ParametersKept w) : u.ParametersKept w where
  cfg := h'.cfg.trans h.cfg
  int := h'.int.trans h.int
  f1 := h'.f1.trans h.f1
  i1 := h'.i1.trans h.i1
  second := h'.second.trans h.second
  na := h'.na.trans h.na
  nd := h'.nd.trans h.nd
  nr := h'.nr.trans h.nr
  s := h'.s.trans h.s
  cap := h'.cap.trans h.cap
  q := h'.q.trans h.q
  gain := h'.gain.trans h.gain

/-- R212: one voice sample keeps the parameters, because each component's own sample does. -/
theorem Voice.sample_parametersKept (P : Params) (v : Voice) :
    v.ParametersKept (v.sample P).2.1 := by
  obtain ⟨ho1, ho2⟩ := v.oscillators_regs P
  obtain ⟨hf1, hi1⟩ := Osc.sample_frame P v.cfg.fs v.o1
  obtain ⟨hna, hnd, hnr, hs, hcap⟩ := v.env.advance_frame
  obtain ⟨hq, hgain⟩ :=
    Filter.sample_frame P v.cfg.fs v.filt (envMultiply (v.oscillators P).o v.env.gain)
  rw [Voice.sample_eq]
  refine ⟨rfl, rfl, ?_, ?_, ?_, hna, hnd, hnr, hs, hcap, hq, hgain⟩
  · exact ho1 ▸ hf1
  · exact ho1 ▸ hi1
  · show Option.map _ (v.oscillators P).o2 = _
    rw [ho2, Option.map_map]
    congr 1
    funext o
    obtain ⟨hf, hi⟩ := Osc.sample_frame P v.cfg.fs o
    exact Prod.ext hf hi

/-- R207: a frame of samples keeps the parameters. -/
theorem Voice.process_parametersKept (P : Params) (n : Nat) (v : Voice) :
    v.ParametersKept (v.process P n).voice := by
  induction n generalizing v with
  | zero => exact .refl v
  | succ n ih =>
    rw [Voice.process_succ]
    exact (v.sample_parametersKept P).trans (ih _)

/-- PROCESS on a configured core (R207). -/
theorem processWith_some {P : Params} {s : State} {v : Voice} (hv : s.voice = some v) :
    processWith P s =
      .next (((s.setVoice (v.process P v.cfg.n.toNat).voice).raise
        (v.process P v.cfg.n.toNat).events).emit
          (Status.ok.word :: (v.process P v.cfg.n.toNat).out)) := by
  rw [processWith, withVoice_some hv]
  rfl

/-- Settles O27: PROCESS puts back the Voice that a frame of samples leaves. -/
theorem processKeepsParameters : Obligations.ProcessKeepsParameters := by
  intro s v hv
  have hkept := v.process_parametersKept chip v.cfg.n.toNat
  exact ⟨_, _, processWith_some hv, rfl, rfl, hkept.cfg, hkept.int, hkept.f1, hkept.i1,
    hkept.second, hkept.na, hkept.nd, hkept.nr, hkept.s, hkept.cap, hkept.q, hkept.gain⟩

end Sys2Proof.Machine
end

