-- ==== Sys2Proof/Proofs/StateStep.lean ====
section
/-!
PROOFS. What a step can do to the state, said once (`VoiceOp`, `CommandEffect`, `StepEffect`), and
from it the rules of `10_state.md` about every step: the invariant of R32 (O57, O58), the
configuration registers of R21 (O59) and the sticky bits of R30 (O30).
-/

namespace Sys2Proof.Machine

/-! ### The effect of a command -/

/-- A command that succeeds on the Voice `v` puts the second Voice in its place and records the
events. -/
inductive VoiceOp (P : Params) (v : Voice) : Instr → Voice → Sticky → Prop
  | setFreq {f : Word} {w : Voice} (h : v.setFrequency f = .ok w) :
      VoiceOp P v (.setFreq f) w Sticky.clear
  | setInt {x : Word} {w : Voice} (h : v.setIntensity x = .ok w) :
      VoiceOp P v (.setInt x) w Sticky.clear
  | toggle {on : Bool} {w : Voice} (h : v.toggle on = .ok w) :
      VoiceOp P v (.toggle on) w Sticky.clear
  | filtUpdate {fc q gain : Word} {w : Voice} (h : v.filtUpdate P fc q gain = .ok w) :
      VoiceOp P v (.filtUpdate fc q gain) w Sticky.clear
  | filtSweep {target total : Word} {w : Voice} {ev : Sticky}
      (h : v.filtSweep P target total = .ok (w, ev)) : VoiceOp P v (.filtSweep target total) w ev
  | process : VoiceOp P v .process (v.process P v.cfg.n.toNat).voice
      (v.process P v.cfg.n.toNat).events

/-- The changes of state that a command can make on a core whose Voice is `vo`: an answer alone, and
that is all a failed command does (R243); the answer that reads `STATUS`; RESET; a CONFIG whose
checks pass; or an operation on the Voice. -/
inductive CommandEffect (P : Params) (vo : Option Voice) : Instr → (State → State) → Prop
  | answer (i : Instr) (ws : List Word) : CommandEffect P vo i (State.emit ws)
  | status : CommandEffect P vo .getStatus fun s => s.emit [Status.ok.word, s.statusView]
  | reset : CommandEffect P vo .reset fun s => s.unconfigure.emit [Status.ok.word]
  | config {fs n kind coupling int f0 fc q gain att dec sus rel : Word} {w : Voice}
      (h : configure P fs n kind coupling int f0 fc q gain att dec sus rel = .ok w) :
      CommandEffect P vo (.config fs n kind coupling int f0 fc q gain att dec sus rel)
        fun s => (s.rebuild w).emit [Status.ok.word]
  | voiceOp {i : Instr} {v w : Voice} {ev : Sticky} (hv : vo = some v) (h : VoiceOp P v i w ev)
      (ws : List Word) : CommandEffect P vo i fun s => ((s.setVoice w).raise ev).emit ws

/-- On every core whose Voice is `vo` the command `run` answers one of its effects. -/
def HasEffect (P : Params) (vo : Option Voice) (i : Instr)
    (run : State → Host.Outcome State Fault Refusal) : Prop :=
  ∃ F, CommandEffect P vo i F ∧ ∀ s : State, s.voice = vo → run s = .next (F s)

/-- A command that needs a Voice has its effect, if it has one on the Voice there is. -/
theorem hasEffect_withVoice {P : Params} {vo : Option Voice} {i : Instr}
    {k : State → Voice → Host.Outcome State Fault Refusal}
    (hk : ∀ v, vo = some v → HasEffect P vo i fun s => k s v) :
    HasEffect P vo i fun s => withVoice s (k s) := by
  cases vo with
  | none => exact ⟨_, .answer i [Status.enotready.word], fun s hs => withVoice_none hs _⟩
  | some v =>
    obtain ⟨F, heff, hrun⟩ := hk v rfl
    exact ⟨F, heff, fun s hs => (withVoice_some hs _).trans (hrun s hs)⟩

/-- A control command answers its failure, or replaces the Voice. -/
theorem hasEffect_control {P : Params} {vo : Option Voice} {i : Instr}
    {op : Voice → Except Status (Voice × Sticky)}
    (hop : ∀ v w ev, op v = .ok (w, ev) → VoiceOp P v i w ev) :
    HasEffect P vo i fun s => control s op := by
  refine hasEffect_withVoice fun v hv => ?_
  cases hr : op v with
  | error st => exact ⟨_, .answer i [st.word], fun s _ => rfl⟩
  | ok r => exact ⟨_, .voiceOp hv (hop v r.1 r.2 hr) [Status.ok.word], fun s _ => rfl⟩

/-- A control command without events answers its failure, or replaces the Voice. -/
theorem hasEffect_quiet {P : Params} {vo : Option Voice} {i : Instr}
    {op : Voice → Except Status Voice}
    (hop : ∀ v w, op v = .ok w → VoiceOp P v i w Sticky.clear) :
    HasEffect P vo i fun s => control s fun v => quiet (op v) := by
  refine hasEffect_control fun v w ev h => ?_
  obtain ⟨hw, rfl⟩ := quiet_ok h
  exact hop v w hw

/-- A GET of the Voice answers alone. -/
theorem hasEffect_view (P : Params) (vo : Option Voice) (i : Instr) (get : Voice → Word) :
    HasEffect P vo i fun s => view s get :=
  hasEffect_withVoice fun v _ => ⟨_, .answer i [Status.ok.word, get v], fun _ _ => rfl⟩

/-- CONFIG answers its failure, or builds a Voice. -/
theorem hasEffect_configWith (P : Params) (vo : Option Voice)
    (fs n kind coupling int f0 fc q gain att dec sus rel : Word) :
    HasEffect P vo (.config fs n kind coupling int f0 fc q gain att dec sus rel)
      (configWith P fs n kind coupling int f0 fc q gain att dec sus rel) := by
  cases hc : configure P fs n kind coupling int f0 fc q gain att dec sus rel with
  | error st => exact ⟨_, .answer _ [st.word], fun s _ => by rw [configWith, hc]; rfl⟩
  | ok w => exact ⟨_, .config hc, fun s _ => by rw [configWith, hc]; rfl⟩

/-- PROCESS replaces the Voice by the one that a frame of samples leaves. -/
theorem hasEffect_processWith (P : Params) (vo : Option Voice) :
    HasEffect P vo .process (processWith P) :=
  hasEffect_withVoice fun v hv =>
    ⟨_, .voiceOp hv .process (Status.ok.word :: (v.process P v.cfg.n.toNat).out), fun _ _ => rfl⟩

/-- Every command, at any parameters, has one of its effects. -/
theorem hasEffect_execWith (P : Params) (vo : Option Voice) (i : Instr) :
    HasEffect P vo i (execWith P i) := by
  cases i with
  | nop => exact ⟨_, .answer .nop [Status.ok.word], fun _ _ => rfl⟩
  | reset => exact ⟨_, .reset, fun _ _ => rfl⟩
  | config => apply hasEffect_configWith
  | setFreq f => exact hasEffect_quiet fun _ _ => .setFreq
  | setInt x => exact hasEffect_quiet fun _ _ => .setInt
  | toggle on => exact hasEffect_quiet fun _ _ => .toggle
  | filtUpdate fc q gain => exact hasEffect_quiet fun _ _ => .filtUpdate
  | filtSweep target total => exact hasEffect_control fun _ _ _ => .filtSweep
  | process => exact hasEffect_processWith P vo
  | getStatus => exact ⟨_, .status, fun _ _ => rfl⟩
  | getFreq1 | getFreq2 | getInt | getFc | getQ | getGain | getStage | getFactor | getFs | getN
  | getMode => exact hasEffect_view P vo _ _

/-! ### The effect of a step -/

/-- The changes of state that a step can make with `cmd` in the command stream: none while the
stream holds no whole command (R49), `EBADOP` on an illegal header (R66, R253), or the effect of the
command on the consumed stream (R61). -/
inductive StepEffect (P : Params) (cmd : List Word) (vo : Option Voice) :
    (State → State) → Prop
  | wait : StepEffect P cmd vo id
  | illegal (rest : List Word) :
      StepEffect P cmd vo fun s => (s.consume rest).emit [Status.ebadop.word]
  | command {i : Instr} {rest : List Word} {F : State → State}
      (hd : decode cmd = .command i rest) (h : CommandEffect P vo i F) :
      StepEffect P cmd vo fun s => F (s.consume rest)

/-- Every step, at any parameters, has one of its effects; which one depends on the command stream
and the Voice alone. -/
theorem stepWith_effect (P : Params) (cmd : List Word) (vo : Option Voice) :
    ∃ F, StepEffect P cmd vo F
      ∧ ∀ s : State, s.cmd = cmd → s.voice = vo → stepWith P s = .next (F s) := by
  cases hd : decode cmd with
  | command i rest =>
    obtain ⟨F, heff, hrun⟩ := hasEffect_execWith P vo i
    refine ⟨_, .command hd heff, fun s hc hv => ?_⟩
    rw [stepWith, stepBy_command _ (hc ▸ hd)]
    exact hrun _ hv
  | unknownOpcode rest =>
    exact ⟨_, .illegal rest, fun s hc _ => by rw [stepWith, stepBy, hc, hd]; rfl⟩
  | reservedField rest =>
    exact ⟨_, .illegal rest, fun s hc _ => by rw [stepWith, stepBy, hc, hd]; rfl⟩
  | incomplete => exact ⟨_, .wait, fun s hc _ => by rw [stepWith, stepBy, hc, hd]; rfl⟩

/-- The machine's step has the effects of the parameters `chip`. -/
theorem step_effect (cmd : List Word) (vo : Option Voice) :
    ∃ F, StepEffect chip cmd vo F
      ∧ ∀ s : State, s.cmd = cmd → s.voice = vo → step s = .next (F s) := by
  obtain ⟨F, heff, hrun⟩ := stepWith_effect chip cmd vo
  exact ⟨F, heff, fun s hc hv => (step_eq_stepWith_chip s).trans (hrun s hc hv)⟩

/-- A step of the machine, inverted: its next state is that of one of the effects. -/
theorem step_next_effect {s t : State} (h : step s = .next t) :
    ∃ F, StepEffect chip s.cmd s.voice F ∧ t = F s := by
  obtain ⟨F, heff, hrun⟩ := step_effect s.cmd s.voice
  exact ⟨F, heff, Host.Outcome.next.inj (h.symm.trans (hrun s rfl rfl))⟩

/-! ### The invariant (R32) -/

/-- R32: every operation keeps the Voice sound; the target coefficients stay those designed unless
the operation reports a failed design. -/
theorem VoiceOp.inv {P : Params} (hP : DesignRange P) {v w : Voice} {i : Instr} {ev : Sticky}
    (h : VoiceOp P v i w ev) (hi : VoiceInv P v) :
    VoiceInv P w ∧ (v.Designed P → ev.designErr = false → w.Designed P) := by
  cases h with
  | setFreq h =>
    obtain ⟨_, _, _, _, _, _, _, _, rfl⟩ := Voice.setFrequency_ok h
    exact ⟨Voice.setFrequency_inv hi h, fun hd _ => hd⟩
  | setInt h =>
    obtain ⟨_, _, _, _, _, rfl⟩ := Voice.setIntensity_ok h
    exact ⟨Voice.setIntensity_inv hi h, fun hd _ => hd⟩
  | toggle h =>
    obtain ⟨_, _, rfl⟩ := Voice.toggle_ok h
    exact ⟨Voice.toggle_inv hi h, fun hd _ => hd⟩
  | filtUpdate h =>
    obtain ⟨hw, hd⟩ := Voice.filtUpdate_inv hP hi h
    exact ⟨hw, fun _ _ => hd⟩
  | filtSweep h =>
    obtain ⟨hw, hd⟩ := Voice.filtSweep_inv hi h
    exact ⟨hw, fun _ => hd⟩
  | process => exact Voice.process_inv hi

/-- The invariant speaks of the registers alone. -/
theorem State.InvAt.congr {P : Params} {s t : State} (h : s.InvAt P) (hv : t.voice = s.voice)
    (hst : t.sticky = s.sticky) : t.InvAt P := by
  refine ⟨?_, ?_, ?_⟩
  · rw [hv, hst]; exact h.unconfigured
  · rw [hv]; exact h.voice
  · rw [hv, hst]; exact h.designed

/-- A core without a Voice and with no sticky bit set is sound. -/
theorem State.invAt_of_unconfigured {P : Params} {s : State} (hv : s.voice = none)
    (hst : s.sticky = Sticky.clear) : s.InvAt P := by
  refine ⟨fun _ => hst, fun v h => ?_, fun v h => ?_⟩ <;> simp [hv] at h

/-- A configured core is sound where its Voice is, and where the target coefficients are those
designed unless the sticky bits report a failed design. -/
theorem State.invAt_of_voice {P : Params} {s : State} {v : Voice} (hv : s.voice = some v)
    (hi : VoiceInv P v) (hd : s.sticky.designErr = false → v.Designed P) : s.InvAt P := by
  refine ⟨fun h => ?_, fun w h => ?_, fun w h hst => ?_⟩ <;> rw [hv] at h <;> cases h
  · exact hi
  · exact hd hst

/-- R32: every command keeps the state sound. -/
theorem CommandEffect.inv {P : Params} (hP : DesignRange P) {i : Instr} {F : State → State}
    {s : State} (h : CommandEffect P s.voice i F) (hs : s.InvAt P) : (F s).InvAt P := by
  cases h with
  | answer ws => exact hs.congr rfl rfl
  | status => exact hs.congr rfl rfl
  | reset => exact State.invAt_of_unconfigured rfl rfl
  | config h =>
    obtain ⟨hw, hd⟩ := configure_inv hP h
    exact State.invAt_of_voice rfl hw fun _ => hd
  | voiceOp hv h ws =>
    obtain ⟨hw, hd⟩ := h.inv hP (hs.voice _ hv)
    refine State.invAt_of_voice rfl hw fun herr => ?_
    simp only [State.emit_sticky, State.raise_sticky, State.setVoice_sticky, Sticky.or_designErr,
      Bool.or_eq_false_iff] at herr
    exact hd (hs.designed _ hv herr.1) herr.2

/-- R32: every step keeps the state sound. -/
theorem StepEffect.inv {P : Params} (hP : DesignRange P) {F : State → State} {s : State}
    (h : StepEffect P s.cmd s.voice F) (hs : s.InvAt P) : (F s).InvAt P := by
  cases h with
  | wait => exact hs
  | illegal rest => exact hs.congr rfl rfl
  | command hd h => exact CommandEffect.inv (s := s.consume _) hP h (hs.congr rfl rfl)

/-- R32, at any parameters: a step from a sound state answers a sound state. -/
theorem stepWith_inv {P : Params} (hP : DesignRange P) {s : State} (hs : s.InvAt P) :
    ∃ t, stepWith P s = .next t ∧ t.InvAt P := by
  obtain ⟨F, heff, hrun⟩ := stepWith_effect P s.cmd s.voice
  exact ⟨F s, hrun s rfl rfl, heff.inv hP hs⟩

/-- Settles O57: the effects of a step keep the invariant; the machine's `DESIGN` has the range. -/
theorem stepKeepsInvariant : Obligations.StepKeepsInvariant := by
  refine ⟨fun s hs => ?_, fun P s hP hs => stepWith_inv hP hs⟩
  rw [step_eq_stepWith_chip]
  exact stepWith_inv chip_designRange hs

/-- Settles O58: after reset there is no Voice and no sticky bit. -/
theorem resetSound : Obligations.ResetSound :=
  ⟨State.invAt_of_unconfigured State.reset_voice State.reset_sticky, rfl⟩

/-! ### The configuration registers (R21) -/

/-- R21: the two Voices have the same configuration registers. -/
def Voice.ConfigKept (v w : Voice) : Prop :=
  w.cfg = v.cfg ∧ w.env.na = v.env.na ∧ w.env.nd = v.env.nd ∧ w.env.nr = v.env.nr
    ∧ w.env.s = v.env.s

theorem Voice.ConfigKept.refl (v : Voice) : v.ConfigKept v := ⟨rfl, rfl, rfl, rfl, rfl⟩

/-- R144, R145, inverted: the trigger leaves the envelope as it is, or captures an intensity or not
and enters a stage. -/
theorem Envelope.trigger_ok {on : Bool} {i : BitVec 24} {e e' : Envelope}
    (h : e.trigger on i = .ok e') :
    e' = e ∨ ∃ cap stage, e' = { e with cap := cap }.enter stage := by
  cases on with
  | true =>
    have h' : e.noteOn i = .ok e' := h
    unfold Envelope.noteOn at h'
    split at h' <;> cases h'
    · exact .inr ⟨i, .attack, rfl⟩
    · exact .inl rfl
  | false =>
    have h' : e' = e.noteOff := (Except.ok.inj h).symm
    subst h'
    unfold Envelope.noteOff
    split
    · exact .inl rfl
    · exact .inl rfl
    all_goals exact .inr ⟨e.cap, .release, rfl⟩

/-- R21: no operation on the Voice writes a configuration register. -/
theorem VoiceOp.configKept {P : Params} {v w : Voice} {i : Instr} {ev : Sticky}
    (h : VoiceOp P v i w ev) : v.ConfigKept w := by
  cases h with
  | setFreq h =>
    obtain ⟨_, _, _, _, _, _, _, _, rfl⟩ := Voice.setFrequency_ok h
    exact ⟨rfl, rfl, rfl, rfl, rfl⟩
  | setInt h =>
    obtain ⟨_, _, _, _, _, rfl⟩ := Voice.setIntensity_ok h
    exact ⟨rfl, rfl, rfl, rfl, rfl⟩
  | toggle h =>
    obtain ⟨e, he, rfl⟩ := Voice.toggle_ok h
    obtain rfl | ⟨cap, stage, rfl⟩ := Envelope.trigger_ok he <;> exact ⟨rfl, rfl, rfl, rfl, rfl⟩
  | filtUpdate h =>
    obtain ⟨_, _, rfl⟩ := Voice.filtUpdate_ok h
    exact ⟨rfl, rfl, rfl, rfl, rfl⟩
  | filtSweep h =>
    obtain ⟨_, _, _, rfl, _⟩ := Voice.filtSweep_ok h
    exact ⟨rfl, rfl, rfl, rfl, rfl⟩
  | process =>
    have hkept := v.process_parametersKept P v.cfg.n.toNat
    exact ⟨hkept.cfg, hkept.na, hkept.nd, hkept.nr, hkept.s⟩

/-- Settles O59, by the effects of a step. -/
theorem configurationReadOnly : Obligations.ConfigurationReadOnly := by
  intro s t v hv hstep
  obtain ⟨F, heff, rfl⟩ := step_next_effect hstep
  cases heff with
  | wait => exact .inl ⟨v, hv, Voice.ConfigKept.refl v⟩
  | illegal rest => exact .inl ⟨v, hv, Voice.ConfigKept.refl v⟩
  | command hd heff =>
    cases heff with
    | answer ws => exact .inl ⟨v, hv, Voice.ConfigKept.refl v⟩
    | status => exact .inl ⟨v, hv, Voice.ConfigKept.refl v⟩
    | reset => exact .inr (.inl ⟨_, hd, rfl⟩)
    | config h => exact .inr (.inr ⟨_, _, _, _, _, _, _, _, _, _, _, _, _, _, hd, rfl⟩)
    | voiceOp hv' h ws =>
      cases hv.symm.trans hv'
      exact .inl ⟨_, rfl, h.configKept⟩

/-! ### The sticky bits (R30) -/

/-- R30: a step keeps every sticky bit that is set, or it is a RESET or a successful CONFIG, which
clears them. -/
theorem StepEffect.sticky {F : State → State} {s : State} (h : StepEffect chip s.cmd s.voice F) :
    (∃ ev, (F s).sticky = s.sticky.or ev)
      ∨ (F s).sticky = Sticky.clear ∧ (F s).resp = s.resp ++ [0#32]
        ∧ ((∃ rest, decode s.cmd = .command .reset rest)
          ∨ ∃ fs n k c x f fc q g a d su r rest,
              decode s.cmd = .command (.config fs n k c x f fc q g a d su r) rest) := by
  cases h with
  | wait => exact .inl ⟨Sticky.clear, (Sticky.or_clear _).symm⟩
  | illegal rest => exact .inl ⟨Sticky.clear, (Sticky.or_clear _).symm⟩
  | command hd h =>
    cases h with
    | answer ws => exact .inl ⟨Sticky.clear, (Sticky.or_clear _).symm⟩
    | status => exact .inl ⟨Sticky.clear, (Sticky.or_clear _).symm⟩
    | reset => exact .inr ⟨rfl, rfl, .inl ⟨_, hd⟩⟩
    | config h =>
      exact .inr ⟨rfl, rfl, .inr ⟨_, _, _, _, _, _, _, _, _, _, _, _, _, _, hd⟩⟩
    | voiceOp hv h ws => exact .inl ⟨_, rfl⟩

/-- R30: with other sticky bits in the state a step other than GET.STATUS makes the same change but
to the sticky bits. -/
theorem StepEffect.ignores_sticky {P : Params} {F : State → State} {s : State}
    (h : StepEffect P s.cmd s.voice F) (hget : ∀ rest, decode s.cmd ≠ .command .getStatus rest)
    (st : Sticky) : ∃ st', F { s with sticky := st } = { F s with sticky := st' } := by
  cases h with
  | wait => exact ⟨st, rfl⟩
  | illegal rest => exact ⟨st, rfl⟩
  | command hd h =>
    cases h with
    | answer ws => exact ⟨st, rfl⟩
    | status => exact absurd hd (hget _)
    | reset => exact ⟨Sticky.clear, rfl⟩
    | config h => exact ⟨Sticky.clear, rfl⟩
    | voiceOp hv h ws => exact ⟨st.or _, rfl⟩

/-- Settles O30, by the effects of a step. -/
theorem stickyBits : Obligations.StickyBits := by
  refine ⟨fun s t hstep => ?_, fun s t st hstep hget => ?_⟩
  · obtain ⟨F, heff, rfl⟩ := step_next_effect hstep
    obtain ⟨ev, hev⟩ | hcleared := heff.sticky
    · refine .inl ?_
      rw [hev]
      exact ⟨fun h => by simp [h], fun h => by simp [h], fun h => by simp [h]⟩
    · exact .inr hcleared
  · obtain ⟨F, heff, hrun⟩ := step_effect s.cmd s.voice
    obtain rfl : t = F s := Host.Outcome.next.inj (hstep.symm.trans (hrun s rfl rfl))
    obtain ⟨st', hst'⟩ := heff.ignores_sticky hget st
    exact ⟨st', (hrun { s with sticky := st } rfl rfl).trans (congrArg _ hst')⟩

end Sys2Proof.Machine
end

