-- ==== Sys2Proof/Proofs/StateViews.lean ====
section
/-!
PROOFS. The views that the GET commands answer (`43_voice.md` R209): the bits of `STATUS`
(`10_state.md` R30, O29), the view of each selector and the headers that are refused (O28).
-/

namespace Sys2Proof

/-! ### The fields of a header word as numbers (R60) -/

theorem toNat_opField (h : Word) : (opField h).toNat = h.toNat / 2 ^ 24 := by
  rw [opField, BitVec.extractLsb'_toNat, Nat.shiftRight_eq_div_pow]
  exact Nat.mod_eq_of_lt (by have := h.isLt; omega)

theorem toNat_selField (h : Word) : (selField h).toNat = h.toNat / 2 ^ 16 % 2 ^ 8 := by
  rw [selField, BitVec.extractLsb'_toNat, Nat.shiftRight_eq_div_pow]

theorem toNat_argField (h : Word) : (argField h).toNat = h.toNat % 2 ^ 16 := by
  rw [argField, BitVec.extractLsb'_toNat, Nat.shiftRight_zero]

/-- R66 (b): the selectors above 11 are reserved. -/
theorem getCommand_reserved {sel : BitVec 8} (h : 11 < sel.toNat) : getCommand sel = none := by
  unfold getCommand
  split
  case h_13 => rfl
  all_goals omega

/-- R66 (b): a GET header with a reserved selector or a non-zero `arg` is refused, the header
alone consumed. -/
theorem decode_get_reserved {h : Word} (rest : List Word) (hop : h.toNat / 2 ^ 24 = 0x40)
    (hbad : 11 < h.toNat / 2 ^ 16 % 2 ^ 8 ∨ h.toNat % 2 ^ 16 ≠ 0) :
    decode (h :: rest) = .reservedField rest := by
  have hfield : opField h = 0x40#8 := BitVec.eq_of_toNat_eq ((toNat_opField h).trans hop)
  have hnone : commandOf h [] = none := by
    rw [commandOf, if_pos hfield]
    split
    · rename_i harg
      have hzero : h.toNat % 2 ^ 16 = 0 := by rw [← toNat_argField, harg]; rfl
      exact getCommand_reserved (by rw [toNat_selField]; exact hbad.resolve_right (not_not.2 hzero))
    · rfl
  rw [← List.nil_append rest, decode_operands [] rest (by rw [hfield]; rfl), hnone]
  rfl

end Sys2Proof

namespace Sys2Proof.Machine

/-! ### The bits of STATUS (R30) -/

/-- The bits of a flag: bit `k` as the flag says, every other bit 0. -/
theorem getLsbD_flagBit {k j : Nat} {b : Bool} (hj : j < 32) :
    (flagBit k b).getLsbD j = true ↔ j = k ∧ b = true := by
  cases b with
  | false => simp [flagBit]
  | true =>
    simp only [flagBit, if_true, BitVec.getLsbD_shiftLeft, BitVec.getLsbD_one, Bool.and_eq_true,
      Bool.not_eq_true', decide_eq_true_eq, decide_eq_false_iff_not, and_true]
    omega

/-- R102: a busy oscillator is a sine in a frequency transition. -/
theorem Osc.busy_iff {o : Osc} : o.busy = true ↔ ∃ r, o.wave = .sine r ∧ r.tr ≠ .none := by
  unfold Osc.busy
  cases o.wave <;> simp

/-- R30: `OSC2_BUSY` reads a busy `O2`. -/
theorem Voice.osc2Busy_iff {v : Voice} :
    v.osc2Busy = true ↔ ∃ o r, v.o2 = some o ∧ o.wave = .sine r ∧ r.tr ≠ .none := by
  unfold Voice.osc2Busy
  cases v.o2 with
  | none => simp
  | some o => simp [Osc.busy_iff]

/-- R30, R242: the busy stages. -/
theorem Stage.busy_iff {st : Stage} :
    st.busy = true ↔ st = .attack ∨ st = .decay ∨ st = .release := by
  cases st <;> simp [Stage.busy]

/-- R30: bits 3:1 are the sticky bits. -/
theorem getLsbD_stickyBits {st : Sticky} {k : Nat} (hk : k < 32) :
    st.bits.getLsbD k = true ↔
      (k = 1 ∧ st.filtOvf = true) ∨ (k = 2 ∧ st.designErr = true)
        ∨ (k = 3 ∧ st.idxWrap = true) := by
  simp only [Sticky.bits, BitVec.getLsbD_or, Bool.or_eq_true, getLsbD_flagBit hk, or_assoc]

/-- R30: bits 12:8 and bit 0 are the live bits of a configured core. -/
theorem Voice.getLsbD_liveBits {v : Voice} {k : Nat} (hk : k < 32) :
    v.liveBits.getLsbD k = true ↔
      k = 0 ∨ (k = 8 ∧ v.filt.xfOn = true) ∨ (k = 9 ∧ v.filt.swOn = true)
        ∨ (k = 10 ∧ v.o1.busy = true) ∨ (k = 11 ∧ v.osc2Busy = true)
        ∨ (k = 12 ∧ v.env.stage.busy = true) := by
  simp only [Voice.liveBits, BitVec.getLsbD_or, Bool.or_eq_true, getLsbD_flagBit hk, or_assoc,
    and_true]

/-- R30: the bits of `STATUS`, with the live ones read from the Voice where there is one. -/
theorem State.getLsbD_statusView (s : State) (k : Nat) :
    s.statusView.getLsbD k = true ↔
      (∃ v, s.voice = some v ∧ v.liveBits.getLsbD k = true) ∨ s.sticky.bits.getLsbD k = true := by
  unfold State.statusView
  cases s.voice <;> simp

/-- Settles O29: the sticky bits, and the live bits on a configured core. -/
theorem statusBits : Obligations.StatusBits := by
  intro s
  refine ⟨s.statusView, rfl, fun k hk => ?_⟩
  rw [State.getLsbD_statusView, getLsbD_stickyBits hk]
  cases hv : s.voice with
  | none => simp
  | some v =>
    simp only [Option.some.injEq, exists_eq_left', exists_eq', and_true, exists_and_left,
      Voice.getLsbD_liveBits hk, Osc.busy_iff, Voice.osc2Busy_iff, Stage.busy_iff]
    rw [or_right_comm]
    simp only [or_assoc]

/-! ### The views (R209) -/

/-- A GET on a configured core answers `OK` and its view. -/
theorem view_some {s : State} {v : Voice} (hv : s.voice = some v) (get : Voice → Word) :
    view s get = .next { s with resp := s.resp ++ [0#32, get v] } :=
  withVoice_some hv _

/-- A GET on an unconfigured core answers `ENOTREADY`. -/
theorem view_none {s : State} (hv : s.voice = none) (get : Voice → Word) :
    view s get = .next { s with resp := s.resp ++ [4#32] } :=
  withVoice_none hv _

/-- R209: the view of `O2.f`, which is 0 where there is no `O2`. -/
theorem Voice.freq2_eq (v : Voice) : v.freq2 = (v.o2.map fun o => o.f).getD 0#32 := by
  unfold Voice.freq2
  cases v.o2 <;> rfl

/-- R209: a register of 24 bits in a response word, zero-extended. -/
theorem ureg_toNat (x : BitVec 24) : ureg 32 x.toNat = x.setWidth 32 :=
  BitVec.eq_of_toNat_eq (by simp [ureg])

/-- R200: `O2` exists exactly where it is coupled. -/
theorem VoiceInv.uncoupled_iff {P : Params} {v : Voice} (h : VoiceInv P v) :
    v.cfg.coupling = .uncoupled ↔ v.o2 = none := by
  have hratio : v.cfg.coupling = .uncoupled ↔ coupled v.cfg.coupling v.o1.f = none := by
    cases v.cfg.coupling <;> simp [coupled, Coupling.ratio]
  rw [hratio]
  have hsecond := h.second
  cases ho : v.o2 with
  | none => exact iff_of_true (by rwa [ho] at hsecond) rfl
  | some o =>
    rw [ho] at hsecond
    obtain ⟨f2, hf2, _⟩ := hsecond
    simp [hf2]

/-- R204: both oscillators of a sound Voice have the intensity `V.int`. -/
theorem VoiceInv.intensity {P : Params} {v : Voice} (h : VoiceInv P v) :
    v.o1.i = v.int ∧ ∀ o, v.o2 = some o → o.i = v.int := by
  refine ⟨h.first.i_eq, fun o ho => ?_⟩
  have hsecond := h.second
  rw [ho] at hsecond
  obtain ⟨_, _, _, _, hosc⟩ := hsecond
  exact hosc.i_eq

/-- R140: the view of the stage is its number. -/
theorem stageView_eq {st : Stage} {k : Word} (h : (st, k) ∈ [(Stage.idle, 0#32), (.attack, 1#32),
    (.decay, 2#32), (.sustain, 3#32), (.release, 4#32)]) : ureg 32 st.code = k := by
  have hk : k = ureg 32 st.code := by cases st <;> simpa [Stage.code, ureg] using h
  exact hk.symm

/-- R21: the number of a waveform kind, by the table. -/
theorem Waveform.code_eq {w : Waveform} {k : Nat}
    (h : (w, k) ∈ [(Waveform.saw, 0), (.sine, 1), (.square, 2)]) : w.code = k := by
  cases w <;> simpa [Waveform.code, eq_comm] using h

/-- R21: the number of a coupling mode, by the table. -/
theorem Coupling.code_eq {c : Coupling} {k : Nat} (h : (c, k) ∈ [(Coupling.uncoupled, 0),
    (.minorThird, 1), (.majorThird, 2), (.fifth, 3), (.octave, 4)]) : c.code = k := by
  cases c <;> simpa [Coupling.code, eq_comm] using h

/-- R252: on an unconfigured core a GET of the Voice answers `ENOTREADY`. -/
theorem exec_get_none {s : State} (hv : s.voice = none) {i : Instr}
    (hi : i ∈ [.getFreq1, .getFreq2, .getInt, .getFc, .getQ, .getGain, .getStage, .getFactor,
      .getFs, .getN, .getMode]) :
    exec i s = .next { s with resp := s.resp ++ [4#32] } := by
  simp only [List.mem_cons, List.not_mem_nil, or_false] at hi
  obtain rfl | rfl | rfl | rfl | rfl | rfl | rfl | rfl | rfl | rfl | rfl := hi
  all_goals exact view_none hv _

/-- Settles O28, view by view; a refused header answers `EBADOP` with itself consumed. -/
theorem getViews : Obligations.GetViews := by
  refine ⟨⟨by decide, fun s => rfl⟩, fun s v hv => ?_, fun s i hv hi => exec_get_none hv hi,
    fun s h rest hcmd hop hbad => ?_⟩
  · refine ⟨view_some hv _, ?_, ?_, view_some hv _, view_some hv _, view_some hv _,
      fun k hk => ?_, ?_, view_some hv _, view_some hv _, fun k c hk hc => ?_,
      fun hi => ⟨hi.intensity.1, hi.intensity.2, hi.uncoupled_iff⟩⟩
    · rw [← Voice.freq2_eq]
      exact view_some hv _
    · rw [← ureg_toNat]
      exact view_some hv _
    · rw [← stageView_eq hk]
      exact view_some hv _
    · rw [← ureg_toNat]
      exact view_some hv _
    · rw [← Waveform.code_eq hk, ← Coupling.code_eq hc]
      exact view_some hv _
  · rw [step, stepBy, hcmd, decode_get_reserved rest hop hbad]
    rfl

end Sys2Proof.Machine
end

