-- ==== Sys2Proof/Proofs/StateConfig.lean ====
section
/-!
PROOFS. CONFIG (`43_voice.md` R201): its operand words against the tables of `30_encoding.md` R63
and `20_memory.md` R44, the construction of an oscillator (`40_oscillator.md` R104, R105, R110,
R115), and the registers it writes (`10_state.md` R33, O17).
-/

namespace Sys2Proof.Machine

/-! ### Enumerated operands and coupling (R21, R44, R63) -/

/-- R63: the word of a waveform kind's number names the kind. -/
theorem Waveform.ofWord_code {w : Word} {k : Waveform} (h : w.toNat = k.code) :
    Waveform.ofWord w = some k := by
  unfold Waveform.ofWord
  rw [h]
  cases k <;> rfl

/-- R63: the word of a coupling mode's number names the mode. -/
theorem Coupling.ofWord_code {w : Word} {c : Coupling} (h : w.toNat = c.code) :
    Coupling.ofWord w = some c := by
  unfold Coupling.ofWord
  rw [h]
  cases c <;> rfl

/-- R44: the coupling ratios are those of the table. -/
theorem Coupling.ratio_eq_some {c : Coupling} {r : Nat} :
    c.ratio = some r ↔ (c.code, r) ∈ ratioTable := by
  cases c <;> simp [Coupling.ratio, Coupling.code, ratioTable, eq_comm]

/-- R202: the coupled frequency is the product with the ratio of the table, rounded down. -/
theorem coupled_eq_some {c : Coupling} {f : Word} {f2 : Nat} :
    coupled c f = some f2 ↔ ∃ r, (c.code, r) ∈ ratioTable ∧ f.toNat * r / 2 ^ 30 = f2 := by
  simp only [coupled, Option.map_eq_some_iff, Coupling.ratio_eq_some]

/-- R201, R203: the check of the coupled frequency fails exactly where the frequency is out of
range. -/
theorem coupledOk_iff {c : Coupling} {f fs : Word} :
    coupledOk c f fs = true ↔ ¬CoupledBad c.code f.toNat fs.toNat := by
  have hbad : CoupledBad c.code f.toNat fs.toNat
      ↔ ∃ f2, coupled c f = some f2 ∧ ¬FreqOk f2 fs.toNat := by
    constructor
    · rintro ⟨r, hr, h⟩
      exact ⟨_, coupled_eq_some.2 ⟨r, hr, rfl⟩, by omega⟩
    · rintro ⟨f2, hf2, h⟩
      obtain ⟨r, hr, rfl⟩ := coupled_eq_some.1 hf2
      exact ⟨r, hr, by omega⟩
  rw [hbad, coupledOk]
  cases coupled c f with
  | none => simp
  | some f2 => simp

/-! ### Construction of an oscillator (R104) -/

/-- R103: the peak amplitude in the order of the statements. -/
theorem ampOf_eq (i : Nat) : ampOf i = i * 8388607 / 2 ^ 23 := by
  rw [ampOf, Config.fsc_val, Nat.mul_comm]

/-- R105: the step of the saw in the order of the statements. -/
theorem sawStep_eq (max f fs : Nat) : sawStep max f fs = 2 * max * f / (fs * 2 ^ 16) := by
  rw [sawStep, Nat.mul_comm fs]

/-- R110: the half-period where it fits its register. -/
theorem toNat_sqHalfWord {f fs : Word}
    (h : (fs.toNat * 2 ^ 16 + f.toNat) / (2 * f.toNat) < 2 ^ 32) :
    (sqHalfWord f fs).toNat = (fs.toNat * 2 ^ 16 + f.toNat) / (2 * f.toNat) := by
  have hsq : sqHalf f.toNat fs.toNat = (fs.toNat * 2 ^ 16 + f.toNat) / (2 * f.toNat) := by
    rw [sqHalf, Nat.mul_comm fs.toNat]
  rw [← hsq] at h ⊢
  rw [sqHalfWord, if_pos h, toNat_ureg h]

/-- R105: the amplitude of the saw starts at the peak. -/
theorem sawInit_amp {fs f : Word} {i : BitVec 24} (hi : UnitOk i.toNat) :
    (sawInit fs f i).amp.toInt = (sawInit fs f i).max.toNat := by
  have hle := ampOf_le hi
  simp only [Config.fsc_val] at hle
  simp only [sawInit, toNat_ampOf hi]
  rw [BitVec.toInt_eq_toNat_of_lt, toNat_ureg (by omega)]
  rw [toNat_ureg (by omega)]
  omega

/-- R104: `construct` leaves the oscillator as the spec lists it. -/
theorem constructed_oscInit (kind : Waveform) {fs f i : Word} (hf : FreqOk f.toNat fs.toNat)
    (hi : UnitOk i.toNat) :
    Constructed kind fs.toNat f.toNat i.toNat (oscInit kind fs f (ureg 24 i.toNat)) := by
  have hint := toNat_unit hi
  have hi' : UnitOk (ureg 24 i.toNat).toNat := by rwa [hint]
  refine ⟨rfl, hint, ?_⟩
  cases kind with
  | saw =>
    have hinv := sawInit_inv hf hi'
    refine ⟨?_, ?_, sawInit_amp hi'⟩
    · rw [hinv.max_eq, hint, ampOf_eq]
    · rw [hinv.step_eq, sawStep_eq]
  | square =>
    refine ⟨?_, rfl, rfl, one_le_sqHalfWord hf, toNat_sqHalfWord⟩
    rw [(squareInit_inv hf hi').max_eq, hint, ampOf_eq]
  | sine => exact rfl

/-! ### The registers that CONFIG writes (R33) -/

/-- R141: a segment length that fits its register. -/
theorem toNat_segmentLen {ms fs : Word} (h : ms.toNat * fs.toNat / 1000 < 2 ^ 32) :
    (ureg 32 (segmentLen ms.toNat fs.toNat)).toNat = ms.toNat * fs.toNat / 1000 := toNat_ureg h

/-- R202: the coupled frequency where it fits its register. -/
theorem toNat_coupledWord {c : Coupling} {f : Word} {f2 : Nat} (h : f2 < 2 ^ 32) :
    (coupledWord c f f2).toNat = f2 := by
  rw [coupledWord, if_pos h, toNat_ureg h]

/-- R201: where every check of CONFIG passes the Voice is the constructed one. -/
theorem configure_eq_voiceInit {P : Params}
    {fs n kind coupling int f0 fc q gain att dec sus rel : Word} {k : Waveform} {c : Coupling}
    {d : Coeffs} (hr : configRangesOk P fs n int f0 att dec sus rel = true)
    (hk : Waveform.ofWord kind = some k) (hc : Coupling.ofWord coupling = some c)
    (hco : coupledOk c f0 fs = true) (hd : P.design fc q gain fs = some d) :
    configure P fs n kind coupling int f0 fc q gain att dec sus rel
      = .ok (voiceInit fs n k c int f0 d fc q gain att dec sus rel) := by
  simp only [configure, hr, hk, hc, hco, hd, if_true]

/-- CONFIG (R201) where the Voice can be built. -/
theorem configWith_ok {P : Params} {fs n kind coupling int f0 fc q gain att dec sus rel : Word}
    {v : Voice} (h : configure P fs n kind coupling int f0 fc q gain att dec sus rel = .ok v)
    (s : State) :
    configWith P fs n kind coupling int f0 fc q gain att dec sus rel s
      = .next { s with
          resp := s.resp ++ [0#32], voice := some v, sticky := ⟨false, false, false⟩ } := by
  rw [configWith, h]
  rfl

/-- R200, R202: `O2` right after CONFIG, at each mode that has a ratio. -/
theorem voiceInit_second {fs n int f0 fc q gain att dec sus rel : Word} {k : Waveform}
    {c : Coupling} {d : Coeffs} (hint : UnitOk int.toNat) (hco : coupledOk c f0 fs = true)
    {r : Nat} (hr : (c.code, r) ∈ ratioTable) :
    ∃ o, (voiceInit fs n k c int f0 d fc q gain att dec sus rel).o2 = some o
      ∧ (f0.toNat * r / 2 ^ 30 < 2 ^ 32 → o.f.toNat = f0.toNat * r / 2 ^ 30)
      ∧ Constructed k fs.toNat o.f.toNat int.toNat o := by
  have hcoupled : coupled c f0 = some (f0.toNat * r / 2 ^ 30) := coupled_eq_some.2 ⟨r, hr, rfl⟩
  rw [coupledOk, hcoupled] at hco
  have hf2 := freqOk_coupledWord (c := c) (f := f0) (of_decide_eq_true hco)
  exact ⟨_, congrArg (Option.map _) hcoupled, toNat_coupledWord, constructed_oscInit k hf2 hint⟩

/-- Settles O17: the checks pass by the hypotheses, and the Voice is the constructed one. -/
theorem configRegisters : Obligations.ConfigRegisters := by
  refine ⟨fun _ _ _ _ _ _ _ _ _ _ _ _ _ => rfl, ?_⟩
  intro P s fs n kw cw int f0 fc q gain att dec sus rel k c d hfs hn hnmax hk hc hint hsus hatt
    hdec hrel hna hnd hnr hf0 hf0fs hcoupled hd
  have hkw : kw.toNat = k.code := (Waveform.code_eq hk).symm
  have hcw : cw.toNat = c.code := (Coupling.code_eq hc).symm
  have hintOk : UnitOk int.toNat := hint
  have hsusOk : UnitOk sus.toNat := hsus
  have hf : FreqOk f0.toNat fs.toNat :=
    ⟨Nat.pos_of_ne_zero fun h => hf0 (BitVec.eq_of_toNat_eq h), by omega⟩
  have hco : coupledOk c f0 fs = true := coupledOk_iff.2 (hcw ▸ hcoupled)
  have hranges : configRangesOk P fs n int f0 att dec sus rel = true := by
    simp only [configRangesOk, Bool.and_eq_true, decide_eq_true_eq]
    exact ⟨⟨⟨⟨⟨hfs, hn, hnmax⟩, hintOk, hsusOk⟩, hatt, hdec, hrel⟩, hf⟩, hna, hnd, hnr⟩
  have hconfig := configWith_ok (configure_eq_voiceInit (gain := gain) hranges
    (Waveform.ofWord_code hkw) (Coupling.ofWord_code hcw) hco hd) s
  refine ⟨voiceInit fs n k c int f0 d fc q gain att dec sus rel, _, hconfig, ?_, rfl, rfl,
    toNat_unit hintOk, constructed_oscInit k hf hintOk, ?_, ?_, toNat_segmentLen hna,
    toNat_segmentLen hnd, toNat_segmentLen hnr, toNat_unit hsusOk, rfl, rfl, rfl, rfl, rfl⟩
  · rintro rfl
    exact hconfig
  · rintro rfl
    rfl
  · intro r hr
    exact voiceInit_second hintOk hco (hcw ▸ hr)

end Sys2Proof.Machine
end

