-- ==== Sys2Proof/Proofs/MemoryStreams.lean ====
section
/-!
PROOFS. The command stream of `20_memory.md`: words as bytes on a byte transport (R48), a stream
that does not hold a whole command (R49), and the obligations O6 and O60.
-/

namespace Sys2Proof.Machine

/-! ### Bytes of a word (R48) -/

/-- Byte `k` of a word as a number. -/
theorem toNat_wordByte (w : Word) (k : Nat) :
    (wordByte w k).toNat = w.toNat / 2 ^ (8 * k) % 2 ^ 8 := by
  rw [wordByte, BitVec.extractLsb'_toNat, Nat.shiftRight_eq_div_pow]

/-- Nothing stands above the most significant byte. -/
theorem toNat_wordByte_three (w : Word) : (wordByte w 3).toNat = w.toNat / 2 ^ 24 := by
  have hw := w.isLt
  rw [toNat_wordByte]
  exact Nat.mod_eq_of_lt (by omega)

/-- A word is its four bytes, the most significant in front. -/
theorem wordByte_append (w : Word) :
    wordByte w 3 ++ wordByte w 2 ++ wordByte w 1 ++ wordByte w 0 = w := by
  unfold wordByte
  rw [BitVec.extractLsb'_append_extractLsb'_eq_extractLsb' (show 8 * 3 = 8 * 2 + 8 from rfl),
    BitVec.extractLsb'_append_extractLsb'_eq_extractLsb' (show 8 * 2 = 8 * 1 + 8 from rfl),
    BitVec.extractLsb'_append_extractLsb'_eq_extractLsb' (show 8 * 1 = 8 * 0 + 8 from rfl)]
  exact BitVec.extractLsb'_eq_self

/-- The bytes of the other order are those of the little-endian order, reversed. -/
theorem bytesOfWord_big (w : Word) : bytesOfWord .big w = (bytesOfWord .little w).reverse := rfl

/-- The four bytes of a word at the front are read as the word. -/
theorem wordsOfBytes_bytesOfWord_append (order : ByteOrder) (w : Word) (rest : List Byte) :
    wordsOfBytes order (bytesOfWord order w ++ rest)
      = (w :: (wordsOfBytes order rest).1, (wordsOfBytes order rest).2) := by
  cases order <;> simp [bytesOfWord, wordsOfBytes, wordOfBytes, wordByte_append]

/-- Fewer than four bytes are an unfinished word. -/
theorem wordsOfBytes_of_length_lt (order : ByteOrder) {left : List Byte} (h : left.length < 4) :
    wordsOfBytes order left = ([], left) := by
  match left with
  | [] | [_] | [_, _] | [_, _, _] => rfl
  | _ :: _ :: _ :: _ :: _ => simp at h; omega

/-- The bytes of words give the words back, and the bytes behind them stay. -/
theorem wordsOfBytes_flatMap_append (order : ByteOrder) (ws : List Word) {left : List Byte}
    (h : left.length < 4) :
    wordsOfBytes order (ws.flatMap (bytesOfWord order) ++ left) = (ws, left) := by
  induction ws with
  | nil => exact wordsOfBytes_of_length_lt order h
  | cons w ws ih =>
    rw [List.flatMap_cons, List.append_assoc, wordsOfBytes_bytesOfWord_append, ih]

/-- Settles O60: byte by byte for one word, then by induction on the words. -/
theorem byteTransport : Obligations.ByteTransport := by
  refine ⟨fun w => ⟨?_, bytesOfWord_big w⟩, rfl, fun order ws left =>
    wordsOfBytes_flatMap_append order ws⟩
  simp only [bytesOfWord, List.map_cons, List.map_nil, toNat_wordByte_three]
  simp [toNat_wordByte]

/-! ### A stream without a whole command (R49) -/

/-- The step waits where the decoder finds no whole command. -/
theorem stepBy_incomplete (run : Instr → State → Host.Outcome State Fault Refusal) {s : State}
    (h : decode s.cmd = .incomplete) : stepBy run s = .next s := by
  rw [stepBy, h]

/-- Settles O6: the decoder finds no whole command in either stream. -/
theorem waitsForWords : Obligations.WaitsForWords := by
  rintro s (hempty | ⟨h, tail, k, hcmd, hcount, hshort⟩)
  · exact stepBy_incomplete exec (by rw [hempty]; rfl)
  · exact stepBy_incomplete exec (by rw [hcmd, decode_short hcount hshort])

end Sys2Proof.Machine
end

