-- ==== Sys2Proof/Proofs/MemoryTables.lean ====
section
/-!
PROOFS. The read-only tables of `20_memory.md`: the symmetries, signs and quarter-turn values of the
reference `SINROM` (R42), the nearest integers of `RATIO` (R44), and the obligations O50 and O53.
-/

namespace Sys2Proof.Machine

/-! ### The fixed-point sine by quadrant -/

theorem sinQuarter_zero (b : ℕ) : sinQuarter 0 b = 0 := by
  simp [sinQuarter, sinSmall]

/-- The sine where the quadrant `k` has gone by and the `r / b` part of the next quarter turn. -/
def quadrantSine (k r b : ℕ) : ℤ :=
  match k with
  | 0 => sinQuarter r b
  | 1 => sinQuarter (b - r) b
  | 2 => -sinQuarter r b
  | _ => -sinQuarter (b - r) b

/-- The end of a quadrant is the start of the next one. -/
theorem quadrantSine_end {k : ℕ} (hk : k < 3) (b : ℕ) :
    quadrantSine k b b = quadrantSine (k + 1) 0 b := by
  interval_cases k <;> simp [quadrantSine, sinQuarter_zero]

/-- Backwards through the turn the sine changes sign. -/
theorem quadrantSine_reflect {k r b : ℕ} (hk : k ≤ 3) (hr : r ≤ b) :
    quadrantSine (3 - k) (b - r) b = -quadrantSine k r b := by
  have hback : b - (b - r) = r := Nat.sub_sub_self hr
  interval_cases k <;> simp [quadrantSine, hback]

/-- Half a turn on the sine changes sign. -/
theorem quadrantSine_add_two {k : ℕ} (hk : k < 2) (r b : ℕ) :
    quadrantSine (k + 2) r b = -quadrantSine k r b := by
  interval_cases k <;> rfl

/-- The sine has the period of a turn. -/
theorem sinTurns_mod (a b : ℕ) : sinTurns (a % b) b = sinTurns a b := by
  simp only [sinTurns, Nat.mod_mod]

/-- The sine by quadrant, where a quadrant holds both its ends. -/
theorem sinTurns_eq_quadrantSine {a b k r : ℕ} (hb : 0 < b) (hk : k ≤ 3) (hr : r ≤ b)
    (h : 4 * a = b * k + r) : sinTurns a b = quadrantSine k r b := by
  have hinside {a k r : ℕ} (hk : k ≤ 3) (hr : r < b) (h : 4 * a = b * k + r) :
      sinTurns a b = quadrantSine k r b := by
    have hab : a < b := by nlinarith
    have hquad : 4 * a / b = k := by
      rw [h, Nat.mul_add_div hb, Nat.div_eq_of_lt hr, Nat.add_zero]
    have hpart : 4 * a % b = r := by rw [h, Nat.mul_add_mod, Nat.mod_eq_of_lt hr]
    simp only [sinTurns, Nat.mod_eq_of_lt hab, hquad, hpart]
    rfl
  rcases hr.lt_or_eq with hlt | rfl
  · exact hinside hk hlt h
  · rcases hk.lt_or_eq with hk | rfl
    · rw [quadrantSine_end hk]
      exact hinside hk hb (by rw [h]; ring)
    · obtain rfl : a = r := by omega
      rw [← sinTurns_mod, Nat.mod_self, hinside (k := 0) (r := 0) (by norm_num) hb (by ring)]
      simp [quadrantSine, sinQuarter_zero]

/-- A part of a turn below `n` quarters lies in one of the first `n` quadrants. -/
theorem exists_quadrant {a b n : ℕ} (hb : 0 < b) (ha : 4 * a < n * b) :
    ∃ k r, k < n ∧ r ≤ b ∧ 4 * a = b * k + r :=
  ⟨4 * a / b, 4 * a % b, (Nat.div_lt_iff_lt_mul hb).2 ha, (Nat.mod_lt _ hb).le,
    (Nat.div_add_mod _ _).symm⟩

/-- The sine of the rest of the turn. -/
theorem sinTurns_reflect {a b : ℕ} (ha : a < b) : sinTurns (b - a) b = -sinTurns a b := by
  have hb : 0 < b := by omega
  obtain ⟨k, r, hk, hr, h⟩ := exists_quadrant hb (show 4 * a < 4 * b by omega)
  have hrest : 4 * (b - a) = b * (3 - k) + (b - r) := by
    interval_cases k <;> omega
  rw [sinTurns_eq_quadrantSine hb (Nat.sub_le 3 k) (Nat.sub_le b r) hrest,
    sinTurns_eq_quadrantSine hb (by omega) hr h, quadrantSine_reflect (by omega) hr]

/-- From the first half turn into the second the sine changes sign. -/
theorem sinTurns_add_half_of_lt {a h : ℕ} (ha : a < h) :
    sinTurns (a + h) (2 * h) = -sinTurns a (2 * h) := by
  have hb : 0 < 2 * h := by omega
  obtain ⟨k, r, hk, hr, hquad⟩ := exists_quadrant hb (show 4 * a < 2 * (2 * h) by omega)
  have hshift : 4 * (a + h) = 2 * h * (k + 2) + r := by linarith
  rw [sinTurns_eq_quadrantSine hb (by omega) hr hshift,
    sinTurns_eq_quadrantSine hb (by omega) hr hquad, quadrantSine_add_two hk]

/-- Half a turn on the sine changes sign. -/
theorem sinTurns_add_half {a h : ℕ} (ha : a < 2 * h) :
    sinTurns (a + h) (2 * h) = -sinTurns a (2 * h) := by
  rcases lt_or_ge a h with hlt | hge
  · exact sinTurns_add_half_of_lt hlt
  · obtain ⟨c, rfl⟩ := Nat.exists_eq_add_of_le' hge
    rw [sinTurns_add_half_of_lt (a := c) (by omega), neg_neg, ← sinTurns_mod,
      show c + h + h = c + 2 * h by ring, Nat.add_mod_right, sinTurns_mod]

/-! ### The sine table (R42) -/

/-- `rshr_sym` keeps the sign. -/
theorem rshrSym_nonneg {v : ℤ} (hv : 0 ≤ v) (k : ℕ) : 0 ≤ rshrSym v k := by
  rw [rshrSym_of_nonneg hv]
  exact Int.ediv_nonneg (by positivity) (by positivity)

theorem chip_sinrom (p : Word) :
    chip.sinrom p = rshrSym (sinTurns p.toNat (2 ^ 32)) (256 - 23) := rfl

theorem sinrom_bounds (p : Word) : -2 ^ 23 ≤ chip.sinrom p ∧ chip.sinrom p ≤ 2 ^ 23 := by
  obtain ⟨hlo, hhi⟩ := abs_le.1 (abs_sinTurns_le p.toNat (2 ^ 32))
  have hone : (trigOne : ℤ) = 2 ^ 23 * 2 ^ (256 - 23) := by norm_num [trigOne]
  rw [hone] at hlo hhi
  exact rshrSym_le (by norm_num) (by norm_num) hlo hhi

theorem sinrom_zero : chip.sinrom 0#32 = 0 := by decide +kernel

theorem sinrom_quarter : chip.sinrom 0x40000000#32 = 2 ^ 23 := by decide +kernel

theorem sinrom_neg (p : Word) : chip.sinrom (-p) = -chip.sinrom p := by
  rw [chip_sinrom, BitVec.toNat_neg, sinTurns_mod, sinTurns_reflect p.isLt,
    rshrSym_neg _ (by norm_num), ← chip_sinrom]

theorem sinrom_add_half (p : Word) : chip.sinrom (p + 0x80000000#32) = -chip.sinrom p := by
  have hhalf : (0x80000000#32).toNat = 2 ^ 31 := rfl
  have hturn := sinTurns_add_half (a := p.toNat) (h := 2 ^ 31) p.isLt
  rw [← pow_succ'] at hturn
  rw [chip_sinrom, BitVec.toNat_add, sinTurns_mod, hhalf, hturn, rshrSym_neg _ (by norm_num),
    ← chip_sinrom]

theorem sinrom_half : chip.sinrom 0x80000000#32 = 0 := by
  have h := sinrom_add_half 0#32
  rwa [sinrom_zero, neg_zero] at h

theorem sinrom_three_quarters : chip.sinrom 0xC0000000#32 = -2 ^ 23 := by
  have h := sinrom_add_half 0x40000000#32
  rwa [sinrom_quarter] at h

/-- In the first half turn the table is not negative. -/
theorem sinrom_nonneg {p : Word} (h : p.toNat ≤ 2 ^ 31) : 0 ≤ chip.sinrom p := by
  rcases h.lt_or_eq with hlt | heq
  · exact rshrSym_nonneg (sinTurns_nonneg (by omega)) _
  · obtain rfl : p = 0x80000000#32 := BitVec.eq_of_toNat_eq heq
    exact sinrom_half.ge

/-- In the second half turn it is not positive: there `-p` lies in the first. -/
theorem sinrom_nonpos {p : Word} (h : 2 ^ 31 ≤ p.toNat) : chip.sinrom p ≤ 0 := by
  have hneg : 0 ≤ chip.sinrom (-p) := sinrom_nonneg (by rw [BitVec.toNat_neg]; omega)
  rwa [sinrom_neg, Int.neg_nonneg] at hneg

/-- Settles O53, clause by clause. -/
theorem sinromProperties : Obligations.SinromProperties :=
  ⟨sinrom_bounds, sinrom_zero, sinrom_quarter, sinrom_half, sinrom_three_quarters,
    fun p => ⟨sinrom_neg p, sinrom_add_half p⟩, fun _ => ⟨sinrom_nonneg, sinrom_nonpos⟩⟩

/-! ### The ratio table (R44) -/

/-- An integer is nearest to `2^(k/12) * 2^30` if the halves around it enclose it; both sides are
compared by their twelfth powers. -/
theorem abs_sub_twelfth_root_le {k r : ℕ} (hlo : (2 * r - 1 : ℤ) ^ 12 ≤ 2 ^ k * (2 ^ 31) ^ 12)
    (hhi : (2 ^ k * (2 ^ 31) ^ 12 : ℤ) ≤ (2 * r + 1) ^ 12) :
    |(r : ℝ) - (2 : ℝ) ^ ((k : ℝ) / 12) * 2 ^ 30| ≤ 1 / 2 := by
  have hpos : (0 : ℝ) < 2 ^ ((k : ℝ) / 12) := by positivity
  have hroot : ((2 : ℝ) ^ ((k : ℝ) / 12)) ^ 12 = 2 ^ k := by
    rw [← Real.rpow_natCast, ← Real.rpow_mul (by norm_num), ← Real.rpow_natCast]
    congr 1
    push_cast
    ring
  generalize (2 : ℝ) ^ ((k : ℝ) / 12) = x at hpos hroot ⊢
  have hscaled : (x * 2 ^ 31) ^ 12 = 2 ^ k * (2 ^ 31) ^ 12 := by
    rw [mul_pow, hroot]
  have hlow : 2 * (r : ℝ) - 1 ≤ x * 2 ^ 31 := by
    refine le_of_pow_le_pow_left₀ (n := 12) (by norm_num) (by positivity) ?_
    rw [hscaled]
    exact_mod_cast hlo
  have hhigh : x * 2 ^ 31 ≤ 2 * (r : ℝ) + 1 := by
    refine le_of_pow_le_pow_left₀ (n := 12) (by norm_num) (by positivity) ?_
    rw [hscaled]
    exact_mod_cast hhi
  rw [abs_le]
  constructor <;> linarith

/-- Settles O50, entry by entry. -/
theorem ratioNearest : Obligations.RatioNearest := by
  intro c k r h
  simp only [List.mem_cons, Prod.mk.injEq, List.not_mem_nil, or_false] at h
  obtain ⟨rfl, rfl, rfl⟩ | ⟨rfl, rfl, rfl⟩ | ⟨rfl, rfl, rfl⟩ | ⟨rfl, rfl, rfl⟩ := h
  all_goals exact ⟨rfl, abs_sub_twelfth_root_le (by norm_num) (by norm_num)⟩

end Sys2Proof.Machine
end

