-- ==== Sys2Proof/Proofs/EncodingDecoder.lean ====
section
/-!
PROOFS. The encoding of `30_encoding.md`: the decoder as the inverse of the encoder (R60 to R66) and
the obligation O1.
-/

namespace Sys2Proof

/-! ### The encoder on what the opcode map reads (R63, R65, R66) -/

/-- R62, R65: the operand counts that the decoder uses are those of the opcode map. -/
theorem operandCount_eq_some_iff (op : BitVec 8) (k : Nat) :
    operandCount op = some k ↔ (op.toNat, k) ∈ Machine.operandCounts := by
  unfold operandCount
  split
  case h_11 => simp_all [Machine.operandCounts]
  all_goals simp [Machine.operandCounts, eq_comm (b := k), *]

/-- R65: the words of a format-`Z` command are its header and the operand words it was read from,
row by row of the map, the operands named by their positions. -/
theorem encode_of_formatZ {op : BitVec 8} {ops : List Word} {i : Instr}
    (hcount : operandCount op = some ops.length) (h : formatZ op ops = some i) :
    encode i = header op 0#8 0#16 :: ops := by
  obtain ⟨operand, hops⟩ : ∃ f : Fin ops.length → Word, ops = List.ofFn f :=
    ⟨ops.get, (List.ofFn_get ops).symm⟩
  have hop : op = BitVec.ofNat 8 op.toNat := by rw [BitVec.ofNat_toNat, BitVec.setWidth_eq]
  have hrow := (operandCount_eq_some_iff _ _).1 hcount
  rw [hops, hop] at h
  rw [hops, hop]
  clear hcount hops hop
  generalize ops.length = k at operand hrow h
  generalize op.toNat = n at hrow h
  fin_cases hrow
  all_goals cases h
  all_goals rfl

/-- R209: the words of a GET command are the header with its selector. -/
theorem encode_of_getCommand {sel : BitVec 8} {i : Instr} (h : getCommand sel = some i) :
    encode i = [header 0x40#8 sel 0#16] := by
  have hsel : sel = BitVec.ofNat 8 sel.toNat := by rw [BitVec.ofNat_toNat, BitVec.setWidth_eq]
  unfold getCommand at h
  split at h
  all_goals cases h
  all_goals
    rename_i hnum
    rw [hsel, hnum]
    rfl

/-- R63: an `arg` whose bits 15:1 are 0 is TOGGLE's flag. -/
theorem toggleArg_eq {arg : BitVec 16} (h : arg.extractLsb' 1 15 = 0#15) :
    arg = if arg.getLsbD 0 then 1#16 else 0#16 := by
  have hhigh : arg.toNat >>> 1 % 2 ^ 15 = 0 := by
    rw [← BitVec.extractLsb'_toNat, h]
    rfl
  have hsmall : arg.toNat = 0 ∨ arg.toNat = 1 := by
    have hlt := arg.isLt
    rw [Nat.shiftRight_eq_div_pow] at hhigh
    omega
  obtain hzero | hone := hsmall
  · obtain rfl : arg = 0#16 := BitVec.eq_of_toNat_eq hzero
    rfl
  · obtain rfl : arg = 1#16 := BitVec.eq_of_toNat_eq hone
    rfl

/-- R65, R66 (b): a header and the operand words its opcode takes are the words of the command they
make up. -/
theorem encode_of_commandOf {h : Word} {ops : List Word} {i : Instr}
    (hcount : operandCount (opField h) = some ops.length) (hcmd : commandOf h ops = some i) :
    encode i = h :: ops := by
  have noOperands : ∀ op : BitVec 8, operandCount op = some 0 → opField h = op → ops = [] := by
    rintro op hzero rfl
    exact List.eq_nil_of_length_eq_zero (Option.some.inj (hcount.symm.trans hzero))
  unfold commandOf at hcmd
  split at hcmd
  case isTrue hget =>
    obtain rfl := noOperands _ rfl hget
    split at hcmd
    case isTrue harg =>
      rw [encode_of_getCommand hcmd, ← hget, ← harg, header_fields]
    case isFalse => cases hcmd
  case isFalse =>
    split at hcmd
    case isTrue htoggle =>
      obtain rfl := noOperands _ rfl htoggle
      split at hcmd
      case isTrue hfields =>
        obtain ⟨hsel, harg⟩ := hfields
        cases hcmd
        rw [encode, ← toggleArg_eq harg, ← htoggle, ← hsel, header_fields]
      case isFalse => cases hcmd
    case isFalse =>
      split at hcmd
      case isTrue hfields =>
        obtain ⟨hsel, harg⟩ := hfields
        rw [encode_of_formatZ hcount hcmd, ← hsel, ← harg, header_fields]
      case isFalse => cases hcmd

/-! ### The decoder as the inverse of the encoder (R61) -/

/-- The decoder, inverted: a command is a header and as many operand words as its opcode takes. -/
theorem decode_command {ws : List Word} {i : Instr} {rest : List Word}
    (h : decode ws = .command i rest) :
    ∃ hd ops, ws = hd :: (ops ++ rest) ∧ operandCount (opField hd) = some ops.length
      ∧ commandOf hd ops = some i := by
  cases ws with
  | nil => cases h
  | cons hd tail =>
    cases hk : operandCount (opField hd) with
    | none =>
      rw [decode_unknown _ hk] at h
      cases h
    | some k =>
      by_cases hshort : tail.length < k
      · rw [decode_short hk hshort] at h
        cases h
      · have hcount : operandCount (opField hd) = some (tail.take k).length := by
          rw [hk, List.length_take_of_le (by omega)]
        rw [← List.take_append_drop k tail, decode_operands _ _ hcount] at h
        cases hcmd : commandOf hd (tail.take k) with
        | none =>
          rw [hcmd] at h
          cases h
        | some j =>
          rw [hcmd] at h
          cases h
          exact ⟨hd, tail.take k, by rw [List.take_append_drop], hcount, hcmd⟩

/-- Settles O1: what the decoder reads is a command's encoding, and it reads that back. -/
theorem decodeEncodeAgree : Obligations.DecodeEncodeAgree := by
  intro ws i rest
  constructor
  · intro h
    obtain ⟨hd, ops, rfl, hcount, hcmd⟩ := decode_command h
    rw [encode_of_commandOf hcount hcmd, List.cons_append]
  · rintro rfl
    exact decode_encode_append i rest

end Sys2Proof
end

