-- ==== Sys2Proof/Proofs/EncodingRows.lean ====
section
/-!
PROOFS. The opcode rows of `30_encoding.md` R65 as masks and patterns, the words written out from
the spec (R68, R201) and the spec's assembler examples: the obligations O2, O3 and O4.
-/

namespace Sys2Proof

/-! ### The row of a command (R65) -/

/-- R60: the header word of a command. -/
def Instr.headerWord (i : Instr) : Word := (encode i).headD 0#32

/-- R60, R65: the bits of the header that are fixed in the command's row; all but TOGGLE's flag. -/
def Instr.headerMask : Instr → Word
  | .toggle _ => 0xFFFFFFFE#32
  | _ => 0xFFFFFFFF#32

/-- R65: the command's row of the opcode map. -/
def Instr.row (i : Instr) : OpcodeRow := ⟨i.headerWord &&& i.headerMask, i.headerMask⟩

/-- The words of a command are its header word and operand words. -/
theorem encode_eq_headerWord_cons (i : Instr) : ∃ ops, encode i = i.headerWord :: ops := by
  obtain ⟨h, ops, henc, -, -⟩ := encodeShape i
  exact ⟨ops, by rw [Instr.headerWord, henc, List.headD_cons]⟩

/-- A header word begins a command exactly where it is the header word of one. -/
theorem begins_command_iff (h : Word) :
    (∃ ops i, decode (h :: ops) = .command i []) ↔ ∃ i : Instr, i.headerWord = h := by
  constructor
  · rintro ⟨ops, i, hdec⟩
    have henc := (decodeEncodeAgree _ _ _).1 hdec
    rw [List.append_nil] at henc
    exact ⟨i, by rw [Instr.headerWord, ← henc, List.headD_cons]⟩
  · rintro ⟨i, rfl⟩
    obtain ⟨ops, henc⟩ := encode_eq_headerWord_cons i
    exact ⟨ops, i, (decodeEncodeAgree _ _ _).2 (by rw [henc, List.append_nil])⟩

/-- The rows of the map are those of the commands. -/
theorem row_mem_opcodeRows (i : Instr) : i.row ∈ opcodeRows := by
  cases i with
  | toggle on => cases on <;> decide
  | _ => simp [Instr.row, Instr.headerWord, Instr.headerMask, encode, header, opcodeRows]

/-- One command for each row of the map, in its order, with operands 0. -/
def rowCommands : List Instr :=
  [.nop, .reset, .config 0 0 0 0 0 0 0 0 0 0 0 0 0, .setFreq 0, .setInt 0, .toggle false,
   .filtUpdate 0 0 0, .filtSweep 0 0, .process, .getStatus, .getFreq1, .getFreq2, .getInt, .getFc,
   .getQ, .getGain, .getStage, .getFactor, .getFs, .getN, .getMode]

theorem opcodeRows_eq : opcodeRows = rowCommands.map Instr.row := by decide

/-- A command's row accepts its header word. -/
theorem row_accepts_headerWord (i : Instr) : i.row.accepts i.headerWord = true := by
  simp [OpcodeRow.accepts, Instr.row]

/-- The row of a command other than TOGGLE accepts the command's header word alone. -/
theorem headerWord_of_accepts {i : Instr} (hmask : i.headerMask = 0xFFFFFFFF#32) {h : Word}
    (ha : i.row.accepts h = true) : i.headerWord = h := by
  have hall : ∀ w : Word, w &&& 0xFFFFFFFF#32 = w := fun _ => BitVec.and_allOnes
  rw [OpcodeRow.accepts, beq_iff_eq, Instr.row, hmask, hall, hall] at ha
  exact ha.symm

/-- TOGGLE's row accepts the header words of TOGGLE with either flag, the flag in bit 0. -/
theorem toggle_headerWord_of_accepts {on : Bool} {h : Word}
    (ha : (Instr.toggle on).row.accepts h = true) :
    (Instr.toggle (h.getLsbD 0)).headerWord = h := by
  have hfixed : h &&& 0xFFFFFFFE#32 = 0x12000000#32 := by
    rw [OpcodeRow.accepts, beq_iff_eq] at ha
    cases on <;> exact ha
  have hsplit : h = 0x12000000#32 ||| BitVec.setWidth 32 (BitVec.ofBool (h.getLsbD 0)) := by
    rw [← hfixed, ← BitVec.and_one_eq_setWidth_ofBool_getLsbD, ← BitVec.and_or_distrib_left]
    exact BitVec.and_allOnes.symm
  rw [hsplit]
  cases h.getLsbD 0 <;> decide

/-- A row accepts nothing but header words of commands. -/
theorem exists_headerWord_of_accepts {i : Instr} {h : Word} (ha : i.row.accepts h = true) :
    ∃ j : Instr, j.headerWord = h := by
  cases i with
  | toggle on => exact ⟨_, toggle_headerWord_of_accepts ha⟩
  | _ => exact ⟨_, headerWord_of_accepts rfl ha⟩

/-! ### The rows apart -/

/-- Two rows whose patterns differ where both masks are set accept no word in common. -/
theorem not_accepts_both {a b : OpcodeRow} (hdiff : a.pattern &&& b.mask ≠ b.pattern &&& a.mask)
    (h : Word) : ¬(a.accepts h = true ∧ b.accepts h = true) := by
  rintro ⟨ha, hb⟩
  rw [OpcodeRow.accepts, beq_iff_eq] at ha hb
  apply hdiff
  calc a.pattern &&& b.mask = h &&& a.mask &&& b.mask := by rw [ha]
    _ = h &&& b.mask &&& a.mask := by
        rw [BitVec.and_assoc, BitVec.and_comm a.mask, BitVec.and_assoc]
    _ = b.pattern &&& a.mask := by rw [hb]

/-- The patterns of the map differ pairwise where both masks are set. -/
theorem opcodeRows_pairwise :
    opcodeRows.Pairwise fun a b => a.pattern &&& b.mask ≠ b.pattern &&& a.mask := by
  decide

/-- Settles O2: a row accepts the header words of its commands, and these begin a command. -/
theorem opcodeRowsExact : Obligations.OpcodeRowsExact := by
  refine ⟨fun h => (begins_command_iff h).trans ⟨?_, ?_⟩,
    opcodeRows_pairwise.imp fun hdiff => not_accepts_both hdiff⟩
  · rintro ⟨i, rfl⟩
    exact ⟨i.row, row_mem_opcodeRows i, row_accepts_headerWord i⟩
  · rintro ⟨r, hr, ha⟩
    rw [opcodeRows_eq, List.mem_map] at hr
    obtain ⟨i, -, rfl⟩ := hr
    exact exists_headerWord_of_accepts ha

/-! ### Words written out from the spec (R65, R68, R201) -/

/-- Settles O3: the words are the encodings of the commands, which the decoder reads back. -/
theorem knownWords : Obligations.KnownWords :=
  ⟨decode_encode_append .nop [], decode_encode_append .reset [],
    decode_encode_append (.config 48000#32 500#32 0#32 0#32 8388608#32 28835840#32 65536000#32
      46341#32 65536#32 25#32 15#32 5872026#32 10#32) [],
    decode_encode_append (.setFreq 28835840#32) [],
    decode_encode_append (.setInt 4194304#32) [],
    decode_encode_append (.toggle true) [], decode_encode_append (.toggle false) [],
    decode_encode_append (.filtUpdate 131072000#32 46341#32 65536#32) [],
    decode_encode_append (.filtSweep 131072000#32 4800#32) [],
    decode_encode_append .process [], decode_encode_append .getFc [],
    decode_encode_append .getMode []⟩

end Sys2Proof

namespace Sys2Proof.Machine

/-! ### Assembled lines (R68, R69) -/

/-- The words of a line are the encodings of its commands. -/
theorem assemble_of_line {line : String} {is : List Instr} (h : assembleLine line = some is) :
    assemble line = some (is.flatMap encode) := by
  rw [assemble, h, Option.map_some]

/-- Settles O4: each line is read as its commands, whose encodings are the words. -/
theorem assemblerExamples : Obligations.AssemblerExamples := by
  have hfreq : assembleLine "SET_FREQ 440hz" = some [.setFreq 28835840#32] := by decide +kernel
  have hint : assembleLine "SET_INT 0.5q23" = some [.setInt 4194304#32] := by decide +kernel
  have hon : assembleLine "TOGGLE on" = some [noteOn] := by decide +kernel
  have hsweep : assembleLine "FILT_SWEEP 2000hz, 4800"
      = some [.filtSweep 131072000#32 4800#32] := by decide +kernel
  have hget : assembleLine "GET.FC" = some [.getFc] := by decide +kernel
  have hrender : assembleLine "RENDER 3" = some (render 3) := by decide +kernel
  exact ⟨assemble_of_line hfreq, assemble_of_line hint, assemble_of_line hon,
    assemble_of_line hsweep, assemble_of_line hget, assemble_of_line hrender⟩

end Sys2Proof.Machine
end

