-- ==== Sys2Proof/Proofs/EncodingResponses.lean ====
section
/-!
PROOFS. The shape of a response (`30_encoding.md` R64, `60_exceptions.md` R240, R245): the statuses
with which an operation can fail, one status word and the data words of the command's row, and the
obligation O8.
-/

namespace Sys2Proof.Machine

/-! ### The statuses of a command's own rule (R240 to R242) -/

/-- R241, R242: the statuses with which an operation on the Voice can fail. -/
def Status.IsRuleError (st : Status) : Prop := st = .einval ∨ st = .eagain

/-- R203: `set_frequency` of an oscillator fails by its range check or while it is busy. -/
theorem Osc.setFrequency_error {fs f : Word} {o : Osc} {st : Status}
    (h : o.setFrequency fs f = .error st) : st.IsRuleError := by
  unfold Osc.setFrequency at h
  split at h
  · cases h
    exact .inl rfl
  · split at h
    · cases h
      exact .inr rfl
    · cases h

/-- R204: `set_intensity` of an oscillator fails by its range check. -/
theorem Osc.setIntensity_error {fs i : Word} {o : Osc} {st : Status}
    (h : o.setIntensity fs i = .error st) : st.IsRuleError := by
  unfold Osc.setIntensity at h
  split at h
  · cases h
    exact .inl rfl
  · cases h

/-- An operation on `O2` fails as the operation on an oscillator does. -/
theorem onSecond_error {op : Osc → Except Status Osc} {o : Option Osc} {st : Status}
    (hop : ∀ a, op a = .error st → st.IsRuleError) (h : onSecond op o = .error st) :
    st.IsRuleError := by
  cases o with
  | none => cases h
  | some a =>
    simp only [onSecond] at h
    split at h
    · rename_i hfail
      cases h
      exact hop a hfail
    · cases h

/-- R203: SET_FREQ fails by a range check, or while an oscillator is busy. -/
theorem Voice.setFrequency_error {f : Word} {v : Voice} {st : Status}
    (h : v.setFrequency f = .error st) : st.IsRuleError := by
  unfold Voice.setFrequency at h
  split at h
  · cases h
    exact .inl rfl
  · split at h
    · cases h
      exact .inl rfl
    · split at h
      · cases h
        exact .inr rfl
      · split at h
        · rename_i hfirst
          cases h
          exact Osc.setFrequency_error hfirst
        · split at h
          · rename_i hsecond
            cases h
            exact onSecond_error (fun _ => Osc.setFrequency_error) hsecond
          · cases h

/-- R204: SET_INT fails by a range check. -/
theorem Voice.setIntensity_error {i : Word} {v : Voice} {st : Status}
    (h : v.setIntensity i = .error st) : st.IsRuleError := by
  unfold Voice.setIntensity at h
  split at h
  · cases h
    exact .inl rfl
  · split at h
    · rename_i hfirst
      cases h
      exact Osc.setIntensity_error hfirst
    · split at h
      · rename_i hsecond
        cases h
        exact onSecond_error (fun _ => Osc.setIntensity_error) hsecond
      · cases h

/-- R144: a trigger fails while the envelope is busy. -/
theorem Envelope.trigger_error {on : Bool} {i : BitVec 24} {e : Envelope} {st : Status}
    (h : e.trigger on i = .error st) : st.IsRuleError := by
  unfold Envelope.trigger at h
  split at h
  · unfold Envelope.noteOn at h
    split at h
    all_goals cases h
    all_goals exact .inr rfl
  · cases h

/-- R205: TOGGLE fails as the trigger does. -/
theorem Voice.toggle_error {on : Bool} {v : Voice} {st : Status}
    (h : v.toggle on = .error st) : st.IsRuleError := by
  unfold Voice.toggle at h
  split at h
  · rename_i htrigger
    cases h
    exact Envelope.trigger_error htrigger
  · cases h

/-- R163: `update` fails by its design, or while a sweep is on. -/
theorem Filter.update_error {P : Params} {fs fc q gain : Word} {F : Filter} {st : Status}
    (h : F.update P fs fc q gain = .error st) : st.IsRuleError := by
  unfold Filter.update at h
  split at h
  · cases h
    exact .inl rfl
  · split at h
    · cases h
      exact .inr rfl
    · cases h

/-- R206: FILT_UPDATE fails as the filter's update does. -/
theorem Voice.filtUpdate_error {P : Params} {fc q gain : Word} {v : Voice} {st : Status}
    (h : v.filtUpdate P fc q gain = .error st) : st.IsRuleError := by
  unfold Voice.filtUpdate at h
  split at h
  · rename_i hupdate
    cases h
    exact Filter.update_error hupdate
  · cases h

/-- R164: `start_fc_sweep` fails by its range checks, or while the filter is busy. -/
theorem Filter.startSweep_error {P : Params} {fs target total : Word} {F : Filter} {st : Status}
    (h : F.startSweep P fs target total = .error st) : st.IsRuleError := by
  unfold Filter.startSweep at h
  split at h
  · cases h
    exact .inl rfl
  · split at h
    · cases h
      exact .inr rfl
    · cases h

/-- R208: FILT_SWEEP fails as the filter's sweep does. -/
theorem Voice.filtSweep_error {P : Params} {target total : Word} {v : Voice} {st : Status}
    (h : v.filtSweep P target total = .error st) : st.IsRuleError := by
  unfold Voice.filtSweep at h
  split at h
  · rename_i hsweep
    cases h
    exact Filter.startSweep_error hsweep
  · cases h

/-! ### One status word and its data words (R64) -/

/-- R64, R245: the outcome is a next state with the command stream of `s` and one response behind
the responses of `s`: `OK` and `n` data words, or the code of `EINVAL`, `EAGAIN` or `ENOTREADY`
alone. -/
def Answers (s : State) (n : Nat) (out : Host.Outcome State Fault Refusal) : Prop :=
  ∃ (t : State) (code : Nat) (data : List Word),
    out = .next t ∧ t.cmd = s.cmd ∧ t.resp = s.resp ++ BitVec.ofNat 32 code :: data
      ∧ (code = 0 ∧ data.length = n ∨ (code = 1 ∨ code = 2 ∨ code = 4) ∧ data = [])

/-- A completed command answers `OK` and its data words, whatever registers it has written. -/
theorem answers_complete {s t : State} (hcmd : t.cmd = s.cmd) (hresp : t.resp = s.resp)
    (data : List Word) : Answers s data.length (complete data t) :=
  ⟨_, 0, data, complete_eq data t, hcmd, congrArg (· ++ 0#32 :: data) hresp, .inl ⟨rfl, rfl⟩⟩

/-- R243: a failure by the command's own rule answers its status word alone. -/
theorem answers_fail {st : Status} (h : st.IsRuleError) (s : State) (n : Nat) :
    Answers s n (fail st s) := by
  obtain rfl | rfl := h
  · exact ⟨_, 1, [], fail_eq .einval s, rfl, rfl, .inr ⟨.inl rfl, rfl⟩⟩
  · exact ⟨_, 2, [], fail_eq .eagain s, rfl, rfl, .inr ⟨.inr (.inl rfl), rfl⟩⟩

/-- R252: a command that needs a Voice answers `ENOTREADY` alone where there is none. -/
theorem answers_withVoice {s : State} {n : Nat} {k : Voice → Host.Outcome State Fault Refusal}
    (hk : ∀ v, s.voice = some v → Answers s n (k v)) : Answers s n (withVoice s k) := by
  cases hv : s.voice with
  | none =>
    rw [withVoice_none hv]
    exact ⟨_, 4, [], fail_eq .enotready s, rfl, rfl, .inr ⟨.inr (.inr rfl), rfl⟩⟩
  | some v =>
    rw [withVoice_some hv]
    exact hk v hv

/-- A control command answers one status word. -/
theorem answers_control {op : Voice → Except Status (Voice × Sticky)}
    (hop : ∀ v st, op v = .error st → st.IsRuleError) (s : State) :
    Answers s 0 (control s op) := by
  refine answers_withVoice fun v _ => ?_
  cases hr : op v with
  | error st => exact answers_fail (hop v st hr) s 0
  | ok r => exact answers_complete (t := (s.setVoice r.1).raise r.2) rfl rfl []

/-- A control command without events answers one status word. -/
theorem answers_control_quiet {op : Voice → Except Status Voice}
    (hop : ∀ v st, op v = .error st → st.IsRuleError) (s : State) :
    Answers s 0 (control s fun v => quiet (op v)) :=
  answers_control (fun v st h => hop v st (quiet_error h)) s

/-- R209: a GET of the Voice answers one data word on `OK`. -/
theorem answers_view (get : Voice → Word) (s : State) : Answers s 1 (view s get) :=
  answers_withVoice fun v _ => answers_complete rfl rfl [get v]

/-- R201: CONFIG answers one status word. -/
theorem answers_configWith (P : Params)
    (fs n kind coupling int f0 fc q gain att dec sus rel : Word) (s : State) :
    Answers s 0 (configWith P fs n kind coupling int f0 fc q gain att dec sus rel s) := by
  cases hc : configure P fs n kind coupling int f0 fc q gain att dec sus rel with
  | error st =>
    rw [configWith, hc]
    exact answers_fail (.inl (configure_error hc)) s 0
  | ok v =>
    rw [configWith, hc]
    exact answers_complete (t := s.rebuild v) rfl rfl []

/-- R207: PROCESS answers as many data words on `OK` as a frame has samples. -/
theorem answers_processWith (P : Params) (s : State) :
    Answers s s.frameSize (processWith P s) := by
  refine answers_withVoice fun v hv => ?_
  have hframe : s.frameSize = (v.process P v.cfg.n.toNat).out.length := by
    rw [Voice.process_length, State.frameSize, hv]
  rw [hframe]
  exact answers_complete
    (t := (s.setVoice (v.process P v.cfg.n.toNat).voice).raise (v.process P v.cfg.n.toNat).events)
    rfl rfl _

/-- R64: every command, at any parameters, answers as its row says. -/
theorem answers_execWith (P : Params) (i : Instr) (s : State) :
    Answers s (dataWords s.frameSize i) (execWith P i s) := by
  cases i with
  | nop => exact answers_complete rfl rfl []
  | reset => exact answers_complete (t := s.unconfigure) rfl rfl []
  | config => apply answers_configWith
  | setFreq f => exact answers_control_quiet (fun _ _ => Voice.setFrequency_error) s
  | setInt x => exact answers_control_quiet (fun _ _ => Voice.setIntensity_error) s
  | toggle on => exact answers_control_quiet (fun _ _ => Voice.toggle_error) s
  | filtUpdate fc q gain => exact answers_control_quiet (fun _ _ => Voice.filtUpdate_error) s
  | filtSweep target total => exact answers_control (fun _ _ => Voice.filtSweep_error) s
  | process => exact answers_processWith P s
  | getStatus => exact answers_complete rfl rfl [s.statusView]
  | getFreq1 | getFreq2 | getInt | getFc | getQ | getGain | getStage | getFactor | getFs | getN
  | getMode => exact answers_view _ s

/-- Settles O8, by the shape of the answer at the parameters `chip`. -/
theorem responseShape : Obligations.ResponseShape := by
  intro i s
  rw [exec_eq_execWith_chip]
  exact answers_execWith chip i s

end Sys2Proof.Machine
end

