-- ==== Sys2Proof/Proofs/OscillatorSawSquare.lean ====
section
/-!
PROOFS. One sample of the saw (`40_oscillator.md` R108) and of the square (R113), what many of them
make (R109, R114), and the obligations O35, O36, O37 and O38.
-/

namespace Sys2Proof.Machine

/-! ### Saw (R108, R109) -/

/-- R108, R129: the sample of a saw oscillator. -/
theorem Osc.sample_saw (P : Params) (fs : Word) {o : Osc} {r : SawRegs} (h : o.wave = .saw r) :
    o.sample P fs = ((sawSample r).1, { o with wave := .saw (sawSample r).2 }, false) := by
  simp only [Osc.sample, h]

@[simp] theorem sawSample_out (r : SawRegs) : (sawSample r).1 = r.amp.toInt := rfl

@[simp] theorem sawSample_max (r : SawRegs) : (sawSample r).2.max = r.max := rfl

@[simp] theorem sawSample_step (r : SawRegs) : (sawSample r).2.step = r.step := rfl

/-- Settles O35: the two branches of the wrap, with the amplitude read back from its register. (The
name `sawSample` is the model's.) -/
theorem oscSawSample : Obligations.SawSample := by
  intro P fs o r hr hamp hstep
  obtain ⟨hlo, hhi⟩ := abs_le.1 hamp
  have hnext := sawSample_amp hlo hhi
  refine ⟨(sawSample r).2, Osc.sample_saw P fs hr, rfl, rfl, ?_, fun hfits => ?_, fun hunder => ?_⟩
  · rw [hnext, abs_le]
    split_ifs <;> omega
  · rw [hnext, if_neg (by omega)]
  · rw [hnext, if_pos hunder]
    omega

/-- R109 (b): one sample lowers the amplitude by the step modulo twice the peak. -/
theorem sawSample_amp_dvd {r : SawRegs} (hlo : -(r.max.toNat : Int) ≤ r.amp.toInt)
    (hhi : r.amp.toInt ≤ r.max.toNat) :
    (2 * r.max.toNat : Int) ∣ (sawSample r).2.amp.toInt - (r.amp.toInt - r.step.toNat) := by
  rw [sawSample_amp hlo hhi]
  split_ifs <;> simp

/-- R32, R109 (a): a sound saw stays sound over any number of samples. -/
theorem sawSample_iterate_inv {fs f : Word} {i : BitVec 24} {r : SawRegs}
    (hf : FreqOk f.toNat fs.toNat) (h : SawInv fs f i r) (k : Nat) :
    SawInv fs f i ((fun x => (sawSample x).2)^[k] r) :=
  Function.Iterate.rec (SawInv fs f i) h (fun _ hx => sawSample_inv hx hf) k

theorem sawSample_iterate_frame (r : SawRegs) (k : Nat) :
    ((fun x => (sawSample x).2)^[k] r).max = r.max
      ∧ ((fun x => (sawSample x).2)^[k] r).step = r.step :=
  Function.Iterate.rec (fun x : SawRegs => x.max = r.max ∧ x.step = r.step) ⟨rfl, rfl⟩
    (f := fun x => (sawSample x).2) (fun _ hx => hx) k

/-- R109 (b): every sample lowers the amplitude by the step modulo twice the peak. -/
theorem sawSample_iterate_amp_dvd {fs f : Word} {i : BitVec 24} {r : SawRegs}
    (hf : FreqOk f.toNat fs.toNat) (h : SawInv fs f i r) (k : Nat) :
    (2 * r.max.toNat : Int)
      ∣ ((fun x => (sawSample x).2)^[k] r).amp.toInt - (r.amp.toInt - k * r.step.toNat) := by
  induction k with
  | zero => simp
  | succ k ih =>
    have hinv := sawSample_iterate_inv hf h k
    obtain ⟨hmax, hstep⟩ := sawSample_iterate_frame r k
    rw [Function.iterate_succ_apply']
    generalize (fun x => (sawSample x).2)^[k] r = x at *
    have hone := sawSample_amp_dvd hinv.amp_ge hinv.amp_le
    rw [hmax, hstep] at hone
    have hsum : (sawSample x).2.amp.toInt - (r.amp.toInt - (k + 1 : Nat) * r.step.toNat)
        = (sawSample x).2.amp.toInt - (x.amp.toInt - r.step.toNat)
          + (x.amp.toInt - (r.amp.toInt - k * r.step.toNat)) := by
      push_cast
      ring
    rw [hsum]
    exact dvd_add hone ih

/-- Settles O36: the saw's invariant gives the peak, the sum of the single falls the rest. -/
theorem sawFallsModuloPeak : Obligations.SawFallsModuloPeak := by
  refine ⟨fun fs f i r k hf h => ⟨?_, sawSample_iterate_amp_dvd hf h k⟩,
    fun P fs o r hr => Osc.sample_saw P fs hr⟩
  have hinv := sawSample_iterate_inv hf h k
  rw [← (sawSample_iterate_frame r k).1]
  exact abs_le.2 ⟨hinv.amp_ge, hinv.amp_le⟩

/-! ### Square (R113, R114) -/

/-- R113, R129: the sample of a square oscillator. -/
theorem Osc.sample_square (P : Params) (fs : Word) {o : Osc} {r : SquareRegs}
    (h : o.wave = .square r) :
    o.sample P fs = ((squareSample r).1, { o with wave := .square (squareSample r).2 }, false) := by
  simp only [Osc.sample, h]

theorem squareSample_out (r : SquareRegs) : (squareSample r).1 = r.sign.toInt * r.max.toNat := rfl

@[simp] theorem Sign.toInt_flip (s : Sign) : s.flip.toInt = -s.toInt := by cases s <;> rfl

@[simp] theorem Sign.flip_flip (s : Sign) : s.flip.flip = s := by cases s <;> rfl

theorem Sign.flip_ne (s : Sign) : s.flip ≠ s := by cases s <;> decide

theorem Sign.toInt_mul (s : Sign) (m : Int) : s.toInt * m = if s = .plus then m else -m := by
  cases s <;> simp [Sign.toInt]

/-- R113: the registers after the last sample of a half-period. -/
theorem squareSample_toggle {r : SquareRegs} (h : r.half.toNat ≤ r.cnt.toNat + 1) :
    (squareSample r).2 = { r with sign := r.sign.flip, cnt := 0#32 } := if_pos h

/-- R113: the registers after a sample inside a half-period. -/
theorem squareSample_count {r : SquareRegs} (h : r.cnt.toNat + 1 < r.half.toNat) :
    (squareSample r).2 = { r with cnt := ureg 32 (r.cnt.toNat + 1) } := if_neg (by omega)

/-- Settles O37: the half-period is full, or the count goes on. (The name `squareSample` is the
model's.) -/
theorem oscSquareSample : Obligations.SquareSample := by
  intro P fs o r hr
  have hout : (squareSample r).1 = if r.sign = .plus then (r.max.toNat : Int) else -r.max.toNat :=
    r.sign.toInt_mul r.max.toNat
  rw [Osc.sample_square P fs hr, hout]
  have hhalf := r.half.isLt
  rcases le_or_gt r.half.toNat (r.cnt.toNat + 1) with hfull | hroom
  · rw [squareSample_toggle hfull]
    exact ⟨_, rfl, rfl, rfl, fun _ => ⟨r.sign.flip_ne, rfl⟩, fun h => absurd h (by omega)⟩
  · rw [squareSample_count hroom]
    exact ⟨_, rfl, rfl, rfl, fun h => absurd h (by omega), fun _ => ⟨rfl, toNat_ureg (by omega)⟩⟩

/-- R113: `k` samples into a half-period the count is `k`. -/
theorem squareSample_iterate {r : SquareRegs} (hcnt : r.cnt = 0#32) {k : Nat}
    (hk : k < r.half.toNat) :
    (fun x => (squareSample x).2)^[k] r = { r with cnt := ureg 32 k } := by
  induction k with
  | zero =>
    rw [Function.iterate_zero_apply, show ureg 32 0 = r.cnt from hcnt.symm]
  | succ k ih =>
    have hreg : (ureg 32 k).toNat = k := toNat_ureg (by omega)
    rw [Function.iterate_succ_apply', ih (by omega), squareSample_count (by simpa [hreg] using hk)]
    simp only [hreg]

/-- R114: after a whole half-period the square is at the start of one on the other level. -/
theorem squareSample_iterate_half {r : SquareRegs} (hcnt : r.cnt = 0#32)
    (hhalf : 1 ≤ r.half.toNat) :
    (fun x => (squareSample x).2)^[r.half.toNat] r = { r with sign := r.sign.flip } := by
  have hreg : (ureg 32 (r.half.toNat - 1)).toNat = r.half.toNat - 1 := toNat_ureg (by omega)
  conv_lhs => rw [← Nat.sub_add_cancel hhalf]
  rw [Function.iterate_succ_apply', squareSample_iterate hcnt (by omega),
    squareSample_toggle (by simp only [hreg]; omega), hcnt]

/-- Settles O38: two half-periods, the second that of the square with the sign flipped. -/
theorem squarePeriod : Obligations.SquarePeriod := by
  refine ⟨fun r k hcnt hhalf => ?_, fun P fs o r hr => Osc.sample_square P fs hr⟩
  have hfirst := squareSample_iterate_half hcnt hhalf
  have hflip : ({ r with sign := r.sign.flip } : SquareRegs).cnt = 0#32 := hcnt
  refine ⟨fun hk => ?_, ?_⟩
  · split_ifs with hlt
    · rw [squareSample_iterate hcnt hlt, squareSample_out]
    · obtain ⟨j, rfl⟩ : ∃ j, k = j + r.half.toNat := ⟨k - r.half.toNat, by omega⟩
      rw [Function.iterate_add_apply, hfirst, squareSample_iterate hflip (by simp only; omega),
        squareSample_out, Sign.toInt_flip, neg_mul]
  · rw [two_mul, Function.iterate_add_apply, hfirst]
    have hsecond := squareSample_iterate_half hflip hhalf
    simpa using hsecond

end Sys2Proof.Machine
end

