-- ==== Sys2Proof/Proofs/OscillatorSine.lean ====
section
/-!
PROOFS. One sample of the sine (`40_oscillator.md` R126): what it emits and leaves outside `RUN`
(R122), inside `RUN` and on the last entry of a transition (R123, R125), the intensity ramp over
many samples (R119), the bounds of a sample (R109, R117), and the obligations O39 and O44.
-/

namespace Sys2Proof.Machine

/-! ### The intensity ramp (R119) -/

theorem rampStep_off {r : SineRegs} (h : r.rampOn = false) : rampStep r = r := if_neg (by simp [h])

/-- R119: a ramp step before the last one. -/
theorem rampStep_climb {r : SineRegs} (hon : r.rampOn = true) (hk : r.rampK.toNat < 999) :
    rampStep r =
      { r with
        rampK := ureg 10 (r.rampK.toNat + 1)
        iEff := sreg 24 (rampValue r.iStart r.iTgt (r.rampK.toNat + 1)) } := by
  rw [rampStep, if_pos hon, if_neg (by rw [Config.irLen_val]; omega)]

/-- R119: the last ramp step lands on the target. -/
theorem rampStep_land {r : SineRegs} (hon : r.rampOn = true) (hk : 999 ≤ r.rampK.toNat) :
    rampStep r = { r with iEff := r.iTgt, rampOn := false, rampK := 0#10 } := by
  rw [rampStep, if_pos hon, if_pos (by rw [Config.irLen_val]; omega)]

/-- R118, R119: the ramp step touches none of the ramp's two ends. -/
theorem rampStep_ends (r : SineRegs) :
    (rampStep r).iStart = r.iStart ∧ (rampStep r).iTgt = r.iTgt := by
  unfold rampStep
  split
  · split <;> exact ⟨rfl, rfl⟩
  · exact ⟨rfl, rfl⟩

/-- R119: the ramp value in the order of the statements. -/
theorem rampValue_eq (a b : BitVec 24) (k : Nat) :
    rampValue a b k = a.toNat + ((b.toNat : Int) - a.toNat) * k / 1000 := rfl

theorem rampValue_zero (a b : BitVec 24) : rampValue a b 0 = a.toNat := by simp [rampValue_eq]

theorem rampValue_last (a b : BitVec 24) : rampValue a b 1000 = b.toNat := by
  rw [rampValue_eq]
  omega

/-- R119: the ramp value between any two 24-bit ends fits its register. -/
theorem toNat_sreg_rampValue (a b : BitVec 24) {k : Nat} (hk : k < 1000) :
    ((sreg 24 (rampValue a b k)).toNat : Int) = rampValue a b k := by
  obtain ⟨hlo, hhi⟩ := rampValue_bounds a b hk
  exact toNat_sreg (by omega) (by omega)

/-- R119: the ramp registers `k` steps into a ramp from `a` to `b`, or behind its end. -/
structure RampAt (a b : BitVec 24) (k : Nat) (r : SineRegs) : Prop where
  start : r.iStart = a
  target : r.iTgt = b
  running : k < 1000 →
    r.rampOn = true ∧ r.rampK.toNat = k ∧ (r.iEff.toNat : Int) = rampValue a b k
  ended : 1000 ≤ k → r.rampOn = false ∧ r.rampK.toNat = 0 ∧ r.iEff = b

theorem RampAt.next {a b : BitVec 24} {k : Nat} {r : SineRegs} (h : RampAt a b k r) :
    RampAt a b (k + 1) (rampStep r) := by
  obtain ⟨hs, ht⟩ := rampStep_ends r
  refine ⟨hs.trans h.start, ht.trans h.target, fun hk => ?_, fun hk => ?_⟩
  · obtain ⟨hon, hcount, -⟩ := h.running (by omega)
    rw [rampStep_climb hon (by omega), h.start, h.target, hcount]
    exact ⟨hon, toNat_ureg (by omega), toNat_sreg_rampValue a b hk⟩
  · rcases Nat.lt_or_ge k 1000 with hlast | hpast
    · obtain ⟨hon, hcount, -⟩ := h.running hlast
      rw [rampStep_land hon (by omega), h.target]
      exact ⟨rfl, rfl, rfl⟩
    · rw [rampStep_off (h.ended hpast).1]
      exact h.ended hpast

/-- R119: up to and with the end of the ramp the intensity in effect is the ramp value. -/
theorem RampAt.iEff_eq {a b : BitVec 24} {k : Nat} {r : SineRegs} (h : RampAt a b k r)
    (hk : k ≤ 1000) : (r.iEff.toNat : Int) = rampValue a b k := by
  rcases hk.lt_or_eq with hlt | rfl
  · exact (h.running hlt).2.2
  · rw [(h.ended le_rfl).2.2, rampValue_last]

/-- R119: the intensity in effect stays between the ramp's ends. -/
theorem RampAt.iEff_bounds {a b : BitVec 24} {k : Nat} {r : SineRegs} (h : RampAt a b k r) :
    min a.toNat b.toNat ≤ r.iEff.toNat ∧ r.iEff.toNat ≤ max a.toNat b.toNat := by
  rcases Nat.lt_or_ge k 1000 with hk | hk
  · obtain ⟨hlo, hhi⟩ := rampValue_bounds a b hk
    rw [← h.iEff_eq hk.le] at hlo hhi
    omega
  · rw [(h.ended hk).2.2]
    exact ⟨min_le_right _ _, le_max_right _ _⟩

/-- R119: being `k` steps into a ramp is a fact about the ramp registers alone. -/
theorem RampAt.congr {a b : BitVec 24} {k : Nat} {r s : SineRegs} (h : RampAt a b k r)
    (hs : s = { r with n := s.n, fCur := s.fCur, pPrev := s.pPrev, tr := s.tr, trK := s.trK }) :
    RampAt a b k s := by
  rw [hs]
  exact ⟨h.start, h.target, h.running, h.ended⟩

/-! ### One sample (R122, R123, R126) -/

/-- R116, R123: the phase of the next sample. -/
def SineRegs.samplePhase (fs : Word) (r : SineRegs) : Word :=
  if r.tr = .run then r.pt[r.trK.toNat]'r.trK.isLt else phase r.fCur.toNat r.n.toNat fs.toNat

/-- R122: a sample in `NONE` or `ARMED`. -/
theorem sineSample_steady (P : Params) (fs f : Word) {r : SineRegs} (h : r.tr ≠ .run) :
    sineSample P fs f r =
      (sineValue P (rampStep r).iEff (r.samplePhase fs),
        { rampStep r with
          n := r.n + 1#32
          pPrev := r.samplePhase fs
          tr := if r.tr = .armed ∧ r.samplePhase fs < r.pPrev then .run else r.tr
          trK := if r.tr = .armed ∧ r.samplePhase fs < r.pPrev then 0#8 else r.trK },
        decide (r.n = 0xFFFFFFFF#32)) := by
  obtain ⟨hn, hf, hp, ht, hk, -⟩ := rampStep_phase r
  have hones : BitVec.allOnes 32 = 0xFFFFFFFF#32 := rfl
  have hstep : phaseStep fs (rampStep r) = steadyStep fs (rampStep r) := by
    rw [phaseStep]
    cases htr : (rampStep r).tr with
    | run => exact absurd (ht.symm.trans htr) h
    | none => rfl
    | armed => rfl
  simp only [sineSample, hstep, steadyStep, hn, hf, hp, ht, SineRegs.samplePhase, if_neg h,
    Bool.false_eq_true, if_false, beq_eq_decide, hones]
  split_ifs <;> simp only [← hk, ← ht]

/-- R123: a sample in `RUN` before the last table entry. -/
theorem sineSample_running (P : Params) (fs f : Word) {r : SineRegs} (h : r.tr = .run)
    (hk : r.trK.toNat < 255) :
    sineSample P fs f r =
      (sineValue P (rampStep r).iEff (r.samplePhase fs),
        { rampStep r with trK := r.trK + 1#8, pPrev := r.samplePhase fs }, false) := by
  obtain ⟨-, -, -, ht, hk', hpt⟩ := rampStep_phase r
  have hdone : (r.trK.toNat + 1 == 256) = false := by simp; omega
  simp [sineSample, phaseStep, ht, h, runStep, hk', hpt, SineRegs.samplePhase, hdone]

/-- R123, R125: the sample of the last table entry. -/
theorem sineSample_last (P : Params) (fs f : Word) {r : SineRegs} (h : r.tr = .run)
    (hk : r.trK.toNat = 255) :
    sineSample P fs f r =
      (sineValue P (rampStep r).iEff (r.samplePhase fs),
        resync P fs f (r.samplePhase fs) (sineValue P (rampStep r).iEff (r.samplePhase fs))
          { rampStep r with trK := r.trK + 1#8, pPrev := r.samplePhase fs }, false) := by
  obtain ⟨-, -, -, ht, hk', hpt⟩ := rampStep_phase r
  simp [sineSample, phaseStep, ht, h, runStep, hk', hpt, SineRegs.samplePhase, hk]

/-- R122, R123, R125: the three kinds of a sine sample. -/
theorem SineRegs.tr_cases (r : SineRegs) :
    r.tr ≠ .run ∨ (r.tr = .run ∧ r.trK.toNat < 255) ∨ (r.tr = .run ∧ r.trK.toNat = 255) := by
  have := r.trK.isLt
  by_cases h : r.tr = .run
  · simp only [h, ne_eq, not_true, true_and, false_or]
    omega
  · exact .inl h

/-- R126: the sample has the value of the intensity that its own ramp step leaves. -/
theorem sineSample_out (P : Params) (fs f : Word) (r : SineRegs) :
    (sineSample P fs f r).1 = sineValue P (rampStep r).iEff (r.samplePhase fs) := by
  rcases r.tr_cases with h | ⟨h, hk⟩ | ⟨h, hk⟩
  · rw [sineSample_steady P fs f h]
  · rw [sineSample_running P fs f h hk]
  · rw [sineSample_last P fs f h hk]

/-- R119, R126: but for the registers of the phase a sample leaves what its ramp step leaves. -/
theorem sineSample_regs (P : Params) (fs f : Word) (r : SineRegs) :
    (sineSample P fs f r).2.1 =
      { rampStep r with
        n := (sineSample P fs f r).2.1.n
        fCur := (sineSample P fs f r).2.1.fCur
        pPrev := (sineSample P fs f r).2.1.pPrev
        tr := (sineSample P fs f r).2.1.tr
        trK := (sineSample P fs f r).2.1.trK } := by
  rcases r.tr_cases with h | ⟨h, hk⟩ | ⟨h, hk⟩
  · rw [sineSample_steady P fs f h]
  · rw [sineSample_running P fs f h hk]
  · rw [sineSample_last P fs f h hk]
    rfl

theorem sineSample_iEff (P : Params) (fs f : Word) (r : SineRegs) :
    (sineSample P fs f r).2.1.iEff = (rampStep r).iEff := by
  rw [sineSample_regs]

/-- R119, R126: a sample moves the ramp registers by its ramp step alone. -/
theorem RampAt.next_sample {a b : BitVec 24} {k : Nat} {r : SineRegs} (h : RampAt a b k r)
    (P : Params) (fs f : Word) : RampAt a b (k + 1) (sineSample P fs f r).2.1 :=
  h.next.congr (sineSample_regs P fs f r)

/-- R118, R119: `k` samples after an accepted intensity the ramp is `k` steps on. -/
theorem RampAt.iterate (P : Params) (fs f : Word) (r : SineRegs) (i : BitVec 24) (k : Nat) :
    RampAt r.iEff i k ((fun y => (sineSample P fs f y).2.1)^[k] (sineSetInt i r)) := by
  induction k with
  | zero => exact ⟨rfl, rfl, fun _ => ⟨rfl, rfl, (rampValue_zero _ _).symm⟩, fun h => by omega⟩
  | succ k ih =>
    rw [Function.iterate_succ_apply']
    exact ih.next_sample P fs f

/-- R100, R126, R129: the sample of a sine oscillator. -/
theorem Osc.sample_sine (P : Params) (fs : Word) {o : Osc} {r : SineRegs} (h : o.wave = .sine r) :
    o.sample P fs =
      ((sineSample P fs o.f r).1, { o with wave := .sine (sineSample P fs o.f r).2.1 },
        (sineSample P fs o.f r).2.2) := by
  simp only [Osc.sample, h]

/-- R127: no sample in `RUN` reports a wrap of the sample index. -/
theorem sineSample_run_wrap (P : Params) (fs f : Word) {r : SineRegs} (h : r.tr = .run) :
    (sineSample P fs f r).2.2 = false := by
  rcases r.tr_cases with h' | ⟨-, hk⟩ | ⟨-, hk⟩
  · exact absurd h h'
  · rw [sineSample_running P fs f h hk]
  · rw [sineSample_last P fs f h hk]

/-! ### The formulas of the phase and of the value (R103, R116, R117) -/

theorem phase_eq (f n fs : Nat) : phase f n fs = BitVec.ofNat 32 (f * n * 2 ^ 16 / fs) := by
  rw [phase, ureg, Nat.mul_comm (2 ^ 16)]

theorem sineValue_eq (P : Params) (i : BitVec 24) (p : Word) :
    sineValue P i p = rshrSym ((i.toNat * 8388607 / 2 ^ 23 : Nat) * P.sinrom p) 23 := by
  rw [sineValue, ampOf_eq]

/-! ### Obligation O39 -/

/-- Settles O39: the ramp over many samples, then the steady sample register by register. -/
theorem sineRampAndSteadySample : Obligations.SineRampAndSteadySample := by
  refine ⟨?_, ?_, fun P fs f r => sineSample_run_wrap P fs f, fun P fs o r => Osc.sample_sine P fs,
    phase_eq, sineValue_eq⟩
  · rintro P fs f i r k x - - rfl
    have hramp := RampAt.iterate P fs f r i k
    change RampAt _ _ _ ((fun y => (sineSample P fs f y).2.1)^[k]
      { r with iStart := r.iEff, iTgt := i, rampK := 0#10, rampOn := true }) at hramp
    generalize (fun y => (sineSample P fs f y).2.1)^[k] _ = x at *
    refine ⟨fun hk => ?_, hramp.ended, hramp.iEff_bounds⟩
    obtain ⟨hon, hcount, hval⟩ := hramp.running hk
    exact ⟨hon, hcount, hval, _, hramp.next.iEff_eq hk, sineSample_out P fs f x⟩
  · rintro P fs f p r h rfl
    have hphase : r.samplePhase fs = phase r.fCur.toNat r.n.toNat fs.toNat := if_neg h
    obtain ⟨-, hf, -, -, -, hpt⟩ := rampStep_phase r
    obtain ⟨hs, ht⟩ := rampStep_ends r
    refine ⟨(sineSample P fs f r).2.1, ?_⟩
    rw [sineSample_steady P fs f h, hphase]
    refine ⟨rfl, by simp only [hf, hpt, hs, ht], fun hoff => ?_, fun hon hk => ?_,
      fun hon hk => ?_, fun harm hlt => ?_, fun hno => ?_⟩
    · rw [rampStep_off hoff]
      exact ⟨rfl, rfl, hoff⟩
    · rw [rampStep_climb hon hk]
      exact ⟨hon, toNat_ureg (by omega), toNat_sreg_rampValue _ _ (by omega)⟩
    · rw [rampStep_land hon hk]
      exact ⟨rfl, rfl, rfl⟩
    · simp only [if_pos (And.intro harm hlt), and_self]
    · have hcross : ¬(r.tr = .armed ∧ phase r.fCur.toNat r.n.toNat fs.toNat < r.pPrev) := by
        rintro ⟨harm, hlt⟩
        rcases hno with hnone | hnlt
        · simp [hnone] at harm
        · exact hnlt hlt
      simp only [if_neg hcross, and_self]

/-! ### Full scale (R117, R129, R212) -/

/-- R9: a product with a factor of magnitude at most 1.0, shifted back, is no larger. -/
theorem abs_rshrSym_mul_le {o g : Int} (hg : |g| ≤ 2 ^ 23) : |rshrSym (o * g) 23| ≤ |o| := by
  have hprod : |o * g| ≤ |o| * 2 ^ 23 := by
    rw [abs_mul]
    exact mul_le_mul_of_nonneg_left hg (abs_nonneg o)
  obtain ⟨hlo, hhi⟩ := abs_le.1 hprod
  exact abs_le.2 (rshrSym_le (by norm_num) (abs_nonneg o) hlo hhi)

/-- R117: a sine value lies within the peak of its intensity. -/
theorem abs_sineValue_le {P : Params} (hP : ∀ p, |P.sinrom p| ≤ 2 ^ 23) (i : BitVec 24)
    (p : Word) : |sineValue P i p| ≤ ampOf i.toNat := by
  have h := abs_rshrSym_mul_le (o := ampOf i.toNat) (hP p)
  rwa [Nat.abs_cast] at h

/-- R109: a sample of a sound saw lies within its peak. -/
theorem abs_sawSample_le {fs f : Word} {i : BitVec 24} {r : SawRegs} (h : SawInv fs f i r) :
    |(sawSample r).1| ≤ ampOf i.toNat := by
  rw [← h.max_eq, sawSample_out]
  exact abs_le.2 ⟨h.amp_ge, h.amp_le⟩

/-- R113: a sample of a sound square has the magnitude of its peak. -/
theorem abs_squareSample_le {fs f : Word} {i : BitVec 24} {r : SquareRegs}
    (h : SquareInv fs f i r) : |(squareSample r).1| ≤ ampOf i.toNat := by
  rw [← h.max_eq, squareSample_out, Sign.toInt_mul]
  split_ifs <;> simp

/-- R117, R119: a sample of a sound sine lies within full scale, whatever its ramp does. -/
theorem abs_sineSample_le {P : Params} (hP : ∀ p, |P.sinrom p| ≤ 2 ^ 23) {fs f : Word}
    {i : BitVec 24} {r : SineRegs} (hi : UnitOk i.toNat) (h : SineInv fs f i r) :
    |(sineSample P fs f r).1| ≤ Config.fsc := by
  have hpeak := ampOf_le (rampStep_inv h hi).iEff_ok
  rw [sineSample_out]
  exact (abs_sineValue_le hP _ _).trans (by exact_mod_cast hpeak)

/-- Settles O44: by the kind of the oscillator, and the multiply by its factor of at most 1.0. -/
theorem samplesWithinFullScale : Obligations.SamplesWithinFullScale := by
  refine ⟨fun P kind fs i o hP hi ho => ?_, fun o g hg => abs_rshrSym_mul_le ?_⟩
  · have hfull : (ampOf i.toNat : Int) ≤ 8388607 := by exact_mod_cast ampOf_le hi
    have hwave := ho.wave_ok
    rw [← ampOf_eq]
    cases hr : o.wave with
    | saw r =>
      obtain ⟨-, hsaw⟩ := hr ▸ hwave
      rw [Osc.sample_saw P fs hr]
      exact ⟨(abs_sawSample_le hsaw).trans hfull, fun _ => abs_sawSample_le hsaw⟩
    | sine r =>
      obtain ⟨hkind, hsine⟩ := hr ▸ hwave
      rw [Osc.sample_sine P fs hr]
      exact ⟨abs_sineSample_le hP hi hsine, fun h => absurd hkind h⟩
    | square r =>
      obtain ⟨-, hsquare⟩ := hr ▸ hwave
      rw [Osc.sample_square P fs hr]
      exact ⟨(abs_squareSample_le hsquare).trans hfull, fun _ => abs_squareSample_le hsquare⟩
  · rw [Nat.abs_cast]
    exact_mod_cast hg

end Sys2Proof.Machine
end

