-- ==== Sys2Proof/Proofs/OscillatorPhase.lean ====
section
/-!
PROOFS. The phase along the sample indices (`40_oscillator.md` R116): the turns it passes, where it
falls (R122), how long an armed transition waits for a fall (R121, R264), and the obligations O40
and O41.
-/

namespace Sys2Proof.Machine

/-! ### The phase before it is taken modulo one turn (R116) -/

/-- R116: the phase of the index `n` in 2^-32 turns, with the whole turns kept. -/
def unwrappedPhase (f n fs : Nat) : Nat := 2 ^ 16 * (f * n) / fs

theorem toNat_phase (f n fs : Nat) : (phase f n fs).toNat = unwrappedPhase f n fs % 2 ^ 32 :=
  BitVec.toNat_ofNat _ _

theorem turns_eq (f n fs : Nat) : f * n / (fs * 2 ^ 16) = unwrappedPhase f n fs / 2 ^ 32 := by
  rw [unwrappedPhase, Nat.div_div_eq_div_mul, show fs * 2 ^ 32 = 2 ^ 16 * (fs * 2 ^ 16) by ring,
    Nat.mul_div_mul_left _ _ (by positivity)]

@[simp] theorem unwrappedPhase_zero (f fs : Nat) : unwrappedPhase f 0 fs = 0 := by
  simp [unwrappedPhase]

theorem unwrappedPhase_mono (f fs : Nat) {m n : Nat} (h : m ≤ n) :
    unwrappedPhase f m fs ≤ unwrappedPhase f n fs :=
  Nat.div_le_div_right (Nat.mul_le_mul_left _ (Nat.mul_le_mul_left f h))

/-- R101, R116: a frequency below `fs / 2` moves the phase by at most half a turn a sample. -/
theorem unwrappedPhase_succ_le {f fs : Nat} (h : FreqOk f fs) (n : Nat) :
    unwrappedPhase f (n + 1) fs ≤ unwrappedPhase f n fs + 2 ^ 31 := by
  obtain ⟨hf, hlt⟩ := h
  have hfs : 0 < fs := by omega
  calc unwrappedPhase f (n + 1) fs
      ≤ (2 ^ 16 * (f * n) + 2 ^ 31 * fs) / fs := Nat.div_le_div_right (by nlinarith)
    _ = unwrappedPhase f n fs + 2 ^ 31 := Nat.add_mul_div_right _ _ hfs

/-- R116, R121: one period window moves the phase by at least a whole turn. -/
theorem unwrappedPhase_window {f fs : Nat} (h : FreqOk f fs) (n : Nat) :
    unwrappedPhase f n fs + 2 ^ 32 ≤ unwrappedPhase f (n + cdiv (fs * 2 ^ 16) f) fs := by
  obtain ⟨hf, hlt⟩ := h
  have hfs : 0 < fs := by omega
  have hreach := (cdiv_ceiling (fs * 2 ^ 16) hf).1
  calc unwrappedPhase f n fs + 2 ^ 32
      = (2 ^ 16 * (f * n) + 2 ^ 32 * fs) / fs := (Nat.add_mul_div_right _ _ hfs).symm
    _ ≤ unwrappedPhase f (n + cdiv (fs * 2 ^ 16) f) fs := Nat.div_le_div_right (by nlinarith)

/-! ### Where the phase falls (R122) -/

/-- Two numbers at most half a turn apart: the later one is smaller modulo a turn exactly where it
is a turn further, and not smaller exactly where it is on the same turn. -/
theorem mod_lt_mod_iff_div_eq_succ {a b : Nat} (hle : a ≤ b) (hstep : b ≤ a + 2 ^ 31) :
    (b % 2 ^ 32 < a % 2 ^ 32 ↔ b / 2 ^ 32 = a / 2 ^ 32 + 1)
      ∧ (a % 2 ^ 32 ≤ b % 2 ^ 32 ↔ b / 2 ^ 32 = a / 2 ^ 32) := by
  omega

/-- Settles O40: the phase moves by at most half a turn a sample. -/
theorem crossingIsWholeTurn : Obligations.CrossingIsWholeTurn := by
  intro f fs n h
  simp only [BitVec.lt_def, BitVec.le_def, toNat_phase, turns_eq]
  exact mod_lt_mod_iff_div_eq_succ (unwrappedPhase_mono _ _ n.le_succ) (unwrappedPhase_succ_le h n)

/-- R121, R122: in one period window from any index on the phase falls. -/
theorem exists_phase_fall {f fs : Word} (h : FreqOk f.toNat fs.toNat) (n : Nat) :
    ∃ j < cdiv (fs.toNat * 2 ^ 16) f.toNat,
      phase f.toNat (n + j + 1) fs.toNat < phase f.toNat (n + j) fs.toNat := by
  by_contra hno
  push Not at hno
  have hsame : ∀ j ≤ cdiv (fs.toNat * 2 ^ 16) f.toNat,
      f.toNat * (n + j) / (fs.toNat * 2 ^ 16) = f.toNat * n / (fs.toNat * 2 ^ 16) := by
    intro j
    induction j with
    | zero => exact fun _ => rfl
    | succ j ih =>
      intro hj
      rw [← ih (by omega)]
      exact (crossingIsWholeTurn f fs (n + j) h).2.1 (BitVec.not_lt.1 (hno j (by omega)))
  have hturn := hsame _ le_rfl
  have hwindow := unwrappedPhase_window h n
  rw [turns_eq, turns_eq] at hturn
  omega

/-! ### An armed transition (R121, R122, R264) -/

/-- R121, R122: an armed transition at the frequency `f` before the sample of the index `m`. -/
structure ArmedAt (fs f : Word) (m : Nat) (r : SineRegs) : Prop where
  armed : r.tr = .armed
  freq : r.fCur = f
  index : r.n.toNat = m
  prev : r.pPrev = phase f.toNat (m - 1) fs.toNat

theorem ArmedAt.samplePhase {fs f : Word} {m : Nat} {r : SineRegs} (h : ArmedAt fs f m r) :
    r.samplePhase fs = phase f.toNat m fs.toNat := by
  rw [SineRegs.samplePhase, if_neg (by simp [h.armed]), h.freq, h.index]

/-- R122: while the phase does not fall the transition stays armed and the index goes on. -/
theorem ArmedAt.wait {P : Params} {fs f g : Word} {m : Nat} {r : SineRegs} (h : ArmedAt fs f m r)
    (hm : m + 1 < 2 ^ 32) (hrise : ¬phase f.toNat m fs.toNat < phase f.toNat (m - 1) fs.toNat) :
    ArmedAt fs f (m + 1) (sineSample P fs g r).2.1 := by
  have hstay : ¬(r.tr = .armed ∧ phase f.toNat m fs.toNat < r.pPrev) := by
    rw [h.prev]
    exact fun hc => hrise hc.2
  rw [sineSample_steady P fs g (by simp [h.armed]), h.samplePhase]
  simp only [if_neg hstay]
  refine ⟨h.armed, (rampStep_phase r).2.1.trans h.freq, ?_, rfl⟩
  have hone : (r.n + 1#32).toNat = (r.n.toNat + 1) % 2 ^ 32 := BitVec.toNat_add _ _
  rw [hone, h.index, Nat.mod_eq_of_lt hm]

/-- R122: where the phase falls the transition starts to run. -/
theorem ArmedAt.start {P : Params} {fs f g : Word} {m : Nat} {r : SineRegs} (h : ArmedAt fs f m r)
    (hfall : phase f.toNat m fs.toNat < phase f.toNat (m - 1) fs.toNat) :
    (sineSample P fs g r).2.1.tr = .run ∧ (sineSample P fs g r).2.1.trK = 0#8 := by
  have hgo : r.tr = .armed ∧ phase f.toNat m fs.toNat < r.pPrev := by
    rw [h.prev]
    exact ⟨h.armed, hfall⟩
  rw [sineSample_steady P fs g (by simp [h.armed]), h.samplePhase]
  simp only [if_pos hgo, and_self]

/-- Settles O41: the transition waits for the first fall of the phase, which the window holds. -/
theorem armedTransitionStarts : Obligations.ArmedTransitionStarts := by
  intro P fs f r harm hfreq hprev hroom
  have hbound : cdiv (fs.toNat * 2 ^ 16) r.fCur.toNat
      = (fs.toNat * 2 ^ 16 + r.fCur.toNat - 1) / r.fCur.toNat := rfl
  rw [← hbound] at hroom ⊢
  have hex : ∃ j, phase r.fCur.toNat (r.n.toNat + j) fs.toNat
      < phase r.fCur.toNat (r.n.toNat + j - 1) fs.toNat := by
    obtain ⟨j, -, hj⟩ := exists_phase_fall hfreq r.n.toNat
    exact ⟨j + 1, hj⟩
  have hfirst : Nat.find hex ≤ cdiv (fs.toNat * 2 ^ 16) r.fCur.toNat := by
    obtain ⟨j, hlt, hj⟩ := exists_phase_fall hfreq r.n.toNat
    exact (Nat.find_min' hex (m := j + 1) hj).trans hlt
  have hwait : ∀ j ≤ Nat.find hex,
      ArmedAt fs r.fCur (r.n.toNat + j) ((fun y => (sineSample P fs f y).2.1)^[j] r) := by
    intro j
    induction j with
    | zero => exact fun _ => ⟨harm, rfl, rfl, hprev⟩
    | succ j ih =>
      intro hj
      rw [Function.iterate_succ_apply']
      exact (ih (by omega)).wait (by omega) (Nat.find_min hex hj)
  obtain ⟨hrun, hentry⟩ := (hwait _ le_rfl).start (P := P) (g := f) (Nat.find_spec hex)
  refine ⟨Nat.find hex + 1, by omega, ?_, ?_, fun j hj => (hwait j (by omega)).armed⟩
  · rwa [Function.iterate_succ_apply']
  · rwa [Function.iterate_succ_apply']

end Sys2Proof.Machine
end

