-- ==== Sys2Proof/Proofs/OscillatorTransition.lean ====
section
/-!
PROOFS. The running frequency transition of the sine (`40_oscillator.md` R121, R123) and the
resynchronisation at its end (R124, R125): what the search of R125 finds, that it always finds an
index, and the obligations O42 and O43.
-/

namespace Sys2Proof.Machine

/-! ### The first index of least deviation -/

/-- `b` is the first of the candidates below `m` whose deviation is least. -/
structure FirstLeast (cand : ℕ → Prop) (dev : ℕ → ℕ) (m b : ℕ) : Prop where
  lt : b < m
  isCand : cand b
  least : ∀ c < m, cand c → dev b ≤ dev c
  first : ∀ c < b, cand c → dev b < dev c

section
variable {cand : ℕ → Prop} {dev : ℕ → ℕ} {m b : ℕ}

theorem FirstLeast.keep (h : FirstLeast cand dev m b) (hm : cand m → dev b ≤ dev m) :
    FirstLeast cand dev (m + 1) b where
  lt := h.lt.trans m.lt_succ_self
  isCand := h.isCand
  least c hc := by
    rcases Nat.lt_succ_iff_lt_or_eq.1 hc with hlt | rfl
    · exact h.least c hlt
    · exact hm
  first := h.first

/-- A candidate that is better than all before it is the new first one. -/
theorem FirstLeast.of_better (hm : cand m) (hbetter : ∀ c < m, cand c → dev m < dev c) :
    FirstLeast cand dev (m + 1) m where
  lt := m.lt_succ_self
  isCand := hm
  least c hc hcand := by
    rcases Nat.lt_succ_iff_lt_or_eq.1 hc with hlt | rfl
    · exact (hbetter c hlt hcand).le
    · exact le_rfl
  first := hbetter

end

/-- What a search holds when the indices below `m` are done: the first least candidate with its
deviation, or nothing where there is no candidate. -/
def SearchedBelow (cand : ℕ → Prop) (dev : ℕ → ℕ) (m : ℕ) : Option (ℕ × ℕ) → Prop
  | none => ∀ c < m, ¬cand c
  | some (b, d) => d = dev b ∧ FirstLeast cand dev m b

/-! ### The search of R125 -/

/-- R125: the index `m` of the new frequency is on the wanted slope. -/
def OnSlope (fs f : Word) (want : Bool) (m : ℕ) : Prop :=
  ascending (phase f.toNat m fs.toNat) = want

/-- R125: how far the value at the index `m` is from the sample emitted. -/
def deviation (P : Params) (fs f : Word) (ieff : BitVec 24) (out : Int) (m : ℕ) : ℕ :=
  (sineValue P ieff (phase f.toNat m fs.toNat) - out).natAbs

theorem abs_eq_deviation (P : Params) (fs f : Word) (ieff : BitVec 24) (out : Int) (m : ℕ) :
    |sineValue P ieff (phase f.toNat m fs.toNat) - out| = deviation P fs f ieff out m :=
  Int.abs_eq_natAbs _

section
variable {P : Params} {fs f : Word} {ieff : BitVec 24} {want : Bool} {out : Int} {m : ℕ}

/-- R125: a search is its first index, then the rest. -/
theorem resyncSearch_succ (k : ℕ) (best : Option (ℕ × ℕ)) :
    resyncSearch P fs f ieff want out (k + 1) m best
      = resyncSearch P fs f ieff want out k (m + 1)
          (resyncSearch P fs f ieff want out 1 m best) := rfl

theorem resyncSearch_one_of_not (h : ¬OnSlope fs f want m) (best : Option (ℕ × ℕ)) :
    resyncSearch P fs f ieff want out 1 m best = best := if_neg h

theorem resyncSearch_one_none (h : OnSlope fs f want m) :
    resyncSearch P fs f ieff want out 1 m none = some (m, deviation P fs f ieff out m) := if_pos h

theorem resyncSearch_one_some (h : OnSlope fs f want m) (b d : ℕ) :
    resyncSearch P fs f ieff want out 1 m (some (b, d))
      = if deviation P fs f ieff out m < d then some (m, deviation P fs f ieff out m)
        else some (b, d) := if_pos h

/-- R125: one index of the search: it is passed over, taken as the first candidate, taken for a
smaller deviation, or left for its larger or equal one. -/
theorem SearchedBelow.resyncSearch_one {best : Option (ℕ × ℕ)}
    (h : SearchedBelow (OnSlope fs f want) (deviation P fs f ieff out) m best) :
    SearchedBelow (OnSlope fs f want) (deviation P fs f ieff out) (m + 1)
      (resyncSearch P fs f ieff want out 1 m best) := by
  by_cases hm : OnSlope fs f want m
  · match best, h with
    | none, hnone =>
      rw [resyncSearch_one_none hm]
      exact ⟨rfl, .of_better hm fun c hc hcand => absurd hcand (hnone c hc)⟩
    | some (b, _), ⟨rfl, hb⟩ =>
      rw [resyncSearch_one_some hm]
      split_ifs with hlt
      · exact ⟨rfl, .of_better hm fun c hc hcand => hlt.trans_le (hb.least c hc hcand)⟩
      · exact ⟨rfl, hb.keep fun _ => not_lt.1 hlt⟩
  · rw [resyncSearch_one_of_not hm]
    match best, h with
    | none, hnone =>
      intro c hc
      rcases Nat.lt_succ_iff_lt_or_eq.1 hc with hlt | rfl
      · exact hnone c hlt
      · exact hm
    | some (b, _), ⟨hd, hb⟩ => exact ⟨hd, hb.keep fun hcand => absurd hcand hm⟩

/-- R125: the search over `k` indices keeps what it holds up to date. -/
theorem SearchedBelow.resyncSearch {best : Option (ℕ × ℕ)} (k : ℕ)
    (h : SearchedBelow (OnSlope fs f want) (deviation P fs f ieff out) m best) :
    SearchedBelow (OnSlope fs f want) (deviation P fs f ieff out) (m + k)
      (resyncSearch P fs f ieff want out k m best) := by
  induction k generalizing m best with
  | zero => exact h
  | succ k ih =>
    rw [resyncSearch_succ, ← Nat.add_assoc, Nat.add_right_comm]
    exact ih h.resyncSearch_one

end

/-! ### Slopes (R124) -/

/-- R124: the first and the last quarter turn ascend. -/
theorem ascending_iff (p : Word) :
    ascending p = true ↔ p.toNat < 2 ^ 30 ∨ 3 * 2 ^ 30 ≤ p.toNat := by
  have htop : (p.extractLsb' 30 2).toNat = p.toNat / 2 ^ 30 % 2 ^ 2 := by
    rw [BitVec.extractLsb'_toNat, Nat.shiftRight_eq_div_pow]
  have hp := p.isLt
  simp only [ascending, Bool.or_eq_true, beq_iff_eq, ← BitVec.toNat_inj, htop, BitVec.toNat_ofNat]
  omega

/-- R125: the window holds an index of each slope: the index 0 ascends, and the first one to reach a
quarter turn descends, because the phase moves by at most half a turn a sample. -/
theorem exists_onSlope {fs f : Word} (h : FreqOk f.toNat fs.toNat) (want : Bool) :
    ∃ m < cdiv (fs.toNat * 2 ^ 16) f.toNat, OnSlope fs f want m := by
  have hwindow := unwrappedPhase_window h 0
  rw [Nat.zero_add, unwrappedPhase_zero, Nat.zero_add] at hwindow
  cases want with
  | true =>
    refine ⟨0, Nat.pos_of_ne_zero fun hzero => ?_, ?_⟩
    · rw [hzero, unwrappedPhase_zero] at hwindow
      omega
    · rw [OnSlope, ascending_iff, toNat_phase, unwrappedPhase_zero]
      omega
  | false =>
    have hex : ∃ m, 2 ^ 30 ≤ unwrappedPhase f.toNat m fs.toNat :=
      ⟨cdiv (fs.toNat * 2 ^ 16) f.toNat, by omega⟩
    obtain ⟨q, hq⟩ : ∃ q, Nat.find hex = q + 1 := by
      refine Nat.exists_eq_succ_of_ne_zero fun hzero => ?_
      have hreach := Nat.find_spec hex
      rw [hzero, unwrappedPhase_zero] at hreach
      omega
    have hreach := Nat.find_spec hex
    have hbefore := Nat.find_min hex (m := q) (by omega)
    have hstep := unwrappedPhase_succ_le h q
    rw [hq] at hreach
    refine ⟨q + 1, ?_, ?_⟩
    · by_contra hge
      have hmono := unwrappedPhase_mono f.toNat fs.toNat (not_lt.1 hge)
      omega
    · rw [OnSlope, ← Bool.not_eq_true, ascending_iff, toNat_phase]
      omega

/-! ### Resynchronisation (R125) -/

/-- R121: the window in the order of the statements. -/
theorem resyncWindow_eq (fs f : Word) : resyncWindow fs f = cdiv (fs.toNat * 2 ^ 16) f.toNat := by
  rw [resyncWindow, Nat.mul_comm]

/-- R125: the index found is the first of least deviation on the slope of the last phase. -/
theorem resyncIndex_firstLeast (P : Params) {fs f : Word} (ieff : BitVec 24) (p : Word) (out : Int)
    (h : FreqOk f.toNat fs.toNat) :
    FirstLeast (OnSlope fs f (ascending p)) (deviation P fs f ieff out)
      (cdiv (fs.toNat * 2 ^ 16) f.toNat) (resyncIndex P fs f ieff p out) := by
  have hstart : SearchedBelow (OnSlope fs f (ascending p)) (deviation P fs f ieff out) 0 none :=
    fun c hc => absurd hc c.not_lt_zero
  have hsearch := hstart.resyncSearch (resyncWindow fs f)
  rw [Nat.zero_add] at hsearch
  rw [← resyncWindow_eq, resyncIndex]
  obtain ⟨m, hm, hslope⟩ := exists_onSlope h (ascending p)
  rw [← resyncWindow_eq] at hm
  match hfound : resyncSearch P fs f ieff (ascending p) out (resyncWindow fs f) 0 none with
  | none =>
    rw [hfound] at hsearch
    exact absurd hslope (hsearch m hm)
  | some (b, d) =>
    rw [hfound] at hsearch
    exact hsearch.2

/-- Settles O43: the search is a first least candidate, and the deviation an absolute value. -/
theorem resyncClosestIndex : Obligations.ResyncClosestIndex := by
  refine ⟨ascending_iff, fun P fs f p out r h => ?_⟩
  obtain ⟨hlt, hslope, hleast, hfirst⟩ := resyncIndex_firstLeast P r.iEff p out h
  refine ⟨resyncIndex P fs f r.iEff p out, hlt, hslope, fun m hm hcand => ?_,
    fun m hm hcand => ?_, rfl⟩
  · rw [abs_eq_deviation, abs_eq_deviation]
    exact_mod_cast hleast m hm hcand
  · rw [abs_eq_deviation, abs_eq_deviation]
    exact_mod_cast hfirst m hm hcand

/-- R125: the resynchronisation reads only the intensity in effect, which it keeps. -/
theorem resync_resync (P : Params) (fs f p : Word) (out : Int) (r : SineRegs) :
    resync P fs f p out (resync P fs f p out r) = resync P fs f p out r := rfl

/-! ### A running transition (R121, R123) -/

/-- R121, R123: the transition of the registers `r` before its entry `k`. -/
structure RunAt (r : SineRegs) (k : ℕ) (x : SineRegs) : Prop where
  run : x.tr = .run
  entry : x.trK.toNat = k
  index : x.n = r.n
  freq : x.fCur = r.fCur
  table : x.pt = r.pt

theorem RunAt.samplePhase {r x : SineRegs} {k : ℕ} (h : RunAt r k x) (fs : Word) (hk : k < 256) :
    x.samplePhase fs = r.pt[k]'hk := by
  obtain ⟨hrun, rfl, -, -, htable⟩ := h
  simp only [SineRegs.samplePhase, if_pos hrun, htable]

/-- R123: before the last entry a sample steps to the next entry and nothing else of the phase
moves but the previous phase. -/
theorem RunAt.next {r x : SineRegs} {k : ℕ} (h : RunAt r k x) (P : Params) (fs f : Word)
    (hk : k < 255) :
    RunAt r (k + 1) (sineSample P fs f x).2.1
      ∧ (sineSample P fs f x).2.1.pPrev = r.pt[k]'(Nat.lt_succ_of_lt hk) := by
  obtain ⟨hn, hf, -, ht, -, hpt⟩ := rampStep_phase x
  rw [sineSample_running P fs f h.run (by rw [h.entry]; exact hk),
    h.samplePhase fs (Nat.lt_succ_of_lt hk)]
  refine ⟨⟨ht.trans h.run, ?_, hn.trans h.index, hf.trans h.freq, hpt.trans h.table⟩, rfl⟩
  have hone : (x.trK + 1#8).toNat = (x.trK.toNat + 1) % 2 ^ 8 := BitVec.toNat_add _ _
  rw [hone, h.entry]
  omega

/-- R123, R125: the sample of the last entry ends the transition, resynchronised on itself. -/
theorem RunAt.finish {r x : SineRegs} (h : RunAt r 255 x) (P : Params) (fs f : Word) :
    (sineSample P fs f x).2.1
        = resync P fs f (r.pt[255]) (sineSample P fs f x).1 (sineSample P fs f x).2.1
      ∧ (sineSample P fs f x).2.1.pt = r.pt
      ∧ (sineSample P fs f x).2.1.tr = .none ∧ (sineSample P fs f x).2.1.trK = 0#8
      ∧ (sineSample P fs f x).2.1.fCur = f := by
  obtain ⟨-, -, -, -, -, hpt⟩ := rampStep_phase x
  rw [sineSample_last P fs f h.run h.entry, h.samplePhase fs (by decide)]
  exact ⟨(resync_resync ..).symm, hpt.trans h.table, rfl, rfl, rfl⟩

/-- R117, R126: the sample of a running transition has the value of the intensity it leaves. -/
theorem RunAt.out {r x : SineRegs} {k : ℕ} (h : RunAt r k x) (P : Params) (fs f : Word)
    (hk : k < 256) :
    (sineSample P fs f x).1 = sineValue P (sineSample P fs f x).2.1.iEff (r.pt[k]'hk) := by
  rw [sineSample_out, sineSample_iEff, h.samplePhase fs hk]

/-- Settles O42: the entries before the last one by induction, then the end of the transition. -/
theorem transitionRuns256 : Obligations.TransitionRuns256 := by
  intro P fs f r at' hrun hentry hzero hsucc
  have hat : ∀ k < 256, RunAt r k (at' k) := by
    intro k
    induction k with
    | zero =>
      rw [hzero]
      exact fun _ => ⟨hrun, congrArg BitVec.toNat hentry, rfl, rfl, rfl⟩
    | succ k ih =>
      intro hk
      rw [hsucc]
      exact ((ih (by omega)).next P fs f (by omega)).1
  refine ⟨fun k hk => ?_, fun k hk => ?_, ?_⟩
  · have h := hat k hk
    rw [hsucc]
    exact ⟨h.run, h.entry, h.index, h.freq, h.out P fs f hk⟩
  · rw [hsucc]
    exact ((hat k (Nat.lt_succ_of_lt hk)).next P fs f hk).2
  · rw [hsucc 255]
    exact (hat 255 (by decide)).finish P fs f

end Sys2Proof.Machine
end

