-- ==== Sys2Proof/Proofs/FilterSample.lean ====
section
/-!
PROOFS. The filter sample by sample (`42_filter.md` R172 to R174, R177): the accumulator and its
rounding, what a sample keeps, a buffer as its samples in order, and the obligations O48 and O49.
-/

namespace Sys2Proof.Machine

/-! ### The difference equation (R172) -/

/-- R172: the exact sum of the five products. -/
def Filter.products (x : Int) (F : Filter) : Int :=
  F.cur.b0.toInt * x + F.cur.b1.toInt * F.x1.toInt + F.cur.b2.toInt * F.x2.toInt
    - F.cur.a1.toInt * F.y1.toInt - F.cur.a2.toInt * F.y2.toInt

/-- The accumulator is the sum of the products in 64 bits. -/
theorem Filter.accumulate_eq_wrapS (x : Int) (F : Filter) :
    F.accumulate x = wrapS 64 (F.products x) := rfl

/-- `wrap_N` leaves a value that fits the register. -/
theorem wrapS_of_fits {n : Nat} {v : Int} (hlo : -(2 ^ n : Nat) ≤ 2 * v)
    (hhi : 2 * v < (2 ^ n : Nat)) : wrapS n v = v :=
  Int.bmod_eq_of_le_mul_two (by omega) (by omega)

/-- A sum of products that fits 64 bits stands in the accumulator exactly. -/
theorem Filter.accumulate_exact {x : Int} {F : Filter} (hlo : -2 ^ 63 ≤ F.products x)
    (hhi : F.products x < 2 ^ 63) : F.accumulate x = F.products x := by
  rw [Filter.accumulate_eq_wrapS]
  exact wrapS_of_fits (by omega) (by omega)

/-- The magnitude of a signed 32-bit register. -/
theorem abs_toInt_le (w : BitVec 32) : |w.toInt| ≤ 2 ^ 31 := by
  have hlo := w.le_toInt
  have hhi := w.toInt_lt
  rw [abs_le]
  omega

/-- A product of two bounded factors is bounded. -/
theorem mul_bounds {a b m n : Int} (ha : |a| ≤ m) (hb : |b| ≤ n) :
    -(m * n) ≤ a * b ∧ a * b ≤ m * n := by
  rw [← abs_le, abs_mul]
  exact mul_le_mul ha hb (abs_nonneg b) ((abs_nonneg a).trans ha)

/-- R161 (c), R172: with the bounds of a design and inputs of a Sample's size the sum stays
within 2^61, inside the accumulator's 64 bits. -/
theorem Filter.products_bounds {x : Int} {F : Filter} (hx : |x| ≤ 2 ^ 23)
    (hx1 : |F.x1.toInt| ≤ 2 ^ 23) (hx2 : |F.x2.toInt| ≤ 2 ^ 23) (ha1 : |F.cur.a1.toInt| ≤ 2 ^ 29)
    (ha2 : |F.cur.a2.toInt| ≤ 2 ^ 28) : -2 ^ 61 ≤ F.products x ∧ F.products x < 2 ^ 61 := by
  have h0 := mul_bounds (abs_toInt_le F.cur.b0) hx
  have h1 := mul_bounds (abs_toInt_le F.cur.b1) hx1
  have h2 := mul_bounds (abs_toInt_le F.cur.b2) hx2
  have h3 := mul_bounds ha1 (abs_toInt_le F.y1)
  have h4 := mul_bounds ha2 (abs_toInt_le F.y2)
  unfold Filter.products
  omega

/-- R172: what the difference equation gives for its rounded accumulator. -/
theorem Filter.biquad_eq (x : Int) (F : Filter) :
    F.biquad x
      = (wrapS 32 (F.result x),
          { F with
            x1 := sreg 32 x, x2 := F.x1, y1 := sreg 32 (wrapS 32 (F.result x)), y2 := F.y1 },
          decide (wrapS 32 (F.result x) ≠ F.result x)) := by
  simp only [Filter.biquad, bne, BEq.beq, decide_not]

/-- A value that was wrapped to 32 bits fits its register. -/
theorem toInt_sreg_wrapS (v : Int) : (sreg 32 (wrapS 32 v)).toInt = wrapS 32 v := by
  obtain ⟨hlo, hhi, -⟩ := wrapS_spec (n := 32) (by omega) v
  exact toInt_sreg (by omega) (by omega)

/-- R172: the output depends on the coefficients in effect and on the delay lines alone. -/
theorem Filter.biquad_output_congr {F G : Filter} (x : Int) (hcur : F.cur = G.cur)
    (hx1 : F.x1 = G.x1) (hx2 : F.x2 = G.x2) (hy1 : F.y1 = G.y1) (hy2 : F.y2 = G.y2) :
    (F.biquad x).1 = (G.biquad x).1 := by
  simp only [Filter.biquad, Filter.result, Filter.accumulate, hcur, hx1, hx2, hy1, hy2]

/-! ### A sample and a buffer (R173, R174) -/

/-- The crossfade advance of a filter that does not fade. -/
theorem Filter.advance_idle (P : Params) (fs : Word) {F : Filter} (h : F.xfOn = false) :
    F.advance P fs = (F, false) := by
  simp [Filter.advance, h]

/-- The crossfade advance of a filter that fades. -/
theorem Filter.advance_fading (P : Params) (fs : Word) {F : Filter} (h : F.xfOn = true) :
    F.advance P fs = F.fadeStep P fs := by
  simp [Filter.advance, h]

/-- A segment leaves the delay lines. -/
theorem Filter.nextSegment_delays (P : Params) (fs : Word) (F : Filter) :
    (F.nextSegment P fs).1.x1 = F.x1 ∧ (F.nextSegment P fs).1.x2 = F.x2
      ∧ (F.nextSegment P fs).1.y1 = F.y1 ∧ (F.nextSegment P fs).1.y2 = F.y2 := by
  rcases F.nextSegment_cases P fs with ⟨_, h⟩ | ⟨d, _, h⟩ <;> rw [h] <;> exact ⟨rfl, rfl, rfl, rfl⟩

/-- R173: the crossfade advance leaves the delay lines. -/
theorem Filter.advance_delays (P : Params) (fs : Word) (F : Filter) :
    (F.advance P fs).1.x1 = F.x1 ∧ (F.advance P fs).1.x2 = F.x2
      ∧ (F.advance P fs).1.y1 = F.y1 ∧ (F.advance P fs).1.y2 = F.y2 := by
  cases hx : F.xfOn with
  | false =>
    rw [Filter.advance_idle P fs hx]
    exact ⟨rfl, rfl, rfl, rfl⟩
  | true =>
    rw [Filter.advance_fading P fs hx]
    rcases F.fadeStep_cases P fs with ⟨_, h⟩ | ⟨_, _, _, h⟩ | ⟨_, _, h⟩ <;> rw [h]
    · exact ⟨rfl, rfl, rfl, rfl⟩
    · exact Filter.nextSegment_delays P fs _
    · exact ⟨rfl, rfl, rfl, rfl⟩

/-- R173: the sample is the advance and then the difference equation. -/
theorem Filter.sample_eq (P : Params) (fs : Word) (F : Filter) (x : Int) :
    F.sample P fs x
      = { y := ((F.advance P fs).1.biquad x).1
          filt := ((F.advance P fs).1.biquad x).2.1
          ovf := ((F.advance P fs).1.biquad x).2.2
          designErr := (F.advance P fs).2 } := by
  unfold Filter.sample
  rfl

/-- R174: a buffer of one sample more. -/
theorem Filter.process_cons (P : Params) (fs : Word) (F : Filter) (x : Int) (xs : List Int) :
    Filter.process P fs (x :: xs) F
      = ((F.sample P fs x).y :: (Filter.process P fs xs (F.sample P fs x).filt).1,
          (Filter.process P fs xs (F.sample P fs x).filt).2.1,
          (F.sample P fs x).ovf || (Filter.process P fs xs (F.sample P fs x).filt).2.2.1,
          (F.sample P fs x).designErr
            || (Filter.process P fs xs (F.sample P fs x).filt).2.2.2) := rfl

/-- R174: what holds of the filter behind `k` samples and is carried by every sample without a
failed design holds behind a whole buffer, without one. -/
theorem Filter.process_induction {P : Params} {fs : Word} {I : Nat → Filter → Prop}
    (hstep : ∀ k F x, I k F →
      (F.sample P fs x).designErr = false ∧ I (k + 1) (F.sample P fs x).filt)
    (xs : List Int) {k : Nat} {F : Filter} (h : I k F) :
    (Filter.process P fs xs F).2.2.2 = false
      ∧ I (k + xs.length) (Filter.process P fs xs F).2.1 := by
  induction xs generalizing k F with
  | nil => exact ⟨rfl, h⟩
  | cons x xs ih =>
    obtain ⟨herr, hnext⟩ := hstep k F x h
    obtain ⟨herrs, hend⟩ := ih hnext
    rw [Filter.process_cons, herr, herrs, List.length_cons, Nat.add_comm xs.length 1,
      ← Nat.add_assoc]
    exact ⟨rfl, hend⟩

/-- Settles O48: the bounds of the sum, the difference equation, the sample and the buffer. -/
theorem biquadSample : Obligations.BiquadSample := by
  refine ⟨fun F x hx hx1 hx2 ha1 ha2 => ?_, fun F x y hlo hhi hy => ?_,
    fun P fs F F1 F2 x y err ovf hadv hbiq => ?_, fun P fs F G x xs ys ovf err => ?_⟩
  · obtain ⟨hlo, hhi⟩ := Filter.products_bounds hx hx1 hx2 ha1 ha2
    exact Filter.accumulate_exact (by omega) (by omega)
  · have hres : y = F.result x := hy
    subst hres
    exact ⟨_, F.biquad_eq x, rfl, toInt_sreg (by omega) (by omega), toInt_sreg_wrapS _⟩
  · obtain ⟨hx1, hx2, hy1, hy2⟩ := F.advance_delays P fs
    rw [hadv] at hx1 hx2 hy1 hy2
    refine ⟨?_, fun hidle => ?_, hx1, hx2, hy1, hy2⟩
    · rw [Filter.sample_eq, hadv, hbiq]
    · rw [Filter.advance_idle P fs hidle] at hadv
      exact ⟨(congrArg Prod.fst hadv).symm, (congrArg Prod.snd hadv).symm⟩
  · refine ⟨rfl, fun h => ?_⟩
    rw [Filter.process_cons, h]

/-! ### Rest states (R177) -/

/-- R9, R177: `c` units less a deviation `t` toward zero round back to `c` exactly where the
deviation is at most half a unit; a tie goes away from zero, hence back to `c`. -/
theorem rshrSym_sub_eq_iff {c t : Int} (hc : 0 ≤ c) (ht : 0 ≤ t) (h0 : c = 0 → t = 0) :
    rshrSym (c * 2 ^ 28 - t) 28 = c ↔ t ≤ 2 ^ 27 := by
  rcases le_or_gt 0 (c * 2 ^ 28 - t) with hv | hv
  · rw [rshrSym_of_nonneg hv, asr]
    omega
  · rw [rshrSym_of_neg hv, asr]
    omega

/-- R177: with a silent input the products of a constant output. -/
theorem Filter.products_rest {F : Filter} (hx1 : F.x1 = 0#32) (hx2 : F.x2 = 0#32)
    (hy : F.y1 = F.y2) :
    F.products 0
      = F.y1.toInt * 2 ^ 28 - F.y1.toInt * (2 ^ 28 + F.cur.a1.toInt + F.cur.a2.toInt) := by
  rw [Filter.products, hx1, hx2, ← hy, toInt_zero32]
  ring

/-- R177: with `D` not negative the products of a constant output fit the accumulator. -/
theorem Filter.accumulate_rest {F : Filter} (hx1 : F.x1 = 0#32) (hx2 : F.x2 = 0#32)
    (hy : F.y1 = F.y2) (hD : 0 ≤ 2 ^ 28 + F.cur.a1.toInt + F.cur.a2.toInt) :
    F.accumulate 0 = F.products 0 := by
  have ha1 := F.cur.a1.toInt_lt
  have ha2 := F.cur.a2.toInt_lt
  have hc := abs_toInt_le F.y1
  have hsum : |F.cur.a1.toInt + F.cur.a2.toInt| ≤ 2 ^ 32 - 2 := by
    rw [abs_le]
    omega
  have hprod := mul_bounds hc hsum
  have hexact : F.products 0 = -(F.y1.toInt * (F.cur.a1.toInt + F.cur.a2.toInt)) := by
    rw [Filter.products_rest hx1 hx2 hy]
    ring
  exact Filter.accumulate_exact (by omega) (by omega)

/-- R177: the output is the register's value without a wrap exactly where the rounded accumulator
is. -/
theorem Filter.biquad_reproduces_iff (F : Filter) (x : Int) (w : BitVec 32) :
    (F.biquad x).1 = w.toInt ∧ (F.biquad x).2.2 = false ↔ F.result x = w.toInt := by
  rw [Filter.biquad_eq]
  simp only [ne_eq, decide_eq_false_iff_not, not_not]
  constructor
  · rintro ⟨hy, hfit⟩
    rw [← hfit, hy]
  · intro h
    have hlo := w.le_toInt
    have hhi := w.toInt_lt
    have hfit : wrapS 32 w.toInt = w.toInt := wrapS_of_fits (by omega) (by omega)
    rw [h]
    exact ⟨hfit, hfit⟩

/-- Settles O49: the rounded accumulator for an output that is not negative, and by the oddness of
the rounding for the others. -/
theorem restStates : Obligations.RestStates := by
  intro F hx1 hx2 hy hD
  rw [Filter.biquad_reproduces_iff, Filter.result, Filter.accumulate_rest hx1 hx2 hy hD,
    Filter.products_rest hx1 hx2 hy]
  generalize 2 ^ 28 + F.cur.a1.toInt + F.cur.a2.toInt = D at hD ⊢
  generalize F.y1.toInt = c
  rcases le_or_gt 0 c with hc | hc
  · rw [abs_of_nonneg hc]
    exact rshrSym_sub_eq_iff hc (mul_nonneg hc hD) fun h0 => by rw [h0, zero_mul]
  · have hodd : c * 2 ^ 28 - c * D = -(-c * 2 ^ 28 - -c * D) := by ring
    rw [abs_of_neg hc, hodd, rshrSym_neg _ (by omega), neg_eq_iff_eq_neg]
    exact rshrSym_sub_eq_iff (by omega) (mul_nonneg (by omega) hD) fun h0 => by rw [h0, zero_mul]

end Sys2Proof.Machine
end

