-- ==== Sys2Proof/Proofs/FilterCommands.lean ====
section
/-!
PROOFS. FILT_UPDATE and FILT_SWEEP (`42_filter.md` R163 to R165, `43_voice.md` R206, R208): the
cases of `update` and `start_fc_sweep`, the registers of a sweep at the start of each segment, what
the two commands answer, and the obligations O22 and O23.
-/

namespace Sys2Proof.Machine

/-! ### FILT_UPDATE (R163, R206) -/

section
variable {P : Params} {fs fc q gain : Word} {F : Filter}

/-- R163: without a design `update` fails with `EINVAL`. -/
theorem Filter.update_without_design (hd : P.design fc q gain fs = none) :
    F.update P fs fc q gain = .error .einval := by
  simp [Filter.update, hd]

/-- R163: with a design `update` fails with `EAGAIN` while a sweep is on. -/
theorem Filter.update_while_sweeping (hd : P.design fc q gain fs ≠ none) (hs : F.swOn = true) :
    F.update P fs fc q gain = .error .eagain := by
  obtain ⟨d, hd⟩ := Option.ne_none_iff_exists'.1 hd
  simp [Filter.update, hd, hs]

/-- R163: with a design and no sweep `update` starts a crossfade to the design. -/
theorem Filter.update_of_design {d : Coeffs} (hd : P.design fc q gain fs = some d)
    (hs : F.swOn = false) :
    F.update P fs fc q gain
      = .ok (Filter.fadeTo d { F with fc := fc, q := q, gain := gain }) := by
  simp [Filter.update, hd, hs]

end

/-- R206: FILT_UPDATE where the filter's update succeeds. -/
theorem filtUpdateWith_ok {P : Params} {fc q gain : Word} {s : State} {v : Voice} {F : Filter}
    (hv : s.voice = some v) (h : v.filt.update P v.cfg.fs fc q gain = .ok F) :
    filtUpdateWith P fc q gain s
      = .next { s with resp := s.resp ++ [0#32], voice := some { v with filt := F } } := by
  have hop : quiet (v.filtUpdate P fc q gain) = .ok ({ v with filt := F }, Sticky.clear) := by
    simp [quiet, Voice.filtUpdate, h]
  rw [filtUpdateWith, control_ok hv hop, Sticky.or_clear]

/-- R206, R243: FILT_UPDATE where the filter's update fails. -/
theorem filtUpdateWith_error {P : Params} {fc q gain : Word} {s : State} {v : Voice} {st : Status}
    (hv : s.voice = some v) (h : v.filt.update P v.cfg.fs fc q gain = .error st) :
    filtUpdateWith P fc q gain s = .next { s with resp := s.resp ++ [st.word] } :=
  control_error hv (by simp [quiet, Voice.filtUpdate, h])

/-- Settles O22, by the three cases of the filter's update. -/
theorem filtUpdateEffect : Obligations.FiltUpdateEffect := by
  intro P s v fc q gain hv
  have hchip : P = chip → exec (.filtUpdate fc q gain) s = execWith P (.filtUpdate fc q gain) s :=
    fun h => h ▸ exec_eq_execWith_chip _ s
  refine ⟨rfl, fun d hd hs => ?_, fun hd => ?_, fun hd hs => ?_, hchip⟩
  · have hup := Filter.update_of_design hd hs
    have hrun := filtUpdateWith_ok hv hup
    exact ⟨_, _, hup, hrun, fun h => (hchip h).trans hrun, rfl, rfl⟩
  · exact filtUpdateWith_error hv (Filter.update_without_design hd)
  · exact filtUpdateWith_error hv (Filter.update_while_sweeping hd hs)

/-! ### The registers of a sweep (R164, R165) -/

/-- The model's truncated division is the library's. -/
theorem tdiv_eq_intTdiv (a b : Int) : tdiv a b = Int.tdiv a b := by
  unfold tdiv
  split
  · rename_i ha
    exact (Int.tdiv_eq_ediv_of_nonneg ha).symm
  · rename_i ha
    rw [← Int.tdiv_eq_ediv_of_nonneg (by omega), Int.neg_tdiv, neg_neg]

/-- R164: the step of the cutoff in a sweep of `steps` segments. -/
def sweepDelta (start target : Word) (steps : Nat) : Int :=
  Int.tdiv ((target.toNat : Int) - start.toNat) steps

/-- R164, R165: the cutoff of the `j`-th of `steps` segments; before the first one (`j = 0`) it is
where the sweep starts. -/
def sweepCutoff (start target : Word) (steps j : Nat) : Int :=
  if j = steps then target.toNat else start.toNat + j * sweepDelta start target steps

/-- R164: the step of the cutoff fits its register. -/
theorem sweepDelta_fits (start target : Word) (steps : Nat) :
    -2 ^ 32 < sweepDelta start target steps ∧ sweepDelta start target steps < 2 ^ 32 := by
  have hstart := start.isLt
  have htarget := target.isLt
  have hle : (sweepDelta start target steps).natAbs ≤ ((target.toNat : Int) - start.toNat).natAbs :=
    Int.natAbs_tdiv_le_natAbs _ _
  omega

/-- R164, R165: every cutoff of a sweep lies between its start and its target. -/
theorem sweepCutoff_between (start target : Word) {steps j : Nat} (h : 0 < steps) (hj : j ≤ steps) :
    min (start.toNat : Int) target.toNat ≤ sweepCutoff start target steps j
      ∧ sweepCutoff start target steps j ≤ max (start.toNat : Int) target.toNat := by
  unfold sweepCutoff
  split
  · omega
  · have hj' : (j : Int) ≤ steps := by exact_mod_cast hj
    have hmul := tdiv_mul (a := (target.toNat : Int) - start.toNat) (b := steps)
      (by exact_mod_cast h)
    rw [tdiv_eq_intTdiv, ← sweepDelta] at hmul
    rcases hmul with ⟨hsign, hreach⟩ | ⟨hsign, hreach⟩
    · have hlo := mul_nonneg (Int.natCast_nonneg j) hsign
      have hhi := mul_le_mul_of_nonneg_right hj' hsign
      rw [mul_comm (steps : Int)] at hhi
      omega
    · have hhi := mul_nonpos_of_nonneg_of_nonpos (Int.natCast_nonneg j) hsign
      have hlo := mul_le_mul_of_nonpos_right hj' hsign
      rw [mul_comm (steps : Int)] at hlo
      omega

/-- The cutoff moves by the step, and to the target in the last segment. -/
theorem sweepCutoff_succ (start target : Word) {steps j : Nat} (hj : j < steps) :
    sweepCutoff start target steps (j + 1)
      = if j + 1 = steps then (target.toNat : Int)
        else sweepCutoff start target steps j + sweepDelta start target steps := by
  rw [sweepCutoff, sweepCutoff, if_neg hj.ne]
  push_cast
  rw [add_mul, one_mul, add_assoc]

/-- R164, R165: a sweep from the cutoff of `F0` to `target`, at the quality factor and the gain of
`F0`, with `j` of its `steps` segments started. -/
structure Filter.SweepRegs (F0 : Filter) (target : Word) (steps j : Nat) (F : Filter) : Prop where
  sweeping : F.swOn = true
  remaining : F.swRem.toNat = steps - j
  cutoff : (F.fc.toNat : Int) = sweepCutoff F0.fc target steps j
  goal : F.swTarget = target
  delta : F.swDelta.toInt = sweepDelta F0.fc target steps
  quality : F.q = F0.q
  gain : F.gain = F0.gain

/-- R164: `start_fc_sweep` arms the sweep before its first segment. -/
theorem Filter.armSweep_sweepRegs (F : Filter) (target : Word) {total : Word}
    (h : 256 ≤ total.toNat) :
    F.SweepRegs target (total.toNat / 256) 0 (F.armSweep target total) := by
  have htotal := total.isLt
  have hsteps : 0 < total.toNat / 256 := by omega
  obtain ⟨hlo, hhi⟩ := sweepDelta_fits F.fc target (total.toNat / 256)
  refine ⟨rfl, toNat_ureg (by simp only [Config.xfLen_val]; omega), ?_, rfl, ?_, rfl, rfl⟩
  · rw [sweepCutoff, if_neg hsteps.ne]
    simp [Filter.armSweep]
  · show (sreg 33 (tdiv ((target.toNat : Int) - F.fc.toNat) (total.toNat / 256 : Nat))).toInt = _
    rw [tdiv_eq_intTdiv, ← sweepDelta]
    exact toInt_sreg (by omega) (by omega)

/-- R165: a segment whose design fails. -/
theorem Filter.nextSegment_without_design {P : Params} {fs : Word} {F : Filter}
    (hd : P.design F.nextFc F.q F.gain fs = none) :
    F.nextSegment P fs
      = ({ F with fc := F.nextFc, swRem := 0#32, swOn := false, xfOn := false, xfIdx := 0#8 },
          true) := by
  simp [Filter.nextSegment, hd]

/-- R165: a segment with a design. -/
theorem Filter.nextSegment_of_design {P : Params} {fs : Word} {F : Filter} {d : Coeffs}
    (hd : P.design F.nextFc F.q F.gain fs = some d) :
    F.nextSegment P fs
      = (Filter.fadeTo d { F with fc := F.nextFc, swRem := F.swRem - 1#32 }, false) := by
  simp [Filter.nextSegment, hd]

/-- R165: a segment, with a design or without, moves to the next cutoff and keeps the target and the
step of the sweep. -/
theorem Filter.nextSegment_cutoff (P : Params) (fs : Word) (F : Filter) :
    (F.nextSegment P fs).1.fc = F.nextFc ∧ (F.nextSegment P fs).1.swTarget = F.swTarget
      ∧ (F.nextSegment P fs).1.swDelta = F.swDelta := by
  rcases F.nextSegment_cases P fs with ⟨_, h⟩ | ⟨d, _, h⟩ <;> rw [h] <;> exact ⟨rfl, rfl, rfl⟩

section
variable {F0 F : Filter} {target : Word} {steps j : Nat}

/-- R165: the cutoff of the next segment. -/
theorem Filter.SweepRegs.toNat_nextFc (h : F0.SweepRegs target steps j F) (hj : j < steps) :
    (F.nextFc.toNat : Int) = sweepCutoff F0.fc target steps (j + 1) := by
  have hlast : F.swRem = 1#32 ↔ j + 1 = steps := by
    rw [← BitVec.toNat_inj, h.remaining]
    show _ = 1 ↔ _
    omega
  obtain ⟨hlo, hhi⟩ := sweepCutoff_between F0.fc target (steps := steps) (j := j + 1)
    (by omega) hj
  have hstart := F0.fc.isLt
  have htarget := target.isLt
  rw [Filter.nextFc, h.goal, h.cutoff, h.delta]
  rw [sweepCutoff_succ F0.fc target hj] at hlo hhi ⊢
  by_cases hj1 : j + 1 = steps
  · rw [if_pos (hlast.2 hj1), if_pos hj1]
  · rw [if_neg hj1] at hlo hhi
    rw [if_neg (hlast.not.2 hj1), if_neg hj1]
    exact toNat_sreg (n := 32) (by omega) (by omega)

/-- R165: a segment that is left to start is counted. -/
theorem Filter.SweepRegs.toNat_swRem_pred (h : F0.SweepRegs target steps j F) (hj : j < steps) :
    (F.swRem - 1#32).toNat = steps - (j + 1) := by
  have hrem : F.swRem ≠ 0#32 := by
    rw [ne_eq, ← BitVec.toNat_inj, h.remaining]
    show ¬_ = 0
    omega
  rw [toNat_pred hrem, h.remaining]
  omega

/-- R165: the registers of the sweep with one more segment started. -/
theorem Filter.SweepRegs.next (h : F0.SweepRegs target steps j F) (hj : j < steps) (d : Coeffs) :
    F0.SweepRegs target steps (j + 1)
      (Filter.fadeTo d { F with fc := F.nextFc, swRem := F.swRem - 1#32 }) where
  sweeping := h.sweeping
  remaining := h.toNat_swRem_pred hj
  cutoff := h.toNat_nextFc hj
  goal := h.goal
  delta := h.delta
  quality := h.quality
  gain := h.gain

end

/-! ### FILT_SWEEP (R164, R208) -/

section
variable {P : Params} {fs target total : Word} {F : Filter}

/-- R164: with a bad argument `start_fc_sweep` fails with `EINVAL`. -/
theorem Filter.startSweep_of_bad_argument
    (h : total.toNat < 256 ∨ ¬FreqOk target.toNat fs.toNat) :
    F.startSweep P fs target total = .error .einval := if_pos h

/-- R164: with good arguments `start_fc_sweep` fails with `EAGAIN` while the filter is busy. -/
theorem Filter.startSweep_while_busy (hn : 256 ≤ total.toNat) (ht : FreqOk target.toNat fs.toNat)
    (hbusy : F.swOn = true ∨ F.xfOn = true) :
    F.startSweep P fs target total = .error .eagain := by
  rw [Filter.startSweep, Config.xfLen_val, if_neg (not_or.2 ⟨not_lt.2 hn, not_not.2 ht⟩),
    if_pos hbusy]

/-- R164: with good arguments and nothing in progress `start_fc_sweep` starts the first segment. -/
theorem Filter.startSweep_of_idle (hn : 256 ≤ total.toNat) (ht : FreqOk target.toNat fs.toNat)
    (hs : F.swOn = false) (hx : F.xfOn = false) :
    F.startSweep P fs target total = .ok ((F.armSweep target total).nextSegment P fs) := by
  rw [Filter.startSweep, Config.xfLen_val, if_neg (not_or.2 ⟨not_lt.2 hn, not_not.2 ht⟩),
    if_neg (by simp [hs, hx])]

end

/-- R30: the event of a segment's design touches its own sticky bit alone. -/
theorem Sticky.or_ofDesignErr (a : Sticky) (e : Bool) :
    a.or (Sticky.ofDesignErr e) = { a with designErr := a.designErr || e } := by
  simp [Sticky.or, Sticky.ofDesignErr, Sticky.clear]

/-- R208: FILT_SWEEP where the filter's sweep is accepted. -/
theorem filtSweepWith_ok {P : Params} {target total : Word} {s : State} {v : Voice} {F : Filter}
    {e : Bool} (hv : s.voice = some v)
    (h : v.filt.startSweep P v.cfg.fs target total = .ok (F, e)) :
    filtSweepWith P target total s
      = .next { s with
          resp := s.resp ++ [0#32]
          voice := some { v with filt := F }
          sticky := { s.sticky with designErr := s.sticky.designErr || e } } := by
  have hop : v.filtSweep P target total = .ok ({ v with filt := F }, Sticky.ofDesignErr e) := by
    simp [Voice.filtSweep, h]
  rw [filtSweepWith, control_ok hv hop, Sticky.or_ofDesignErr]

/-- R208, R243: FILT_SWEEP where the filter's sweep fails. -/
theorem filtSweepWith_error {P : Params} {target total : Word} {s : State} {v : Voice}
    {st : Status} (hv : s.voice = some v)
    (h : v.filt.startSweep P v.cfg.fs target total = .error st) :
    filtSweepWith P target total s = .next { s with resp := s.resp ++ [st.word] } :=
  control_error hv (by simp [Voice.filtSweep, h])

/-- Settles O23: the two failures, and the first segment of the armed sweep with its design and
without. -/
theorem filtSweepEffect : Obligations.FiltSweepEffect := by
  intro P s v target total hv
  have hchip : P = chip →
      exec (.filtSweep target total) s = execWith P (.filtSweep target total) s :=
    fun h => h ▸ exec_eq_execWith_chip _ s
  have hrange : target ≠ 0#32 → target.toNat < v.cfg.fs.toNat * 2 ^ 15 →
      FreqOk target.toNat v.cfg.fs.toNat :=
    fun h0 hlt => ⟨zero_lt_of_ne h0, by omega⟩
  refine ⟨rfl, fun hbad => ?_, fun hn h0 hlt hbusy => ?_, fun hn h0 hlt hs hx => ?_, hchip⟩
  · refine filtSweepWith_error hv (Filter.startSweep_of_bad_argument ?_)
    rcases hbad with hn | rfl | hlt
    · exact .inl hn
    · exact .inr fun hok => absurd hok.1 (by decide)
    · exact .inr fun hok => by have := hok.2; omega
  · exact filtSweepWith_error hv (Filter.startSweep_while_busy hn (hrange h0 hlt) hbusy)
  · have hregs := v.filt.armSweep_sweepRegs target hn
    have hsteps : 0 < total.toNat / 256 := by omega
    have hok := Filter.startSweep_of_idle (P := P) hn (hrange h0 hlt) hs hx
    obtain ⟨hfc, htarget, hdelta⟩ := (v.filt.armSweep target total).nextSegment_cutoff P v.cfg.fs
    cases hseg : (v.filt.armSweep target total).nextSegment P v.cfg.fs with
    | mk F err =>
      rw [hseg] at hok hfc htarget hdelta
      dsimp only at hfc htarget hdelta
      have hrun := filtSweepWith_ok hv hok
      refine ⟨F, err, _, hok, hrun, fun h => (hchip h).trans hrun, rfl, htarget, ?_, ?_,
        fun d hd => ?_, fun hd => ?_⟩
      · rw [hdelta]
        exact hregs.delta
      · rw [hdelta, hfc, hregs.toNat_nextFc hsteps, sweepCutoff_succ _ _ hsteps, hregs.delta,
          ← hregs.cutoff]
        exact if_congr eq_comm rfl rfl
      · rw [hfc] at hd
        obtain ⟨rfl, rfl⟩ := Prod.mk.inj (hseg.symm.trans (Filter.nextSegment_of_design hd))
        exact ⟨rfl, hregs.toNat_swRem_pred hsteps, rfl⟩
      · rw [hfc] at hd
        obtain ⟨rfl, rfl⟩ := Prod.mk.inj (hseg.symm.trans (Filter.nextSegment_without_design hd))
        exact ⟨rfl, rfl⟩

end Sys2Proof.Machine
end

