-- ==== Sys2Proof/Proofs/FilterTimeline.lean ====
section
/-!
PROOFS. The filter over many samples (`42_filter.md` R165, R166, R176): the crossfade of an update
and the sweep through its segments, each as what holds behind `k` samples, and the obligations O46
and O47.
-/

namespace Sys2Proof.Machine

/-! ### One step of a crossfade (R166) -/

section
variable (P : Params) (fs : Word) {F : Filter}

/-- R166: a step inside the crossfade. -/
theorem Filter.advance_inside (hx : F.xfOn = true) (hidx : F.xfIdx.toNat < 255) :
    F.advance P fs
      = ({ F with
            xfIdx := F.xfIdx + 1#8
            cur := fade (P.xfade (F.xfIdx + 1#8)) F.start F.tgt }, false) := by
  rw [Filter.advance_fading P fs hx]
  rcases F.fadeStep_cases P fs with ⟨_, h⟩ | ⟨hlast, _⟩ | ⟨hlast, _⟩
  · exact h
  · omega
  · omega

/-- R165, R166: the last step of a segment that is followed by another. -/
theorem Filter.advance_segment (hx : F.xfOn = true) (hidx : F.xfIdx.toNat = 255)
    (hs : F.swOn = true) (hr : F.swRem ≠ 0#32) :
    F.advance P fs = Filter.nextSegment P fs { F with cur := F.tgt, xfIdx := 0#8 } := by
  rw [Filter.advance_fading P fs hx]
  rcases F.fadeStep_cases P fs with ⟨hlt, _⟩ | ⟨_, _, _, h⟩ | ⟨_, hend, _⟩
  · omega
  · exact h
  · simp [hs, hr] at hend

/-- R166: the last step of a crossfade that nothing follows. -/
theorem Filter.advance_end (hx : F.xfOn = true) (hidx : F.xfIdx.toNat = 255)
    (hend : F.swOn = false ∨ F.swRem = 0#32) :
    F.advance P fs
      = ({ F with cur := F.tgt, xfIdx := 0#8, xfOn := false, swOn := false }, false) := by
  rw [Filter.advance_fading P fs hx]
  rcases F.fadeStep_cases P fs with ⟨hlt, _⟩ | ⟨_, hs, hr, _⟩ | ⟨_, _, h⟩
  · omega
  · simp [hs, hr] at hend
  · exact h

end

/-- The index of a crossfade counts up. -/
theorem toNat_index_succ {w : BitVec 8} (h : w.toNat < 255) : (w + 1#8).toNat = w.toNat + 1 := by
  bv_omega

/-- R166: a faded coefficient lies between the two it fades, so its register holds it. -/
theorem toInt_fadeCoeff (x : BitVec 8) (start tgt : BitVec 32) :
    (fadeCoeff x start tgt).toInt
      = start.toInt + (tgt.toInt - start.toInt) * x.toNat / 2 ^ 8 := by
  have hx : (x.toNat : Int) ≤ 256 := by have := x.isLt; omega
  have hs0 := start.le_toInt
  have hs1 := start.toInt_lt
  have ht0 := tgt.le_toInt
  have ht1 := tgt.toInt_lt
  rcases le_or_gt 0 (tgt.toInt - start.toInt) with hd | hd
  · have hlo := mul_nonneg hd (Int.natCast_nonneg x.toNat)
    have hhi := mul_le_mul_of_nonneg_left hx hd
    exact toInt_sreg (by unfold asr; omega) (by unfold asr; omega)
  · have hhi := mul_nonpos_of_nonpos_of_nonneg hd.le (Int.natCast_nonneg x.toNat)
    have hlo := mul_le_mul_of_nonpos_left hx hd.le
    exact toInt_sreg (by unfold asr; omega) (by unfold asr; omega)

/-! ### The crossfade of an update (R166, R176 (a)) -/

/-- R166: a single crossfade from `c` to `d`, `k` samples after its start. -/
structure Filter.FadesAt (P : Params) (c d : Coeffs) (k : Nat) (F : Filter) : Prop where
  fading : F.xfOn = true
  single : F.swOn = false
  index : F.xfIdx.toNat = k
  start : F.start = c
  target : F.tgt = d
  active : 0 < k → F.cur = fade (P.xfade (BitVec.ofNat 8 k)) c d

/-- R166: nothing in progress, with the coefficients `d` in effect. -/
structure Filter.RestsOn (d : Coeffs) (F : Filter) : Prop where
  active : F.cur = d
  target : F.tgt = d
  idle : F.xfOn = false
  index : F.xfIdx = 0#8

/-- R176 (a): what holds `k` samples after a crossfade has started. -/
def Filter.CrossfadeAt (P : Params) (c d : Coeffs) (k : Nat) (F : Filter) : Prop :=
  (k < 256 ∧ F.FadesAt P c d k) ∨ (256 ≤ k ∧ F.RestsOn d)

/-- R163: an accepted update starts a crossfade. -/
theorem Filter.update_fadesAt {P : Params} {fs fc q gain : Word} {F F1 : Filter} {d : Coeffs}
    (h : F.update P fs fc q gain = .ok F1) (hd : P.design fc q gain fs = some d) :
    F1.FadesAt P F.cur d 0 := by
  obtain ⟨d', hd', hs, rfl⟩ := Filter.update_ok h
  obtain rfl : d' = d := Option.some.inj (hd'.symm.trans hd)
  exact ⟨rfl, hs, rfl, rfl, rfl, fun h0 => absurd h0 (lt_irrefl 0)⟩

/-- R166: a sample inside the crossfade. -/
theorem Filter.FadesAt.sample {P : Params} {c d : Coeffs} {k : Nat} {F : Filter}
    (h : F.FadesAt P c d k) (fs : Word) (x : Int) (hk : k < 255) :
    (F.sample P fs x).designErr = false ∧ (F.sample P fs x).filt.FadesAt P c d (k + 1) := by
  have hidx : F.xfIdx.toNat < 255 := h.index ▸ hk
  have hsucc := toNat_index_succ hidx
  have hentry : F.xfIdx + 1#8 = BitVec.ofNat 8 (k + 1) := by
    apply BitVec.eq_of_toNat_eq
    rw [hsucc, h.index, BitVec.toNat_ofNat, Nat.mod_eq_of_lt (by omega)]
  rw [Filter.sample_eq, Filter.advance_inside P fs h.fading hidx, hentry, h.start, h.target]
  refine ⟨rfl, h.fading, h.single, ?_, rfl, rfl, fun _ => rfl⟩
  show (BitVec.ofNat 8 (k + 1)).toNat = k + 1
  rw [← hentry, hsucc, h.index]

/-- R166: the last sample of the crossfade. -/
theorem Filter.FadesAt.sample_last {P : Params} {c d : Coeffs} {F : Filter}
    (h : F.FadesAt P c d 255) (fs : Word) (x : Int) :
    (F.sample P fs x).designErr = false ∧ (F.sample P fs x).filt.RestsOn d := by
  rw [Filter.sample_eq, Filter.advance_end P fs h.fading h.index (.inl h.single), h.target]
  exact ⟨rfl, rfl, rfl, rfl, rfl⟩

/-- A sample of a filter with nothing in progress. -/
theorem Filter.RestsOn.sample {d : Coeffs} {F : Filter} (h : F.RestsOn d) (P : Params) (fs : Word)
    (x : Int) : (F.sample P fs x).designErr = false ∧ (F.sample P fs x).filt.RestsOn d := by
  rw [Filter.sample_eq, Filter.advance_idle P fs h.idle]
  exact ⟨rfl, h.active, h.target, h.idle, h.index⟩

/-- R176 (a): a sample carries the crossfade on. -/
theorem Filter.CrossfadeAt.sample {P : Params} {c d : Coeffs} {k : Nat} {F : Filter}
    (h : F.CrossfadeAt P c d k) (fs : Word) (x : Int) :
    (F.sample P fs x).designErr = false ∧ (F.sample P fs x).filt.CrossfadeAt P c d (k + 1) := by
  rcases h with ⟨hk, h⟩ | ⟨hk, h⟩
  · rcases Nat.lt_succ_iff_lt_or_eq.1 hk with hlt | rfl
    · exact (h.sample fs x hlt).imp_right fun hnext => .inl ⟨by omega, hnext⟩
    · exact (h.sample_last fs x).imp_right fun hrest => .inr ⟨le_rfl, hrest⟩
  · exact (h.sample P fs x).imp_right fun hrest => .inr ⟨by omega, hrest⟩

/-- R173: the output of a sample is that of the difference equation with the coefficients that the
sample leaves in effect. -/
theorem Filter.sample_output (P : Params) (fs : Word) (F : Filter) (x : Int) :
    (F.sample P fs x).y
      = (({ F with cur := (F.sample P fs x).filt.cur } : Filter).biquad x).1 := by
  obtain ⟨hx1, hx2, hy1, hy2⟩ := F.advance_delays P fs
  exact Filter.biquad_output_congr x rfl hx1 hx2 hy1 hy2

/-- Settles O46: the crossfade of the accepted update, carried through the buffer. -/
theorem crossfadeLandsOnDesign : Obligations.CrossfadeLandsOnDesign := by
  intro P fs fc q gain F F1 G d xs hup hd hG
  have hstart : F1.CrossfadeAt P F.cur d 0 := .inl ⟨by omega, Filter.update_fadesAt hup hd⟩
  obtain ⟨-, hend⟩ :=
    Filter.process_induction (I := Filter.CrossfadeAt P F.cur d) (fun _ _ x h => h.sample fs x)
      xs hstart
  rw [← hG, zero_add] at hend
  refine ⟨fun hpos hlt => ?_, fun hlong => ?_, fun x => G.sample_output P fs x⟩
  · rcases hend with ⟨_, h⟩ | ⟨hge, _⟩
    · refine ⟨h.fading, h.index, fun get hget => ?_⟩
      rw [h.active hpos]
      simp only [List.mem_cons, List.not_mem_nil, or_false] at hget
      rcases hget with rfl | rfl | rfl | rfl | rfl <;> exact toInt_fadeCoeff ..
    · omega
  · rcases hend with ⟨hlt, _⟩ | ⟨_, h⟩
    · omega
    · exact ⟨h.active, h.target, h.idle, h.index⟩

/-! ### A sweep through its segments (R165, R176 (b)) -/

/-- Every cutoff between the one of `F0` and the target has a design at the quality factor and the
gain of `F0`. -/
def Filter.SweepDesigns (P : Params) (fs : Word) (F0 : Filter) (target : Word) : Prop :=
  ∀ fc : Word, min F0.fc.toNat target.toNat ≤ fc.toNat → fc.toNat ≤ max F0.fc.toNat target.toNat →
    P.design fc F0.q F0.gain fs ≠ none

/-- R176 (b): a sweep from `F0` to `target` in `steps` segments, `k` samples after its start. -/
structure Filter.SweepsAt (P : Params) (fs : Word) (F0 : Filter) (target : Word) (steps k : Nat)
    (F : Filter) : Prop where
  regs : F0.SweepRegs target steps (k / 256 + 1) F
  fading : F.xfOn = true
  index : F.xfIdx.toNat = k % 256
  designed : F.Designed P fs

/-- R176 (b): a sweep from `F0` to `target` is over. -/
structure Filter.SweepDone (P : Params) (fs : Word) (F0 : Filter) (target : Word) (F : Filter) :
    Prop where
  ended : F.swOn = false
  idle : F.xfOn = false
  cutoff : F.fc = target
  active : P.design target F0.q F0.gain fs = some F.cur

/-- R176 (b): what holds `k` samples after a sweep of `steps` segments has started. -/
def Filter.SweepAt (P : Params) (fs : Word) (F0 : Filter) (target : Word) (steps k : Nat)
    (F : Filter) : Prop :=
  (k < steps * 256 ∧ F0.SweepsAt P fs target steps k F)
    ∨ (steps * 256 ≤ k ∧ F0.SweepDone P fs target F)

section
variable {P : Params} {fs : Word} {F0 F : Filter} {target : Word} {steps : Nat}

/-- R165: where the cutoffs between have designs, the next segment starts with one. -/
theorem Filter.SweepRegs.nextSegment {j : Nat} (h : F0.SweepRegs target steps j F) (hj : j < steps)
    (hD : F0.SweepDesigns P fs target) :
    ∃ F', F.nextSegment P fs = (F', false) ∧ F0.SweepsAt P fs target steps (j * 256) F' := by
  obtain ⟨hlo, hhi⟩ := sweepCutoff_between F0.fc target (steps := steps) (j := j + 1)
    (by omega) hj
  rw [← h.toNat_nextFc hj] at hlo hhi
  obtain ⟨d, hd⟩ := Option.ne_none_iff_exists'.1 (hD F.nextFc (by omega) (by omega))
  rw [← h.quality, ← h.gain] at hd
  refine ⟨_, Filter.nextSegment_of_design hd, ?_, rfl, ?_, hd⟩
  · rw [Nat.mul_div_cancel j (by omega)]
    exact h.next hj d
  · exact (Nat.mul_mod_left j 256).symm

/-- R164: an accepted sweep starts without a failed design. -/
theorem Filter.startSweep_sweepAt {total : Word} {e : Bool}
    (h : F0.startSweep P fs target total = .ok (F, e)) (hD : F0.SweepDesigns P fs target) :
    e = false ∧ F0.SweepAt P fs target (total.toNat / 256) 0 F := by
  obtain ⟨hn, -, -, -, hseg⟩ := Filter.startSweep_ok h
  obtain ⟨F', hF', hat⟩ := (F0.armSweep_sweepRegs target hn).nextSegment (by omega) hD
  obtain ⟨rfl, rfl⟩ := Prod.mk.inj (hseg.symm.trans hF')
  exact ⟨rfl, .inl ⟨by omega, by simpa using hat⟩⟩

/-- The difference equation does not touch a sweep. -/
theorem Filter.SweepsAt.biquad {k : Nat} (h : F0.SweepsAt P fs target steps k F) (x : Int) :
    F0.SweepsAt P fs target steps k (F.biquad x).2.1 := by
  obtain ⟨⟨hs, hrem, hfc, hgoal, hdelta, hq, hg⟩, hx, hidx, hd⟩ := h
  exact ⟨⟨hs, hrem, hfc, hgoal, hdelta, hq, hg⟩, hx, hidx, hd⟩

/-- R166: a step inside a segment. -/
theorem Filter.SweepsAt.advance_inside {k : Nat} (h : F0.SweepsAt P fs target steps k F)
    (hk : k % 256 < 255) :
    ∃ F', F.advance P fs = (F', false) ∧ F0.SweepsAt P fs target steps (k + 1) F' := by
  have hidx : F.xfIdx.toNat < 255 := h.index ▸ hk
  obtain ⟨hs, hrem, hfc, hgoal, hdelta, hq, hg⟩ := h.regs
  have hsegment : (k + 1) / 256 = k / 256 := by omega
  refine ⟨_, Filter.advance_inside P fs h.fading hidx, ?_, h.fading, ?_, h.designed⟩
  · rw [hsegment]
    exact ⟨hs, hrem, hfc, hgoal, hdelta, hq, hg⟩
  · show (F.xfIdx + 1#8).toNat = _
    rw [toNat_index_succ hidx, h.index]
    omega

/-- R165: the last step of a segment that is not the last one. -/
theorem Filter.SweepsAt.advance_segment {k : Nat} (h : F0.SweepsAt P fs target steps k F)
    (hk : k % 256 = 255) (hj : k / 256 + 1 < steps) (hD : F0.SweepDesigns P fs target) :
    ∃ F', F.advance P fs = (F', false) ∧ F0.SweepsAt P fs target steps (k + 1) F' := by
  obtain ⟨hs, hrem, hfc, hgoal, hdelta, hq, hg⟩ := h.regs
  have hleft : F.swRem ≠ 0#32 := by
    rw [ne_eq, ← BitVec.toNat_inj, hrem]
    show ¬_ = 0
    omega
  have hregs : F0.SweepRegs target steps (k / 256 + 1) { F with cur := F.tgt, xfIdx := 0#8 } :=
    ⟨hs, hrem, hfc, hgoal, hdelta, hq, hg⟩
  rw [Filter.advance_segment P fs h.fading (h.index.trans hk) hs hleft,
    show k + 1 = (k / 256 + 1) * 256 by omega]
  exact hregs.nextSegment hj hD

/-- R166, R176 (b): the last step of the last segment. -/
theorem Filter.SweepsAt.advance_end {k : Nat} (h : F0.SweepsAt P fs target steps k F)
    (hk : k % 256 = 255) (hj : k / 256 + 1 = steps) :
    ∃ F', F.advance P fs = (F', false) ∧ F0.SweepDone P fs target F' := by
  have hleft : F.swRem = 0#32 := by
    apply BitVec.eq_of_toNat_eq
    rw [h.regs.remaining, hj]
    exact Nat.sub_self steps
  have hcutoff : F.fc = target := by
    have hfc := h.regs.cutoff
    rw [sweepCutoff, if_pos hj] at hfc
    exact BitVec.eq_of_toNat_eq (by exact_mod_cast hfc)
  refine ⟨_, Filter.advance_end P fs h.fading (h.index.trans hk) (.inr hleft), rfl, rfl,
    hcutoff, ?_⟩
  rw [← hcutoff, ← h.regs.quality, ← h.regs.gain]
  exact h.designed

/-- R176 (b): a sample carries the sweep on, without a failed design. -/
theorem Filter.SweepAt.sample {k : Nat} (hD : F0.SweepDesigns P fs target)
    (h : F0.SweepAt P fs target steps k F) (x : Int) :
    (F.sample P fs x).designErr = false
      ∧ F0.SweepAt P fs target steps (k + 1) (F.sample P fs x).filt := by
  rw [Filter.sample_eq]
  rcases h with ⟨hk, h⟩ | ⟨hk, h⟩
  · by_cases hlast : k % 256 = 255
    · by_cases hj : k / 256 + 1 = steps
      · obtain ⟨F', hadv, hdone⟩ := h.advance_end hlast hj
        rw [hadv]
        exact ⟨rfl, .inr ⟨by omega, hdone.ended, hdone.idle, hdone.cutoff, hdone.active⟩⟩
      · obtain ⟨F', hadv, hnext⟩ := h.advance_segment hlast (by omega) hD
        rw [hadv]
        exact ⟨rfl, .inl ⟨by omega, hnext.biquad x⟩⟩
    · obtain ⟨F', hadv, hnext⟩ := h.advance_inside (by omega)
      rw [hadv]
      exact ⟨rfl, .inl ⟨by omega, hnext.biquad x⟩⟩
  · rw [Filter.advance_idle P fs h.idle]
    exact ⟨rfl, .inr ⟨by omega, h.ended, h.idle, h.cutoff, h.active⟩⟩

end

/-! ### A segment without a design (R165, log 11) -/

/-- R165: a word that holds the cutoff of the next segment is that cutoff. -/
theorem Filter.nextFc_of_toNat {F : Filter} {fc : Word}
    (h : (fc.toNat : Int)
      = if F.swRem = 1#32 then (F.swTarget.toNat : Int) else F.fc.toNat + F.swDelta.toInt) :
    F.nextFc = fc := by
  unfold Filter.nextFc
  split <;> rename_i hlast
  · rw [if_pos hlast] at h
    exact BitVec.eq_of_toNat_eq (by exact_mod_cast h.symm)
  · rw [if_neg hlast] at h
    rw [← h, BitVec.ofInt_natCast, BitVec.ofNat_toNat, BitVec.setWidth_eq]

/-- R165: the last step of a segment where the next one has no design. -/
theorem Filter.advance_failed_segment {P : Params} {fs : Word} {F : Filter} (hx : F.xfOn = true)
    (hidx : F.xfIdx = 255#8) (hs : F.swOn = true) (hr : F.swRem ≠ 0#32)
    (hd : P.design F.nextFc F.q F.gain fs = none) :
    F.advance P fs
      = ({ F with
            cur := F.tgt, fc := F.nextFc, swOn := false, xfOn := false, xfIdx := 0#8
            swRem := 0#32 }, true) := by
  rw [Filter.advance_segment P fs hx (by rw [hidx]; rfl) hs hr]
  exact Filter.nextSegment_without_design (F := { F with cur := F.tgt, xfIdx := 0#8 }) hd

/-- Settles O47: the started sweep, carried through the buffer; and the failed segment. -/
theorem sweepLandsOnTarget : Obligations.SweepLandsOnTarget := by
  refine ⟨fun P fs target total F F1 G e err ys ovf xs hok hD hrun => ?_,
    fun P fs fc F x hx hidx hs hr hfc hd => ?_⟩
  · obtain ⟨rfl, hstart⟩ := Filter.startSweep_sweepAt hok hD
    have hend :=
      Filter.process_induction (I := Filter.SweepAt P fs F target (total.toNat / 256))
        (fun _ _ x h => h.sample hD x) xs hstart
    rw [hrun, zero_add] at hend
    obtain ⟨herr, hend⟩ := hend
    refine ⟨rfl, herr, fun hlt => ?_, fun hge => ?_⟩
    · rcases hend with ⟨_, h⟩ | ⟨hge, _⟩
      · refine ⟨h.regs.sweeping, h.fading, h.index, ?_, h.regs.cutoff⟩
        rw [h.regs.remaining]
        omega
      · omega
    · rcases hend with ⟨hlt, _⟩ | ⟨_, h⟩
      · omega
      · exact ⟨h.ended, h.idle, h.cutoff, h.active⟩
  · obtain rfl := Filter.nextFc_of_toNat hfc
    have hadv := Filter.advance_failed_segment hx hidx hs hr hd
    rw [Filter.sample_output, Filter.sample_eq, hadv]
    exact ⟨rfl, rfl, rfl, rfl⟩

end Sys2Proof.Machine
end

/-!
PROOFS. The control commands on the oscillators (`43_voice.md` R203, R204, with `40_oscillator.md`
R106, R107, R111, R112, R118, R120), NOP and the resets (R210, R211, R260), the accuracy of the
coupled frequency (R202), and the obligations O15, O16, O18, O19 and O51.
-/

namespace Sys2Proof.Machine

/-! ### Reset, RESET and NOP (R210, R211, R260) -/

/-- Settles O15: RESET is the answer `OK` on the core without a Voice. -/
theorem resetEffects : Obligations.ResetEffects :=
  ⟨rfl, rfl, fun s => ⟨rfl, complete_eq [] s.unconfigure⟩⟩

/-- Settles O16: NOP is the answer `OK` alone. -/
theorem nopEffect : Obligations.NopEffect := ⟨rfl, complete_eq []⟩

/-! ### Control commands without events -/

/-- A control command without events whose operation succeeds. -/
theorem control_quiet_ok {s : State} {v w : Voice} {op : Voice → Except Status Voice}
    (hv : s.voice = some v) (h : op v = .ok w) :
    control s (fun u => quiet (op u))
      = .next { s with resp := s.resp ++ [0#32], voice := some w } := by
  have hquiet : quiet (op v) = .ok (w, Sticky.clear) := by rw [h]; rfl
  rw [control_ok (op := fun u => quiet (op u)) hv hquiet, Sticky.or_clear]

/-- A control command without events whose operation fails. -/
theorem control_quiet_error {s : State} {v : Voice} {st : Status}
    {op : Voice → Except Status Voice} (hv : s.voice = some v) (h : op v = .error st) :
    control s (fun u => quiet (op u)) = .next { s with resp := s.resp ++ [st.word] } := by
  have hquiet : quiet (op v) = .error st := by rw [h]; rfl
  exact control_error (op := fun u => quiet (op u)) hv hquiet

/-- An operation that succeeds on every oscillator there is succeeds on `O2`. -/
theorem onSecond_succeeds {op : Osc → Except Status Osc} {o : Option Osc}
    (h : ∀ a, o = some a → ∃ b, op a = .ok b) : ∃ o', onSecond op o = .ok o' := by
  cases o with
  | none => exact ⟨none, rfl⟩
  | some a =>
    obtain ⟨b, hb⟩ := h a rfl
    exact ⟨some b, by rw [onSecond, hb]⟩

/-- An operation that succeeds on `O2` leaves an `O2` exactly where there was one, as it itself
leaves it. -/
theorem onSecond_ok_cases {op : Osc → Except Status Osc} {o o' : Option Osc}
    (h : onSecond op o = .ok o') :
    (o = none → o' = none) ∧ ∀ a, o = some a → ∃ b, o' = some b ∧ op a = .ok b := by
  obtain ⟨rfl, rfl⟩ | ⟨a, b, rfl, rfl, hab⟩ := onSecond_ok h
  · exact ⟨fun _ => rfl, fun a ha => by cases ha⟩
  · refine ⟨fun hnone => (by cases hnone), fun a' ha' => ?_⟩
    cases ha'
    exact ⟨b, rfl, hab⟩

/-! ### The transition table of a sine (R120) -/

/-- R120: an entry of the transition table is the phase before the table plus the increments up to
the entry. -/
theorem getElem_transitionEntries (fCur f fs : Word) {n m : Nat} (j : Nat) (acc : Word)
    (h : m < (transitionEntries fCur f fs n j acc).length) :
    (transitionEntries fCur f fs n j acc)[m]
      = acc + ureg 32 (∑ k ∈ Finset.range (m + 1), transitionInc fCur f fs (j + k)) := by
  induction n generalizing j acc m with
  | zero => simp [transitionEntries] at h
  | succ n ih =>
    cases m with
    | zero => simp [transitionEntries]
    | succ m =>
      have htail : ∑ k ∈ Finset.range (m + 1), transitionInc fCur f fs (j + 1 + k)
          = ∑ k ∈ Finset.range (m + 1), transitionInc fCur f fs (j + (k + 1)) :=
        Finset.sum_congr rfl fun k _ => by rw [Nat.add_right_comm, Nat.add_assoc]
      simp only [transitionEntries, List.getElem_cons_succ, ih, htail]
      rw [Finset.sum_range_succ' _ (m + 1), Nat.add_comm (∑ k ∈ _, _), ureg, ureg, ureg,
        BitVec.ofNat_add, BitVec.add_assoc, Nat.add_zero j]

/-- R120: between its ends the frequency of a transition is not negative. -/
theorem transitionFreq_nonneg (fCur f : Word) {j : Nat} (hj : j < 256) :
    0 ≤ transitionFreq fCur f j := by
  have hfall : -(fCur.toNat : Int) * 2 ^ 8 ≤ ((f.toNat : Int) - fCur.toNat) * (j + 1) := by
    nlinarith [mul_nonneg (Int.natCast_nonneg f.toNat) (show (0 : Int) ≤ j + 1 by omega),
      mul_nonneg (Int.natCast_nonneg fCur.toNat) (show (0 : Int) ≤ 255 - j by omega)]
  have hfloor : -(fCur.toNat : Int) ≤ asr (((f.toNat : Int) - fCur.toNat) * (j + 1)) 8 :=
    (Int.le_ediv_iff_mul_le (by norm_num)).2 hfall
  unfold transitionFreq
  omega

/-- R120: the increment of an entry, as an integer. -/
theorem transitionInc_cast (fCur f fs : Word) {j : Nat} (hj : j < 256) :
    (transitionInc fCur f fs j : Int)
      = (fCur.toNat + ((f.toNat : Int) - fCur.toNat) * (j + 1) / 2 ^ 8) * 2 ^ 16 / fs.toNat := by
  have hpos : 0 ≤ 2 ^ 16 * transitionFreq fCur f j / (fs.toNat : Int) :=
    Int.ediv_nonneg (mul_nonneg (by norm_num) (transitionFreq_nonneg fCur f hj))
      (Int.natCast_nonneg _)
  rw [transitionInc, Int.toNat_of_nonneg hpos, mul_comm (2 ^ 16 : Int)]
  rfl

/-- R120: the transition table holds the summed increments in 32 bits. -/
theorem toNat_transitionTable (fCur f fs : Word) {j : Nat} (hj : j < 256) :
    (((transitionTable fCur f fs)[j]'hj).toNat : Int)
      = (∑ k ∈ Finset.range (j + 1),
          (fCur.toNat + ((f.toNat : Int) - fCur.toNat) * (k + 1) / 2 ^ 8) * 2 ^ 16 / fs.toNat)
        % 2 ^ 32 := by
  have hentry : (transitionTable fCur f fs)[j]'hj
      = ureg 32 (∑ k ∈ Finset.range (j + 1), transitionInc fCur f fs k) := by
    simp only [transitionTable, Vector.getElem_mk, List.getElem_toArray,
      getElem_transitionEntries, BitVec.zero_add, Nat.zero_add]
  have hsum : ((∑ k ∈ Finset.range (j + 1), transitionInc fCur f fs k : Nat) : Int)
      = ∑ k ∈ Finset.range (j + 1),
          (fCur.toNat + ((f.toNat : Int) - fCur.toNat) * (k + 1) / 2 ^ 8) * 2 ^ 16 / fs.toNat := by
    rw [Nat.cast_sum]
    refine Finset.sum_congr rfl fun k hk => transitionInc_cast fCur f fs ?_
    have := Finset.mem_range.1 hk
    omega
  rw [hentry, ← hsum, ureg, BitVec.toNat_ofNat]
  rfl

/-! ### SET_FREQ (R203) -/

/-- R106: the step of a saw fits its register. -/
theorem toNat_sawSetFreq_step {fs f : Word} (r : SawRegs) (hf : FreqOk f.toNat fs.toNat) :
    (sawSetFreq fs f r).step.toNat = 2 * r.max.toNat * f.toNat / (fs.toNat * 2 ^ 16) := by
  have hle := sawStep_le (m := r.max.toNat) hf
  have hmax := r.max.isLt
  rw [sawSetFreq, toNat_ureg (by omega), sawStep_eq]

/-- R106, R111, R120: what an accepted `set_frequency` leaves. -/
theorem Osc.setFrequency_frequencySet {fs f : Word} {o o' : Osc}
    (h : o.setFrequency fs f = .ok o') : FrequencySet fs.toNat f.toNat o o' := by
  obtain ⟨hf, hbusy, -, -⟩ := Osc.setFrequency_ok h
  rw [Osc.setFrequency, if_neg (not_not.2 hf), if_neg (by simp [hbusy])] at h
  cases h
  refine ⟨rfl, rfl, ?_⟩
  obtain ⟨g, i, wave⟩ := o
  cases wave with
  | saw r => exact ⟨rfl, rfl, toNat_sawSetFreq_step r hf⟩
  | square r => exact ⟨rfl, rfl, rfl, one_le_sqHalfWord hf, toNat_sqHalfWord⟩
  | sine r => exact ⟨rfl, fun j hj => toNat_transitionTable r.fCur f fs hj⟩

/-- R200, R202: where there is an `O2` the coupling has a ratio. -/
theorem SecondInv.exists_ratio {cfg : Cfg} {i : BitVec 24} {f1 : Word} {o : Osc}
    (h : SecondInv cfg i f1 (some o)) : ∃ r, (cfg.coupling.code, r) ∈ ratioTable := by
  obtain ⟨f2, hf2, -⟩ := h
  obtain ⟨r, hr, -⟩ := coupled_eq_some.1 hf2
  exact ⟨r, hr⟩

section
variable {c : Coupling} {r : Nat}

/-- R203: the word `O2` is set to, by the ratio of the coupling. -/
theorem secondFreq_of_ratio (hr : (c.code, r) ∈ ratioTable) (f : Word) :
    secondFreq c f = coupledWord c f (f.toNat * r / 2 ^ 30) := by
  rw [secondFreq, coupled_eq_some.2 ⟨r, hr, rfl⟩]

/-- R202, R203: where the coupled frequency is in range, so is the word `O2` is set to. -/
theorem freqOk_secondFreq (hr : (c.code, r) ∈ ratioTable) {f fs : Word}
    (hco : coupledOk c f fs = true) : FreqOk (secondFreq c f).toNat fs.toNat := by
  rw [coupledOk, coupled_eq_some.2 ⟨r, hr, rfl⟩] at hco
  rw [secondFreq_of_ratio hr]
  exact freqOk_coupledWord (of_decide_eq_true hco)

end

/-- R30: `OSC2_BUSY` is the busy state of `O2`. -/
theorem Voice.osc2Busy_of_second {v : Voice} {o : Osc} (h : v.o2 = some o) :
    v.osc2Busy = o.busy := by
  simp [Voice.osc2Busy, h]

section
variable {f : Word} {v : Voice}

/-- R203: with a frequency out of range `set_frequency` fails with `EINVAL`. -/
theorem Voice.setFrequency_out_of_range
    (h : ¬FreqOk f.toNat v.cfg.fs.toNat ∨ coupledOk v.cfg.coupling f v.cfg.fs = false) :
    v.setFrequency f = .error .einval := by
  by_cases hf : FreqOk f.toNat v.cfg.fs.toNat
  · have hco := h.resolve_left (not_not.2 hf)
    rw [Voice.setFrequency, if_neg (not_not.2 hf), if_pos (by simp [hco])]
  · rw [Voice.setFrequency, if_pos hf]

/-- R203: with the frequencies in range `set_frequency` fails with `EAGAIN` on a busy oscillator. -/
theorem Voice.setFrequency_while_busy (hf : FreqOk f.toNat v.cfg.fs.toNat)
    (hco : coupledOk v.cfg.coupling f v.cfg.fs = true)
    (hbusy : v.o1.busy = true ∨ v.osc2Busy = true) : v.setFrequency f = .error .eagain := by
  rw [Voice.setFrequency, if_neg (not_not.2 hf), if_neg (not_not.2 hco), if_pos hbusy]

/-- R203: with the frequencies in range and the oscillators free `set_frequency` succeeds on a sound
Voice. -/
theorem Voice.setFrequency_succeeds {P : Params} (hi : VoiceInv P v)
    (hf : FreqOk f.toNat v.cfg.fs.toNat) (hco : coupledOk v.cfg.coupling f v.cfg.fs = true)
    (h1 : v.o1.busy = false) (h2 : v.osc2Busy = false) : ∃ w, v.setFrequency f = .ok w := by
  obtain ⟨o1, ho1⟩ := Osc.setFrequency_succeeds hf h1
  obtain ⟨o2, ho2⟩ : ∃ o2,
      onSecond (Osc.setFrequency v.cfg.fs (secondFreq v.cfg.coupling f)) v.o2 = .ok o2 := by
    refine onSecond_succeeds fun a ha => ?_
    obtain ⟨r, hr⟩ := SecondInv.exists_ratio (ha ▸ hi.second)
    exact Osc.setFrequency_succeeds (freqOk_secondFreq hr hco)
      ((Voice.osc2Busy_of_second ha).symm.trans h2)
  refine ⟨{ v with o1 := o1, o2 := o2 }, ?_⟩
  rw [Voice.setFrequency, if_neg (not_not.2 hf), if_neg (not_not.2 hco), if_neg (by simp [h1, h2])]
  simp only [ho1, ho2]

end

/-- Settles O18, by the three cases of the Voice's `set_frequency`. -/
theorem setFreqEffect : Obligations.SetFreqEffect := by
  intro s v f hv hi
  have hrange (h0 : f ≠ 0#32) (h : f.toNat < v.cfg.fs.toNat * 2 ^ 15) :
      FreqOk f.toNat v.cfg.fs.toNat :=
    ⟨Nat.pos_of_ne_zero fun hz => h0 (BitVec.eq_of_toNat_eq hz), by omega⟩
  refine ⟨rfl, fun hbad => ?_, fun h0 hlt hco hbusy => ?_, fun h0 hlt hco h1 h2 => ?_⟩
  · refine control_quiet_error hv (Voice.setFrequency_out_of_range ?_)
    obtain rfl | hge | hco := hbad
    · exact .inl (by simp)
    · exact .inl (by omega)
    · exact .inr (by simpa using mt coupledOk_iff.1 (not_not.2 hco))
  · exact control_quiet_error hv
      (Voice.setFrequency_while_busy (hrange h0 hlt) (coupledOk_iff.2 hco) hbusy)
  · obtain ⟨w, hw⟩ :=
      Voice.setFrequency_succeeds hi (hrange h0 hlt) (coupledOk_iff.2 hco) h1 h2
    obtain ⟨-, -, -, -, o1, o2, ho1, ho2, rfl⟩ := Voice.setFrequency_ok hw
    obtain ⟨hnone, hsome⟩ := onSecond_ok_cases ho2
    refine ⟨o1, o2, control_quiet_ok hv hw, Osc.setFrequency_frequencySet ho1, hnone,
      fun a ha => ?_⟩
    obtain ⟨b, hb, hab⟩ := hsome a ha
    obtain ⟨r, hr⟩ := SecondInv.exists_ratio (ha ▸ hi.second)
    obtain ⟨-, -, hbf, -⟩ := Osc.setFrequency_ok hab
    refine ⟨b, r, hb, hr, fun hfits => ?_, ?_⟩
    · rw [hbf, secondFreq_of_ratio hr, toNat_coupledWord hfits]
    · rw [hbf]
      exact Osc.setFrequency_frequencySet hab

/-! ### SET_INT (R204) -/

/-- R107, R112, R118: what an accepted `set_intensity` leaves. -/
theorem Osc.setIntensity_intensitySet {kind : Waveform} {fs i : Word} {j : BitVec 24} {o o' : Osc}
    (ho : OscInv kind fs j o) (h : o.setIntensity fs i = .ok o') :
    IntensitySet fs.toNat i.toNat o o' := by
  obtain ⟨hi, -, -⟩ := Osc.setIntensity_ok h
  have hint := toNat_unit hi
  have hi' : UnitOk (ureg 24 i.toNat).toNat := by rwa [hint]
  have hf := ho.f_ok
  rw [Osc.setIntensity, if_neg (not_not.2 hi)] at h
  cases h
  refine ⟨rfl, hint, ?_⟩
  obtain ⟨f, i', wave⟩ := o
  cases wave with
  | saw r =>
    have hinv := sawSetInt_inv (r := r) hf hi'
    refine ⟨?_, ?_, ?_⟩
    · rw [hinv.max_eq, hint, ampOf_eq]
    · rw [hinv.step_eq, sawStep_eq]
    · rw [hinv.max_eq, sawSetInt_amp hi']
  | square r =>
    refine ⟨?_, rfl, rfl, rfl⟩
    rw [squareSetInt, toNat_ampOf hi', hint, ampOf_eq]
  | sine r => rfl

section
variable {i : Word} {v : Voice}

/-- R204: with an intensity above `ONE` `set_intensity` fails with `EINVAL`. -/
theorem Voice.setIntensity_out_of_range (h : ¬UnitOk i.toNat) :
    v.setIntensity i = .error .einval := by
  rw [Voice.setIntensity, if_pos h]

/-- R204: with a legal intensity `set_intensity` succeeds. -/
theorem Voice.setIntensity_succeeds (h : UnitOk i.toNat) : ∃ w, v.setIntensity i = .ok w := by
  obtain ⟨o1, ho1⟩ := v.o1.setIntensity_succeeds (fs := v.cfg.fs) h
  obtain ⟨o2, ho2⟩ := onSecond_succeeds (op := Osc.setIntensity v.cfg.fs i) (o := v.o2)
    fun a _ => a.setIntensity_succeeds h
  refine ⟨{ v with int := ureg 24 i.toNat, o1 := o1, o2 := o2 }, ?_⟩
  rw [Voice.setIntensity, if_neg (not_not.2 h)]
  simp only [ho1, ho2]

end

/-- R200: `O2` of a sound Voice is sound. -/
theorem SecondInv.oscInv {cfg : Cfg} {i : BitVec 24} {f1 : Word} {o : Osc}
    (h : SecondInv cfg i f1 (some o)) : OscInv cfg.kind cfg.fs i o := by
  obtain ⟨_, _, _, _, ho⟩ := h
  exact ho

/-- Settles O19, by the two cases of the Voice's `set_intensity`. -/
theorem setIntEffect : Obligations.SetIntEffect := by
  intro s v i hv hi
  refine ⟨rfl, fun hgt => ?_, fun hle => ?_⟩
  · exact control_quiet_error hv (Voice.setIntensity_out_of_range (Nat.not_le.2 hgt))
  · have hunit : UnitOk i.toNat := hle
    obtain ⟨w, hw⟩ := Voice.setIntensity_succeeds (v := v) hunit
    obtain ⟨-, o1, o2, ho1, ho2, rfl⟩ := Voice.setIntensity_ok hw
    obtain ⟨hnone, hsome⟩ := onSecond_ok_cases ho2
    refine ⟨_, o1, o2, control_quiet_ok hv hw, toNat_unit hunit,
      Osc.setIntensity_intensitySet hi.first ho1, hnone, fun a ha => ?_⟩
    obtain ⟨b, hb, hab⟩ := hsome a ha
    exact ⟨b, hb, Osc.setIntensity_intensitySet (SecondInv.oscInv (ha ▸ hi.second)) hab⟩

/-! ### The coupled frequency (R202) -/

/-- R202: an integer ratio that is nearest to `x * 2^30`, `x` at least 1, gives the product with `x`
up to the floor's unit and a relative error of `2^-31`. -/
theorem abs_floor_product_sub_le {x : ℝ} (hx : 1 ≤ x) {r : ℕ}
    (hr : |(r : ℝ) - x * 2 ^ 30| ≤ 1 / 2) (f : ℕ) :
    |((f * r / 2 ^ 30 : ℕ) : ℝ) - f * x| ≤ 1 + f * x / 2 ^ 31 := by
  have hf : (0 : ℝ) ≤ f := f.cast_nonneg
  have hratio : |(f : ℝ) * r - f * x * 2 ^ 30| ≤ f * x / 2 := by
    calc |(f : ℝ) * r - f * x * 2 ^ 30|
        = (f : ℝ) * |(r : ℝ) - x * 2 ^ 30| := by
          rw [mul_assoc, ← mul_sub, abs_mul, abs_of_nonneg hf]
      _ ≤ (f : ℝ) * (1 / 2) := mul_le_mul_of_nonneg_left hr hf
      _ ≤ f * x / 2 := by linarith [mul_le_mul_of_nonneg_left hx hf]
  have hfloor : ((f * r / 2 ^ 30 : ℕ) : ℝ) * 2 ^ 30 ≤ f * r := by
    exact_mod_cast Nat.div_mul_le_self (f * r) (2 ^ 30)
  have hnext : (f : ℝ) * r < ((f * r / 2 ^ 30 : ℕ) + 1) * 2 ^ 30 := by
    exact_mod_cast Nat.lt_mul_of_div_lt (Nat.lt_succ_self _) (by norm_num)
  obtain ⟨hlo, hhi⟩ := abs_le.1 hratio
  rw [abs_le]
  constructor <;> linarith

/-- Settles O51, by the nearest ratio of each mode (O50). -/
theorem coupleAccuracy : Obligations.CoupleAccuracy := by
  intro c k f hc
  obtain ⟨r, hr⟩ : ∃ r, (c, k, r) ∈ [(Coupling.minorThird, 3, 1276901417),
      (Coupling.majorThird, 4, 1352829926), (Coupling.fifth, 7, 1608794974),
      (Coupling.octave, 12, 2147483648)] := by
    simp only [List.mem_cons, Prod.mk.injEq, List.not_mem_nil, or_false] at hc
    obtain ⟨rfl, rfl⟩ | ⟨rfl, rfl⟩ | ⟨rfl, rfl⟩ | ⟨rfl, rfl⟩ := hc <;> simp
  obtain ⟨hratio, hnearest⟩ := ratioNearest c k r hr
  have hone : (1 : ℝ) ≤ 2 ^ ((k : ℝ) / 12) := Real.one_le_rpow one_le_two (by positivity)
  exact ⟨_, by rw [coupled, hratio]; rfl, abs_floor_product_sub_le hone hnearest f.toNat⟩

end Sys2Proof.Machine

/-!
PROOFS. PROCESS as voice samples in order (`43_voice.md` R207, R212), the frame in five passes over
whole buffers (R213), and the obligations O24 and O26.
-/

namespace Sys2Proof.Machine

/-! ### A frame as single samples (R207) -/

/-- R207: the response word of a sample is its two's-complement bits. -/
theorem sampleWord_eq (y : Int) : sampleWord y = BitVec.ofInt 32 y := by
  obtain ⟨-, hlt, -⟩ := wrapU_spec 32 y
  refine BitVec.eq_of_toNat_eq ?_
  rw [sampleWord, toNat_ureg (by exact_mod_cast hlt), BitVec.toNat_ofInt]
  rfl

/-- R212: the Voice after `k` voice samples. -/
def Voice.afterSamples (P : Params) (k : Nat) (v : Voice) : Voice :=
  (fun u : Voice => (u.sample P).2.1)^[k] v

/-- The last of `k + 1` samples apart. -/
theorem Voice.afterSamples_succ (P : Params) (k : Nat) (v : Voice) :
    v.afterSamples P (k + 1) = ((v.afterSamples P k).sample P).2.1 :=
  Function.iterate_succ_apply' _ k v

/-- R207, R212: what voice sample `k` of a frame, counted from 0, gives. -/
def Voice.sampleAt (P : Params) (v : Voice) (k : Nat) : Int × Voice × Sticky :=
  (v.afterSamples P k).sample P

/-- R30, R207: the events of `n` voice samples. -/
def Voice.frameEvents (P : Params) (n : Nat) (v : Voice) : Sticky :=
  { filtOvf := (List.range n).any fun k => (v.sampleAt P k).2.2.filtOvf
    designErr := (List.range n).any fun k => (v.sampleAt P k).2.2.designErr
    idxWrap := (List.range n).any fun k => (v.sampleAt P k).2.2.idxWrap }

/-- The events of `n + 1` samples are those of the first and of the others. -/
theorem Voice.frameEvents_succ (P : Params) (n : Nat) (v : Voice) :
    v.frameEvents P (n + 1) = (v.sample P).2.2.or ((v.sample P).2.1.frameEvents P n) := by
  simp only [Voice.frameEvents, List.range_succ_eq_map, List.any_cons, List.any_map]
  rfl

/-- R207: a frame is its voice samples in order, the Voice after them and their events. -/
theorem Voice.process_eq (P : Params) (n : Nat) (v : Voice) :
    v.process P n =
      { out := (List.range n).map fun k => BitVec.ofInt 32 (v.sampleAt P k).1
        voice := v.afterSamples P n
        events := v.frameEvents P n } := by
  induction n generalizing v with
  | zero => rfl
  | succ n ih =>
    rw [Voice.process_succ, ih, Voice.frameEvents_succ, sampleWord_eq, List.range_succ_eq_map,
      List.map_cons, List.map_map]
    rfl

/-- Settles O24: the samples are those of the Voices one after the other. -/
theorem processIsVoiceSamples : Obligations.ProcessIsVoiceSamples := by
  refine ⟨rfl, fun P s v hv => ?_⟩
  have hrun := processWith_some (P := P) hv
  rw [Voice.process_eq] at hrun
  refine ⟨fun k => (v.sampleAt P k).1, fun k => v.afterSamples P k,
    fun k => (v.sampleAt P k).2.2, _, rfl, fun k _ => ?_, hrun,
    fun h => (exec_eq_execWith_chip _ s).trans (h ▸ hrun), rfl⟩
  exact Prod.ext rfl (Prod.ext (v.afterSamples_succ P k).symm rfl)

/-! ### The frame in five passes (R213) -/

/-- R147: a gain curve of one sample more. -/
theorem Envelope.process_succ (n : Nat) (e : Envelope) :
    Envelope.process (n + 1) e
      = (e.gain :: (Envelope.process n e.advance).1, (Envelope.process n e.advance).2) := rfl

/-- R129: an oscillator's buffer of one sample more. -/
theorem Osc.process_succ (P : Params) (fs : Word) (n : Nat) (o : Osc) :
    Osc.process P fs (n + 1) o
      = ((o.sample P fs).1 :: (Osc.process P fs n (o.sample P fs).2.1).1,
          (Osc.process P fs n (o.sample P fs).2.1).2.1,
          (o.sample P fs).2.2 || (Osc.process P fs n (o.sample P fs).2.1).2.2) := rfl

/-- R127: the sample index of `O2` wraps in this sample. -/
def Voice.secondWraps (P : Params) (v : Voice) : Bool :=
  (v.o2.map fun o => (o.sample P v.cfg.fs).2.2).getD false

/-- R127, R212: a sample index wraps where that of one oscillator does. -/
theorem Voice.oscillators_wrapped (P : Params) (v : Voice) :
    (v.oscillators P).wrapped = ((v.o1.sample P v.cfg.fs).2.2 || v.secondWraps P) := by
  unfold Voice.oscillators Voice.secondWraps
  cases v.o2 with
  | none => exact (Bool.or_false _).symm
  | some o => rfl

/-- R213: the mixed buffer of no samples leaves `O2` as it is. -/
theorem mixSecond_nil (P : Params) (fs : Word) (o : Option Osc) :
    mixSecond P fs 0 [] o = ([], o, false) := by
  cases o <;> rfl

/-- R213: the mixed buffer of one sample more begins with the mixed sample of R212. -/
theorem Voice.mixSecond_succ (P : Params) (n : Nat) (v : Voice) (buf : List Int) :
    mixSecond P v.cfg.fs (n + 1) ((v.o1.sample P v.cfg.fs).1 :: buf) v.o2
      = ((v.oscillators P).o :: (mixSecond P v.cfg.fs n buf (v.oscillators P).o2).1,
          (mixSecond P v.cfg.fs n buf (v.oscillators P).o2).2.1,
          v.secondWraps P || (mixSecond P v.cfg.fs n buf (v.oscillators P).o2).2.2) := by
  unfold Voice.oscillators Voice.secondWraps
  cases v.o2 with
  | none => rfl
  | some o => rfl

/-- R213: in five passes a frame of `n + 1` samples is one voice sample and a frame of `n`. -/
theorem Voice.processFrame_succ (P : Params) (n : Nat) (v : Voice) :
    v.processFrame P (n + 1) =
      { out := sampleWord (v.sample P).1 :: ((v.sample P).2.1.processFrame P n).out
        voice := ((v.sample P).2.1.processFrame P n).voice
        events := (v.sample P).2.2.or ((v.sample P).2.1.processFrame P n).events } := by
  obtain ⟨ho1, -⟩ := v.oscillators_regs P
  simp only [Voice.processFrame, Envelope.process_succ, Osc.process_succ, Voice.mixSecond_succ,
    List.zipWith_cons_cons, Filter.process_cons, List.map_cons, Voice.sample_eq,
    Voice.filterOut, Voice.oscillators_wrapped, ho1, Sticky.or, Bool.or_assoc, Bool.or_left_comm]

/-- R213: the five passes give the frame of single samples. -/
theorem Voice.processFrame_eq_process (P : Params) (n : Nat) (v : Voice) :
    v.processFrame P n = v.process P n := by
  induction n generalizing v with
  | zero =>
    rw [Voice.processFrame]
    simp only [Osc.process, mixSecond_nil]
    rfl
  | succ n ih => rw [Voice.processFrame_succ, Voice.process_succ, ih]

/-- Settles O26, by the equality of the two frames. -/
theorem frameWiseEqualsSampleWise : Obligations.FrameWiseEqualsSampleWise := by
  refine ⟨Voice.processFrame_eq_process, fun P s v r hv hr => ⟨?_, fun h => ?_⟩⟩
  · rw [hr, Voice.processFrame_eq_process]
    exact processWith_some hv
  · exact h ▸ exec_eq_execWith_chip .process s

end Sys2Proof.Machine

/-!
PROOFS. Failures before a command's own rule (`60_exceptions.md` R252, R253): the headers that are
no command (`30_encoding.md` R66), a command on a core that is not ready, and the obligations O5
and O11.
-/

namespace Sys2Proof

/-! ### Illegal headers (R66, R253) -/

/-- R66 (a): the opcodes without a row in the map have no operand count. -/
theorem operandCount_eq_none {op : BitVec 8} (h : ∀ k, (op.toNat, k) ∉ Machine.operandCounts) :
    operandCount op = none := by
  cases hk : operandCount op with
  | none => rfl
  | some k => exact absurd ((operandCount_eq_some_iff op k).1 hk) (h k)

section
variable {h : Word}

/-- R66 (b): GET with a non-zero `arg` or a reserved selector is no command. -/
theorem commandOf_get_bad (hop : (opField h).toNat = 0x40)
    (hbad : (argField h).toNat ≠ 0 ∨ 11 < (selField h).toNat) (ops : List Word) :
    commandOf h ops = none := by
  have hget : opField h = 0x40#8 := BitVec.eq_of_toNat_eq hop
  rw [commandOf, if_pos hget]
  obtain harg | hsel := hbad
  · exact if_neg fun hzero => harg (by rw [hzero]; rfl)
  · rw [getCommand_reserved hsel, ite_self]

/-- R66 (b): TOGGLE with a non-zero `sel` or a bit of `arg` above its flag is no command. -/
theorem commandOf_toggle_bad (hop : (opField h).toNat = 0x12)
    (hbad : 2 ≤ (argField h).toNat ∨ (selField h).toNat ≠ 0) (ops : List Word) :
    commandOf h ops = none := by
  have htoggle : opField h = 0x12#8 := BitVec.eq_of_toNat_eq hop
  rw [commandOf, if_neg (by rw [htoggle]; decide), if_pos htoggle]
  refine if_neg fun ⟨hsel, harg⟩ => ?_
  obtain hlarge | hne := hbad
  · rw [toggleArg_eq harg] at hlarge
    split at hlarge <;> exact absurd hlarge (by decide)
  · exact hne (by rw [hsel]; rfl)

/-- R66 (b): any other opcode with a non-zero `sel` or `arg` is no command. -/
theorem commandOf_formatZ_bad (hget : (opField h).toNat ≠ 0x40) (htoggle : (opField h).toNat ≠ 0x12)
    (hbad : (argField h).toNat ≠ 0 ∨ (selField h).toNat ≠ 0) (ops : List Word) :
    commandOf h ops = none := by
  rw [commandOf, if_neg fun hop => hget (by rw [hop]; rfl),
    if_neg fun hop => htoggle (by rw [hop]; rfl)]
  refine if_neg fun ⟨hsel, harg⟩ => ?_
  obtain hne | hne := hbad
  · exact hne (by rw [harg]; rfl)
  · exact hne (by rw [hsel]; rfl)

/-- R61 step 4, R66 (b): a header that makes up no command is consumed with its operand words. -/
theorem decode_reserved {tail : List Word} {k : Nat} (hcount : operandCount (opField h) = some k)
    (hlen : k ≤ tail.length) (hnone : ∀ ops, commandOf h ops = none) :
    decode (h :: tail) = .reservedField (tail.drop k) := by
  simp [decode, hcount, Nat.not_lt.2 hlen, hnone]

end

end Sys2Proof

namespace Sys2Proof.Machine

/-- R66, R253: an illegal header answers `EBADOP`, whichever way it is illegal. -/
theorem stepBy_illegal (run : Instr → State → Host.Outcome State Fault Refusal) {s : State}
    {rest : List Word}
    (h : decode s.cmd = .unknownOpcode rest ∨ decode s.cmd = .reservedField rest) :
    stepBy run s = .next { s with cmd := rest, resp := s.resp ++ [5#32] } := by
  obtain h | h := h <;> rw [stepBy, h] <;> rfl

/-- Settles O5: the decoder finds no command at either header. -/
theorem illegalHeaders : Obligations.IllegalHeaders := by
  intro s h tail hcmd
  simp only [← toNat_opField, ← toNat_selField, ← toNat_argField]
  refine ⟨fun hunknown => ?_, fun k hk hlen hbad => ?_⟩
  · have hcount := operandCount_eq_none hunknown
    exact stepBy_illegal exec (.inl (by rw [hcmd, decode_unknown _ hcount]))
  · have hnone : ∀ ops, commandOf h ops = none := by
      obtain ⟨hget, hfields⟩ | ⟨htoggle, hfields⟩ | ⟨hget, htoggle, hfields⟩ := hbad
      · exact commandOf_get_bad hget hfields
      · exact commandOf_toggle_bad htoggle hfields
      · exact commandOf_formatZ_bad hget htoggle hfields
    have hcount := (operandCount_eq_some_iff _ _).2 hk
    exact stepBy_illegal exec (.inr (by rw [hcmd, decode_reserved hcount hlen hnone]))

/-! ### A core that is not ready (R252) -/

/-- R252: without a Voice a command that needs CONFIG fails with `ENOTREADY`, at any parameters. -/
theorem execWith_not_ready (P : Params) {i : Instr} {s : State} (hi : needsConfig i = true)
    (hv : s.voice = none) : execWith P i s = fail .enotready s := by
  cases i with
  | nop | reset | config | getStatus => cases hi
  | setFreq | setInt | toggle | filtUpdate | filtSweep | process | getFreq1 | getFreq2 | getInt
  | getFc | getQ | getGain | getStage | getFactor | getFs | getN | getMode =>
    exact withVoice_none hv _

/-- Settles O11: the step runs the command, which is not ready. -/
theorem notReady : Obligations.NotReady := by
  intro s i rest hi hv hcmd
  rw [step, stepBy_encode exec hcmd, exec_eq_execWith_chip]
  exact execWith_not_ready chip (s := { s with cmd := rest }) hi hv

end Sys2Proof.Machine

/-!
PROOFS. How a command can fail (`60_exceptions.md` R240 to R244): the order of its checks, the
statuses it can answer beside `OK`, a failure as one status word and nothing else, and a failed
command as one that may be dropped from the stream; the obligation O9.
-/

namespace Sys2Proof.Machine

/-! ### The order of the checks (R244) -/

/-- R244: an operation that tests its arguments (`bad`) before what is busy (`busy`), fails with
`EINVAL` on the one and with `EAGAIN` on the other, and succeeds else. -/
structure ChecksInOrder {α : Type} (bad busy : Prop) (r : Except Status α) : Prop where
  einval : bad → r = .error .einval
  eagain : ¬bad → busy → r = .error .eagain
  succeeds : ¬bad → ¬busy → ∃ a, r = .ok a

namespace ChecksInOrder

variable {α : Type} {bad busy : Prop} {r : Except Status α}

/-- R244: the operation fails by its first failing check. -/
theorem error_cases (h : ChecksInOrder bad busy r) {st : Status} (hr : r = .error st) :
    bad ∧ st = .einval ∨ (¬bad ∧ busy) ∧ st = .eagain := by
  by_cases hbad : bad
  · exact .inl ⟨hbad, Except.error.inj (hr.symm.trans (h.einval hbad))⟩
  · by_cases hbusy : busy
    · exact .inr ⟨⟨hbad, hbusy⟩, Except.error.inj (hr.symm.trans (h.eagain hbad hbusy))⟩
    · obtain ⟨a, ha⟩ := h.succeeds hbad hbusy
      rw [ha] at hr
      cases hr

theorem error_einval_iff (h : ChecksInOrder bad busy r) : r = .error .einval ↔ bad := by
  refine ⟨fun hr => ?_, h.einval⟩
  obtain ⟨hbad, -⟩ | ⟨-, hst⟩ := h.error_cases hr
  · exact hbad
  · cases hst

theorem error_eagain_iff (h : ChecksInOrder bad busy r) : r = .error .eagain ↔ ¬bad ∧ busy := by
  refine ⟨fun hr => ?_, fun ⟨hbad, hbusy⟩ => h.eagain hbad hbusy⟩
  obtain ⟨-, hst⟩ | ⟨hcause, -⟩ := h.error_cases hr
  · cases hst
  · exact hcause

/-- A Voice operation without events checks what the operation checks. -/
theorem quiet {r : Except Status Voice} (h : ChecksInOrder bad busy r) :
    ChecksInOrder bad busy (Machine.quiet r) where
  einval hbad := by rw [h.einval hbad]; rfl
  eagain hbad hbusy := by rw [h.eagain hbad hbusy]; rfl
  succeeds hbad hbusy := by
    obtain ⟨v, hv⟩ := h.succeeds hbad hbusy
    exact ⟨(v, Sticky.clear), by rw [hv]; rfl⟩

end ChecksInOrder

/-! ### The checks of the operations on the Voice (R203 to R208) -/

/-- R101: a frequency out of range, in the words of R241. -/
theorem not_freqOk_iff {f fs : Word} :
    ¬FreqOk f.toNat fs.toNat ↔ f = 0#32 ∨ fs.toNat * 2 ^ 15 ≤ f.toNat := by
  have hzero : f = 0#32 ↔ f.toNat = 0 :=
    ⟨fun h => by rw [h]; rfl, fun h => BitVec.eq_of_toNat_eq h⟩
  rw [hzero]
  omega

/-- R203: where both frequencies are in range, so is the word that `O2` is set to, whether the
coupling has a ratio or not. -/
theorem freqOk_secondFreq_of_coupledOk {c : Coupling} {f fs : Word} (hf : FreqOk f.toNat fs.toNat)
    (hco : coupledOk c f fs = true) : FreqOk (secondFreq c f).toNat fs.toNat := by
  cases hc : coupled c f with
  | none => rwa [secondFreq, hc]
  | some f2 =>
    obtain ⟨r, hr, -⟩ := coupled_eq_some.1 hc
    exact freqOk_secondFreq hr hco

/-- R203: with the frequencies in range and the oscillators free `set_frequency` succeeds, on a
sound Voice or not. -/
theorem Voice.setFrequency_of_free {f : Word} {v : Voice} (hf : FreqOk f.toNat v.cfg.fs.toNat)
    (hco : coupledOk v.cfg.coupling f v.cfg.fs = true)
    (hfree : ¬(v.o1.busy = true ∨ v.osc2Busy = true)) : ∃ w, v.setFrequency f = .ok w := by
  obtain ⟨h1, h2⟩ := not_or.1 hfree
  obtain ⟨o1, ho1⟩ := Osc.setFrequency_succeeds hf (Bool.eq_false_iff.2 h1)
  obtain ⟨o2, ho2⟩ := onSecond_succeeds (o := v.o2)
    (op := Osc.setFrequency v.cfg.fs (secondFreq v.cfg.coupling f)) fun a ha =>
      Osc.setFrequency_succeeds (freqOk_secondFreq_of_coupledOk hf hco)
        ((Voice.osc2Busy_of_second ha).symm.trans (Bool.eq_false_iff.2 h2))
  refine ⟨{ v with o1 := o1, o2 := o2 }, ?_⟩
  rw [Voice.setFrequency, if_neg (not_not.2 hf), if_neg (not_not.2 hco), if_neg hfree]
  simp only [ho1, ho2]

/-- R203: the checks of SET_FREQ. -/
theorem Voice.setFrequency_checks (f : Word) (v : Voice) :
    ChecksInOrder
      (f = 0#32 ∨ v.cfg.fs.toNat * 2 ^ 15 ≤ f.toNat
        ∨ CoupledBad v.cfg.coupling.code f.toNat v.cfg.fs.toNat)
      (v.o1.busy = true ∨ v.osc2Busy = true) (v.setFrequency f) := by
  have hbad : (f = 0#32 ∨ v.cfg.fs.toNat * 2 ^ 15 ≤ f.toNat
        ∨ CoupledBad v.cfg.coupling.code f.toNat v.cfg.fs.toNat)
      ↔ ¬FreqOk f.toNat v.cfg.fs.toNat ∨ coupledOk v.cfg.coupling f v.cfg.fs = false := by
    rw [← or_assoc, ← not_freqOk_iff, ← Bool.not_eq_true, coupledOk_iff, not_not]
  rw [hbad]
  have hgood (h : ¬(¬FreqOk f.toNat v.cfg.fs.toNat
      ∨ coupledOk v.cfg.coupling f v.cfg.fs = false)) :
      FreqOk f.toNat v.cfg.fs.toNat ∧ coupledOk v.cfg.coupling f v.cfg.fs = true := by
    rwa [not_or, not_not, Bool.not_eq_false] at h
  exact ⟨Voice.setFrequency_out_of_range,
    fun h => Voice.setFrequency_while_busy (hgood h).1 (hgood h).2,
    fun h => Voice.setFrequency_of_free (hgood h).1 (hgood h).2⟩

/-- R204: the check of SET_INT. -/
theorem Voice.setIntensity_checks (i : Word) (v : Voice) :
    ChecksInOrder (2 ^ 23 < i.toNat) False (v.setIntensity i) where
  einval h := Voice.setIntensity_out_of_range (Nat.not_le.2 h)
  eagain _ h := h.elim
  succeeds h _ := Voice.setIntensity_succeeds (Nat.not_lt.1 h)

/-- R144: note on fails with `EAGAIN` in a busy stage. -/
theorem Envelope.noteOn_while_busy {e : Envelope} (h : e.stage.busy = true) (i : BitVec 24) :
    e.noteOn i = .error .eagain := by
  unfold Envelope.noteOn
  obtain hst | hst | hst := Stage.busy_iff.1 h <;> rw [hst]

/-- R144: note on succeeds in the other stages. -/
theorem Envelope.noteOn_of_free {e : Envelope} (h : ¬e.stage.busy = true) (i : BitVec 24) :
    ∃ e', e.noteOn i = .ok e' := by
  unfold Envelope.noteOn
  cases hst : e.stage with
  | idle | sustain => exact ⟨_, rfl⟩
  | attack | decay | release => exact absurd (by rw [hst]; rfl) h

/-- R144, R205: the check of TOGGLE on. -/
theorem Voice.toggle_on_checks (v : Voice) :
    ChecksInOrder False (v.env.stage.busy = true) (v.toggle true) where
  einval h := h.elim
  eagain _ hbusy := by
    have htrigger : v.env.trigger true v.int = .error .eagain := v.env.noteOn_while_busy hbusy v.int
    rw [Voice.toggle, htrigger]
  succeeds _ hfree := by
    obtain ⟨e, he⟩ := v.env.noteOn_of_free hfree v.int
    have htrigger : v.env.trigger true v.int = .ok e := he
    exact ⟨_, by rw [Voice.toggle, htrigger]⟩

/-- R145, R205: TOGGLE off checks nothing. -/
theorem Voice.toggle_off_checks (v : Voice) : ChecksInOrder False False (v.toggle false) where
  einval h := h.elim
  eagain _ h := h.elim
  succeeds _ _ := ⟨_, rfl⟩

/-- R206: the checks of FILT_UPDATE. -/
theorem Voice.filtUpdate_checks (P : Params) (fc q gain : Word) (v : Voice) :
    ChecksInOrder (P.design fc q gain v.cfg.fs = none) (v.filt.swOn = true)
      (v.filtUpdate P fc q gain) where
  einval hd := by rw [Voice.filtUpdate, Filter.update_without_design hd]
  eagain hd hs := by rw [Voice.filtUpdate, Filter.update_while_sweeping hd hs]
  succeeds hd hs := by
    obtain ⟨d, hd⟩ := Option.ne_none_iff_exists'.1 hd
    exact ⟨_, by rw [Voice.filtUpdate, Filter.update_of_design hd (Bool.eq_false_iff.2 hs)]⟩

/-- R208: the checks of FILT_SWEEP. -/
theorem Voice.filtSweep_checks (P : Params) (target total : Word) (v : Voice) :
    ChecksInOrder
      (total.toNat < 256 ∨ target = 0#32 ∨ v.cfg.fs.toNat * 2 ^ 15 ≤ target.toNat)
      (v.filt.swOn = true ∨ v.filt.xfOn = true) (v.filtSweep P target total) := by
  rw [← not_freqOk_iff]
  have hgood (h : ¬(total.toNat < 256 ∨ ¬FreqOk target.toNat v.cfg.fs.toNat)) :
      256 ≤ total.toNat ∧ FreqOk target.toNat v.cfg.fs.toNat := by
    rwa [not_or, not_not, Nat.not_lt] at h
  refine ⟨fun h => ?_, fun h hbusy => ?_, fun h hfree => ?_⟩
  · rw [Voice.filtSweep, Filter.startSweep_of_bad_argument h]
  · rw [Voice.filtSweep, Filter.startSweep_while_busy (hgood h).1 (hgood h).2 hbusy]
  · obtain ⟨hs, hx⟩ := not_or.1 hfree
    exact ⟨_, by rw [Voice.filtSweep, Filter.startSweep_of_idle (hgood h).1 (hgood h).2
      (Bool.eq_false_iff.2 hs) (Bool.eq_false_iff.2 hx)]⟩

/-! ### The statuses of a command beside `OK` (R240 to R242, R252) -/

/-- R240: the status words are distinct. -/
theorem Status.word_injective : Function.Injective Status.word := by
  intro a b
  cases a <;> cases b <;> decide

/-- R241, R242, R252: the statuses that a command can answer beside `OK`. -/
def failureStatuses : Instr → List Status
  | .nop | .reset | .getStatus => []
  | .config .. => [.einval]
  | .setFreq _ | .filtUpdate .. | .filtSweep .. => [.einval, .eagain, .enotready]
  | .setInt _ => [.einval, .enotready]
  | .toggle on => if on then [.eagain, .enotready] else [.enotready]
  | .process | .getFreq1 | .getFreq2 | .getInt | .getFc | .getQ | .getGain | .getStage
  | .getFactor | .getFs | .getN | .getMode => [.enotready]

/-- R64, R243: the outcome of a command on `s`: the command completes on a state with the responses
of `s`, whatever registers it has written, or it fails with one of the statuses and writes
nothing. -/
inductive CompletesOrFails (s : State) (failures : List Status) :
    Host.Outcome State Fault Refusal → Prop
  | completes {t : State} (data : List Word) (h : t.resp = s.resp) :
      CompletesOrFails s failures (complete data t)
  | fails {st : Status} (h : st ∈ failures) : CompletesOrFails s failures (fail st s)

namespace CompletesOrFails

variable {s t : State} {failures : List Status} {out : Host.Outcome State Fault Refusal}

/-- The status word of the response is `OK`, or that of a failure, and then nothing but that word is
written. -/
theorem status_cases (h : CompletesOrFails s failures out) (ht : out = .next t) {w : Word}
    {data : List Word} (hresp : t.resp = s.resp ++ w :: data) :
    w = 0#32 ∨ (∃ st ∈ failures, w = st.word) ∧ t = s.emit [w] := by
  cases h with
  | completes data' h =>
    obtain rfl := complete_next ht
    rw [State.emit_resp, h, List.append_cancel_left_eq, List.cons.injEq] at hresp
    exact .inl hresp.1.symm
  | fails h =>
    obtain rfl := fail_next ht
    rw [State.emit_resp, List.append_cancel_left_eq, List.cons.injEq] at hresp
    obtain ⟨rfl, -⟩ := hresp
    exact .inr ⟨⟨_, h, rfl⟩, rfl⟩

/-- R252: a command that needs a Voice can fail with `ENOTREADY` beside its own failures. -/
theorem withVoice {k : Voice → Host.Outcome State Fault Refusal} (hready : .enotready ∈ failures)
    (hk : ∀ v, s.voice = some v → CompletesOrFails s failures (k v)) :
    CompletesOrFails s failures (Machine.withVoice s k) := by
  cases hv : s.voice with
  | none => exact withVoice_none hv k ▸ fails hready
  | some v => exact withVoice_some hv k ▸ hk v hv

/-- A control command completes, or fails as its operation does. -/
theorem control {op : Voice → Except Status (Voice × Sticky)} (hready : .enotready ∈ failures)
    (hop : ∀ v st, op v = .error st → st ∈ failures) :
    CompletesOrFails s failures (Machine.control s op) := by
  refine withVoice hready fun v _ => ?_
  cases hr : op v with
  | error st => exact fails (hop v st hr)
  | ok r => exact completes [] rfl

/-- A control command without events completes, or fails as its operation does. -/
theorem control_quiet {op : Voice → Except Status Voice} (hready : .enotready ∈ failures)
    (hop : ∀ v st, op v = .error st → st ∈ failures) :
    CompletesOrFails s failures (Machine.control s fun v => quiet (op v)) :=
  control hready fun v st h => hop v st (quiet_error h)

/-- R209: a GET of the Voice completes. -/
theorem view (get : Voice → Word) (hready : .enotready ∈ failures) :
    CompletesOrFails s failures (Machine.view s get) :=
  withVoice hready fun v _ => completes [get v] rfl

/-- R201: CONFIG completes, or fails with `EINVAL`. -/
theorem configWith (P : Params) (fs n kind coupling int f0 fc q gain att dec sus rel : Word) :
    CompletesOrFails s [.einval]
      (Machine.configWith P fs n kind coupling int f0 fc q gain att dec sus rel s) := by
  unfold Machine.configWith
  cases hc : configure P fs n kind coupling int f0 fc q gain att dec sus rel with
  | error st => exact fails (List.mem_singleton.2 (configure_error hc))
  | ok v => exact completes [] rfl

end CompletesOrFails

/-- R144, R145, inverted: TOGGLE fails with `EAGAIN`, and only on. -/
theorem Voice.toggle_error_mem {on : Bool} {v : Voice} {st : Status} (h : v.toggle on = .error st) :
    st ∈ failureStatuses (.toggle on) := by
  cases on with
  | true =>
    obtain ⟨hfalse, -⟩ | ⟨-, rfl⟩ := v.toggle_on_checks.error_cases h
    · exact hfalse.elim
    · decide
  | false =>
    obtain ⟨hfalse, -⟩ | ⟨⟨-, hfalse⟩, -⟩ := v.toggle_off_checks.error_cases h <;>
      exact hfalse.elim

/-- R204, inverted: SET_INT fails with `EINVAL`. -/
theorem Voice.setIntensity_error_eq {i : Word} {v : Voice} {st : Status}
    (h : v.setIntensity i = .error st) : st = .einval := by
  obtain ⟨-, rfl⟩ | ⟨⟨-, hfalse⟩, -⟩ := (v.setIntensity_checks i).error_cases h
  · rfl
  · exact hfalse.elim

/-- R241, R242: the failures of an operation's own rule are among those of a command with both. -/
theorem Status.IsRuleError.mem {st : Status} (h : st.IsRuleError) :
    st ∈ [Status.einval, .eagain, .enotready] := by
  obtain rfl | rfl := h <;> decide

/-- R64, R243: every command, at any parameters, completes or fails with one of its statuses. -/
theorem completesOrFails_execWith (P : Params) (i : Instr) (s : State) :
    CompletesOrFails s (failureStatuses i) (execWith P i s) := by
  cases i with
  | nop | reset | getStatus => exact .completes _ rfl
  | config => apply CompletesOrFails.configWith
  | setFreq f =>
    exact .control_quiet (by simp [failureStatuses]) fun _ _ h => (Voice.setFrequency_error h).mem
  | setInt x =>
    refine .control_quiet (by simp [failureStatuses]) fun _ _ h => ?_
    simp [failureStatuses, Voice.setIntensity_error_eq h]
  | toggle on =>
    exact .control_quiet (by cases on <;> decide) fun _ _ => Voice.toggle_error_mem
  | filtUpdate fc q gain =>
    exact .control_quiet (by simp [failureStatuses]) fun _ _ h => (Voice.filtUpdate_error h).mem
  | filtSweep target total =>
    exact .control (by simp [failureStatuses]) fun _ _ h => (Voice.filtSweep_error h).mem
  | process => exact .withVoice (by simp [failureStatuses]) fun v _ => .completes _ rfl
  | getFreq1 | getFreq2 | getInt | getFc | getQ | getGain | getStage | getFactor | getFs | getN
  | getMode => exact .view _ (by simp [failureStatuses])

/-! ### A failed command dropped (R243) -/

/-- R243: a step that answers a status other than `OK` consumes words and appends the status word,
and that is all it does. -/
theorem stepWith_failed {P : Params} {s t : State} {w : Word} {data : List Word}
    (hstep : stepWith P s = .next t) (hresp : t.resp = s.resp ++ w :: data) (hw : w ≠ 0#32) :
    ∃ rest, t = (s.consume rest).emit [w] := by
  have alone {rest : List Word} {failures : List Status} {out : Host.Outcome State Fault Refusal}
      (h : CompletesOrFails (s.consume rest) failures out) (ht : out = .next t) :
      ∃ rest, t = (s.consume rest).emit [w] :=
    ⟨rest, ((h.status_cases ht hresp).resolve_left hw).2⟩
  obtain ⟨i, rest, -, hrun⟩ | ⟨rest, -, hrun⟩ | ⟨-, hrun⟩ := stepWith_cases P s
  · exact alone (completesOrFails_execWith P i _) (hrun.symm.trans hstep)
  · exact alone (.fails (List.mem_singleton_self _)) (hrun.symm.trans hstep)
  · obtain rfl := Host.Outcome.next.inj (hrun.symm.trans hstep)
    exact absurd hresp (by simp)

/-- R16, R41: a run is a function of the command stream and the registers that appends to the
response stream. -/
theorem run_frame (n : Nat) (cmd : List Word) (r : Registers) :
    ∃ (rest out : List Word) (r' : Registers), ∀ resp : List Word,
      State.run n ⟨cmd, resp, r.voice, r.sticky⟩
        = ⟨rest, resp ++ out, r'.voice, r'.sticky⟩ := by
  induction n generalizing cmd r with
  | zero => exact ⟨cmd, [], r, fun resp => by rw [List.append_nil]; rfl⟩
  | succ n ih =>
    obtain ⟨cmd1, out1, r1, hstep⟩ := stepWith_frame chip cmd r
    obtain ⟨rest, out, r', hrun⟩ := ih cmd1 r1
    refine ⟨rest, out1 ++ out, r', fun resp => ?_⟩
    have hone := hstep [] resp (.inl rfl)
    simp only [List.append_nil, ← step_eq_stepWith_chip] at hone
    rw [State.run, hone]
    exact (hrun _).trans (by rw [List.append_assoc])

/-- Settles O9: the failed step is an answer alone, and the run behind it does not read the
responses. -/
theorem failedCommandDropped : Obligations.FailedCommandDropped := by
  intro s t w data hstep hresp hw
  rw [step_eq_stepWith_chip] at hstep
  obtain ⟨rest, rfl⟩ := stepWith_failed hstep hresp hw
  have hdata : data = [] := by simpa using hresp
  refine ⟨hdata, rfl, rfl, fun n => ?_⟩
  obtain ⟨rest', out, r', hrun⟩ := run_frame n rest s.registers
  have hdropped : State.run n (s.consume rest)
      = ⟨rest', s.resp ++ out, r'.voice, r'.sticky⟩ := hrun s.resp
  have hfailed : State.run n ((s.consume rest).emit [w])
      = ⟨rest', s.resp ++ w :: out, r'.voice, r'.sticky⟩ :=
    (hrun (s.resp ++ [w])).trans (by rw [List.append_assoc]; rfl)
  have hstate : { s with cmd := ((s.consume rest).emit [w]).cmd } = s.consume rest := rfl
  rw [hstate, hdropped, hfailed]
  exact ⟨out, rfl, rfl⟩

end Sys2Proof.Machine

/-!
PROOFS. The causes of the failures (`60_exceptions.md` R241, R242, R244): the checks of CONFIG, what
a command answers by its checks, the commands that never answer a status, and the obligations O12
and O13.
-/

namespace Sys2Proof.Machine

/-! ### The checks of CONFIG (R201) -/

/-- R63: a word that names a waveform kind is its number. -/
theorem Waveform.code_of_ofWord {w : Word} {k : Waveform} (h : Waveform.ofWord w = some k) :
    k.code = w.toNat := by
  unfold Waveform.ofWord at h
  split at h <;> cases h <;> exact Eq.symm ‹_›

/-- R63: a word that names a coupling mode is its number. -/
theorem Coupling.code_of_ofWord {w : Word} {c : Coupling} (h : Coupling.ofWord w = some c) :
    c.code = w.toNat := by
  unfold Coupling.ofWord at h
  split at h <;> cases h <;> exact Eq.symm ‹_›

/-- R63: the words up to 2 name a waveform kind. -/
theorem Waveform.exists_ofWord_iff {w : Word} :
    (∃ k, Waveform.ofWord w = some k) ↔ ¬2 < w.toNat := by
  constructor
  · rintro ⟨k, hk⟩
    rw [← Waveform.code_of_ofWord hk]
    cases k <;> decide
  · intro h
    obtain hw | hw | hw : w.toNat = 0 ∨ w.toNat = 1 ∨ w.toNat = 2 := by omega
    · exact ⟨.saw, Waveform.ofWord_code hw⟩
    · exact ⟨.sine, Waveform.ofWord_code hw⟩
    · exact ⟨.square, Waveform.ofWord_code hw⟩

/-- R63: the words up to 4 name a coupling mode. -/
theorem Coupling.exists_ofWord_iff {w : Word} :
    (∃ c, Coupling.ofWord w = some c) ↔ ¬4 < w.toNat := by
  constructor
  · rintro ⟨c, hc⟩
    rw [← Coupling.code_of_ofWord hc]
    cases c <;> decide
  · intro h
    obtain hw | hw | hw | hw | hw : w.toNat = 0 ∨ w.toNat = 1 ∨ w.toNat = 2 ∨ w.toNat = 3
      ∨ w.toNat = 4 := by omega
    · exact ⟨.uncoupled, Coupling.ofWord_code hw⟩
    · exact ⟨.minorThird, Coupling.ofWord_code hw⟩
    · exact ⟨.majorThird, Coupling.ofWord_code hw⟩
    · exact ⟨.fifth, Coupling.ofWord_code hw⟩
    · exact ⟨.octave, Coupling.ofWord_code hw⟩

section
variable {P : Params} {fs n kind coupling int f0 fc q gain att dec sus rel : Word}

/-- R201: the ranges of the operands that have one of their own, in the words of R241. -/
theorem configRangesOk_iff :
    configRangesOk P fs n int f0 att dec sus rel = true ↔
      ¬(fs = 0#32 ∨ n = 0#32 ∨ P.frameMax < n.toNat ∨ 2 ^ 23 < int.toNat ∨ 2 ^ 23 < sus.toNat
        ∨ 65535 < att.toNat ∨ 65535 < dec.toNat ∨ 65535 < rel.toNat
        ∨ (f0 = 0#32 ∨ fs.toNat * 2 ^ 15 ≤ f0.toNat)
        ∨ 2 ^ 32 - 1 < att.toNat * fs.toNat / 1000 ∨ 2 ^ 32 - 1 < dec.toNat * fs.toNat / 1000
        ∨ 2 ^ 32 - 1 < rel.toNat * fs.toNat / 1000) := by
  have hfits (len : Nat) : ¬2 ^ 32 - 1 < len ↔ len < 2 ^ 32 := by omega
  have hunit (x : Word) : ¬2 ^ 23 < x.toNat ↔ UnitOk x.toNat := not_lt
  rw [← not_freqOk_iff]
  simp only [configRangesOk, Bool.and_eq_true, decide_eq_true_eq]
  simp only [segmentLen, not_or, hfits, hunit, not_lt, not_not, and_assoc, ne_eq]

/-- R201: CONFIG succeeds exactly where every one of its checks passes. -/
theorem configure_ok_iff :
    (∃ v, configure P fs n kind coupling int f0 fc q gain att dec sus rel = .ok v) ↔
      configRangesOk P fs n int f0 att dec sus rel = true
        ∧ ¬2 < kind.toNat ∧ ¬4 < coupling.toNat
        ∧ ¬CoupledBad coupling.toNat f0.toNat fs.toNat ∧ P.design fc q gain fs ≠ none := by
  constructor
  · rintro ⟨v, hv⟩
    obtain ⟨hr, k, c, d, hk, hc, hco, hd, -⟩ := configure_ok hv
    refine ⟨hr, Waveform.exists_ofWord_iff.1 ⟨k, hk⟩, Coupling.exists_ofWord_iff.1 ⟨c, hc⟩, ?_, ?_⟩
    · rw [← Coupling.code_of_ofWord hc]
      exact coupledOk_iff.1 hco
    · rw [hd]
      exact Option.some_ne_none d
  · rintro ⟨hr, hkind, hcoupling, hco, hdesign⟩
    obtain ⟨k, hk⟩ := Waveform.exists_ofWord_iff.2 hkind
    obtain ⟨c, hc⟩ := Coupling.exists_ofWord_iff.2 hcoupling
    obtain ⟨d, hd⟩ := Option.ne_none_iff_exists'.1 hdesign
    rw [← Coupling.code_of_ofWord hc, ← coupledOk_iff] at hco
    exact ⟨_, configure_eq_voiceInit hr hk hc hco hd⟩

/-- An operation that can fail with `EINVAL` alone checks the conditions that keep it from
succeeding. -/
theorem ChecksInOrder.of_ok_iff {α : Type} {bad : Prop} {r : Except Status α}
    (hok : (∃ a, r = .ok a) ↔ ¬bad) (herror : ∀ st, r = .error st → st = .einval) :
    ChecksInOrder bad False r := by
  refine ⟨fun hbad => ?_, fun _ h => h.elim, fun hgood _ => hok.2 hgood⟩
  cases hr : r with
  | error st => rw [herror st hr]
  | ok a => exact absurd hbad (hok.1 ⟨a, hr⟩)

/-- R201, R241: the checks of CONFIG. -/
theorem configure_checks :
    ChecksInOrder
      (fs = 0#32 ∨ n = 0#32 ∨ P.frameMax < n.toNat ∨ 2 < kind.toNat ∨ 4 < coupling.toNat
        ∨ 2 ^ 23 < int.toNat ∨ 2 ^ 23 < sus.toNat
        ∨ 65535 < att.toNat ∨ 65535 < dec.toNat ∨ 65535 < rel.toNat
        ∨ 2 ^ 32 - 1 < att.toNat * fs.toNat / 1000 ∨ 2 ^ 32 - 1 < dec.toNat * fs.toNat / 1000
        ∨ 2 ^ 32 - 1 < rel.toNat * fs.toNat / 1000
        ∨ f0 = 0#32 ∨ fs.toNat * 2 ^ 15 ≤ f0.toNat
        ∨ CoupledBad coupling.toNat f0.toNat fs.toNat ∨ P.design fc q gain fs = none)
      False (configure P fs n kind coupling int f0 fc q gain att dec sus rel) := by
  refine .of_ok_iff ?_ fun _ => configure_error
  rw [configure_ok_iff, configRangesOk_iff]
  simp only [not_or, ne_eq]
  refine iff_of_eq ?_
  ac_rfl

end

/-! ### The answer by the checks (R243, R244) -/

/-- R240: a failure answers its own status alone. -/
theorem fail_eq_iff {st st' : Status} {s : State} :
    fail st s = .next { s with resp := s.resp ++ [st'.word] } ↔ st = st' := by
  constructor
  · intro h
    have hresp := congrArg State.resp (Host.Outcome.next.inj h)
    have hword : st.word = st'.word := by simpa using hresp
    exact Status.word_injective hword
  · rintro rfl
    rfl

/-- R64: a command that completes answers no failure. -/
theorem complete_ne_failed {st : Status} (hst : st ≠ .ok) {s t : State} (hresp : t.resp = s.resp)
    (data : List Word) : complete data t ≠ .next { s with resp := s.resp ++ [st.word] } := by
  intro h
  have hlist := congrArg State.resp (Host.Outcome.next.inj h)
  have hwords : Status.ok.word = st.word ∧ data = [] := by simpa [hresp] using hlist
  exact hst (Status.word_injective hwords.1).symm

/-- R243: a control command on a configured core answers a status exactly where its operation fails
with it. -/
theorem control_eq_failed_iff {s : State} {v : Voice} (hv : s.voice = some v)
    {op : Voice → Except Status (Voice × Sticky)} {st : Status} (hst : st ≠ .ok) :
    control s op = .next { s with resp := s.resp ++ [st.word] } ↔ op v = .error st := by
  rw [control, withVoice_some hv]
  cases op v with
  | error st' => rw [fail_eq_iff, Except.error.injEq]
  | ok r =>
    have hne := complete_ne_failed hst (t := (s.setVoice r.1).raise r.2) (s := s) rfl []
    exact ⟨fun h => absurd h hne, fun h => by cases h⟩

/-- R201, R243: CONFIG answers `EINVAL` exactly where the Voice cannot be built. -/
theorem configWith_eq_einval_iff {P : Params}
    {fs n kind coupling int f0 fc q gain att dec sus rel : Word} (s : State) :
    configWith P fs n kind coupling int f0 fc q gain att dec sus rel s
        = .next { s with resp := s.resp ++ [Status.einval.word] }
      ↔ configure P fs n kind coupling int f0 fc q gain att dec sus rel = .error .einval := by
  rw [configWith]
  cases configure P fs n kind coupling int f0 fc q gain att dec sus rel with
  | error st => rw [fail_eq_iff, Except.error.injEq]
  | ok v =>
    have hne := complete_ne_failed (st := .einval) (by decide) (t := s.rebuild v) (s := s) rfl []
    exact ⟨fun h => absurd h hne, fun h => by cases h⟩

section
variable {s : State} {v : Voice} {bad busy : Prop}

/-- R241, R244: a control command answers `EINVAL` exactly on a bad argument. -/
theorem control_einval_iff (hv : s.voice = some v) {op : Voice → Except Status (Voice × Sticky)}
    (h : ChecksInOrder bad busy (op v)) :
    control s op = .next { s with resp := s.resp ++ [1#32] } ↔ bad :=
  (control_eq_failed_iff (st := .einval) hv (by decide)).trans h.error_einval_iff

/-- R242, R244: a control command answers `EAGAIN` exactly while busy, no argument being bad. -/
theorem control_eagain_iff (hv : s.voice = some v) {op : Voice → Except Status (Voice × Sticky)}
    (h : ChecksInOrder bad busy (op v)) :
    control s op = .next { s with resp := s.resp ++ [2#32] } ↔ ¬bad ∧ busy :=
  (control_eq_failed_iff (st := .eagain) hv (by decide)).trans h.error_eagain_iff

end

/-- R240 to R242: a command never answers a status that is neither `OK` nor one of its failures. -/
theorem execWith_never_answers {P : Params} {i : Instr} {st : Status} (hok : st ≠ .ok)
    (hst : st ∉ failureStatuses i) {s t : State} (h : execWith P i s = .next t)
    (data : List Word) : t.resp ≠ s.resp ++ st.word :: data := by
  intro hresp
  obtain hzero | ⟨⟨st', hmem, hword⟩, -⟩ :=
    (completesOrFails_execWith P i s).status_cases h hresp
  · exact hok (Status.word_injective (a₂ := .ok) hzero)
  · rw [Status.word_injective hword] at hst
    exact hst hmem

/-- Settles O12, by the checks of each command and the statuses of the others. -/
theorem einvalCauses : Obligations.EinvalCauses := by
  intro P
  refine ⟨fun s fs n kind coupling int f0 fc q gain att dec sus rel => ?_, fun s v hv => ?_,
    fun s t i hi => ?_, fun s i => exec_eq_execWith_chip i s⟩
  · exact (configWith_eq_einval_iff s).trans configure_checks.error_einval_iff
  · exact ⟨fun f => control_einval_iff hv (v.setFrequency_checks f).quiet,
      fun i => control_einval_iff hv (v.setIntensity_checks i).quiet,
      fun fc q gain => control_einval_iff hv (v.filtUpdate_checks P fc q gain).quiet,
      fun target total => control_einval_iff hv (v.filtSweep_checks P target total)⟩
  · have hnever : .einval ∉ failureStatuses i := by
      revert i
      decide
    exact execWith_never_answers (by decide) hnever

/-- Settles O13, by the checks of each command and the statuses of the others. -/
theorem eagainCauses : Obligations.EagainCauses := by
  intro P
  refine ⟨fun s v hv => ⟨fun f => ?_, ?_, fun fc q gain => ?_, fun target total => ?_⟩,
    fun s t i hi => ?_, fun s i => exec_eq_execWith_chip i s⟩
  · refine (control_eagain_iff hv (v.setFrequency_checks f).quiet).trans ?_
    simp only [not_or, not_le, Osc.busy_iff, Voice.osc2Busy_iff, and_assoc, ne_eq]
  · refine (control_eagain_iff hv v.toggle_on_checks.quiet).trans ?_
    rw [Stage.busy_iff, not_false_iff, true_and]
  · exact control_eagain_iff hv (v.filtUpdate_checks P fc q gain).quiet
  · refine (control_eagain_iff hv (v.filtSweep_checks P target total)).trans ?_
    simp only [not_or, not_lt, not_le, and_assoc, ne_eq]
  · have hnever : .eagain ∉ failureStatuses i := by
      obtain hi | ⟨x, rfl⟩ | ⟨fs, n, k, c, x, f, fc, q, g, a, d, su, r, rfl⟩ := hi
      · revert i
        decide
      · simp [failureStatuses]
      · simp [failureStatuses]
    exact execWith_never_answers (by decide) hnever

end Sys2Proof.Machine

/-!
PROOFS. Busy conditions (`60_exceptions.md` R242, `70_reset_and_hazards.md` R264): what each
operation on the Voice leaves busy, and the obligation O14.
-/

namespace Sys2Proof.Machine

/-- R242, R264: what is busy in the first Voice is busy in the second; the envelope where
`keepsEnv` holds. -/
structure Voice.BusyKept (keepsEnv : Prop) (v w : Voice) : Prop where
  first : v.o1.busy = true → w.o1.busy = true
  second : v.osc2Busy = true → w.osc2Busy = true
  fade : v.filt.xfOn = true → w.filt.xfOn = true
  sweep : v.filt.swOn = true → w.filt.swOn = true
  env : keepsEnv → v.env.stage.busy = true → w.env.stage.busy = true

theorem Voice.BusyKept.refl (keepsEnv : Prop) (v : Voice) : v.BusyKept keepsEnv v :=
  ⟨id, id, id, id, fun _ => id⟩

/-- R118: `set_intensity` leaves a frequency transition as it is. -/
theorem Osc.setIntensity_busy {fs i : Word} {o o' : Osc} (h : o.setIntensity fs i = .ok o') :
    o'.busy = o.busy := by
  obtain ⟨hi, -, -⟩ := Osc.setIntensity_ok h
  rw [Osc.setIntensity, if_neg (not_not.2 hi)] at h
  cases h
  unfold Osc.busy
  cases o.wave <;> rfl

/-- R204: SET_INT leaves the transition of `O2` as it is. -/
theorem Voice.osc2Busy_setIntensity {fs i : Word} {v w : Voice}
    (h : onSecond (Osc.setIntensity fs i) v.o2 = .ok w.o2) : w.osc2Busy = v.osc2Busy := by
  obtain ⟨hv, hw⟩ | ⟨a, b, hv, hw, hab⟩ := onSecond_ok h
  · rw [Voice.osc2Busy, Voice.osc2Busy, hv, hw]
  · rw [Voice.osc2Busy_of_second hv, Voice.osc2Busy_of_second hw, Osc.setIntensity_busy hab]

/-- R144: note on that succeeds found the envelope free. -/
theorem Envelope.noteOn_ok_free {i : BitVec 24} {e e' : Envelope} (h : e.noteOn i = .ok e') :
    ¬e.stage.busy = true := by
  intro hbusy
  rw [e.noteOn_while_busy hbusy] at h
  cases h

/-- R143: a release that is not empty is entered. -/
theorem Envelope.landing_release {e : Envelope} (h : e.nr ≠ 0#32) :
    e.landing .release = .release := by
  simp [Envelope.landing, h]

/-- R145: note off leaves a busy envelope busy, if its release is not empty. -/
theorem Envelope.noteOff_busy {e : Envelope} (hnr : e.nr ≠ 0#32) (hbusy : e.stage.busy = true) :
    e.noteOff.stage.busy = true := by
  unfold Envelope.noteOff
  cases hst : e.stage with
  | idle | sustain => rw [hst] at hbusy; cases hbusy
  | release => exact hbusy
  | attack | decay => dsimp only; rw [Envelope.enter_stage, Envelope.landing_release hnr]; rfl

/-- R242, R264: an operation on the Voice other than PROCESS ends nothing that is busy, but for note
off with an empty release (log 16). -/
theorem VoiceOp.busyKept {P : Params} {v w : Voice} {i : Instr} {ev : Sticky}
    (h : VoiceOp P v i w ev) (hi : i ≠ .process) :
    v.BusyKept (i = .toggle false → v.env.nr ≠ 0#32) w := by
  cases h with
  | setFreq h =>
    obtain ⟨-, -, h1, h2, o1, o2, -, -, rfl⟩ := Voice.setFrequency_ok h
    exact ⟨fun hb => absurd hb (by simp [h1]), fun hb => absurd hb (by simp [h2]), id, id,
      fun _ => id⟩
  | setInt h =>
    obtain ⟨-, o1, o2, ho1, ho2, rfl⟩ := Voice.setIntensity_ok h
    exact ⟨(Osc.setIntensity_busy ho1).trans, (Voice.osc2Busy_setIntensity ho2).trans,
      id, id, fun _ => id⟩
  | @toggle on _ h =>
    obtain ⟨e, he, rfl⟩ := Voice.toggle_ok h
    refine ⟨id, id, id, id, fun hnr hbusy => ?_⟩
    cases on with
    | true => exact absurd hbusy (Envelope.noteOn_ok_free he)
    | false =>
      cases he
      exact Envelope.noteOff_busy (hnr rfl) hbusy
  | filtUpdate h =>
    obtain ⟨F, hF, rfl⟩ := Voice.filtUpdate_ok h
    obtain ⟨d, -, hs, rfl⟩ := Filter.update_ok hF
    exact ⟨id, id, fun _ => rfl, id, fun _ => id⟩
  | filtSweep h =>
    obtain ⟨F, e, hF, rfl, -⟩ := Voice.filtSweep_ok h
    obtain ⟨-, -, hs, hx, -⟩ := Filter.startSweep_ok hF
    exact ⟨id, id, fun hb => absurd hb (by simp [hx]), fun hb => absurd hb (by simp [hs]),
      fun _ => id⟩
  | process => exact absurd rfl hi

/-- Settles O14, by the effects of a command. -/
theorem busyPersists : Obligations.BusyPersists := by
  intro s t v i hv hexec hprocess hreset hconfig
  obtain ⟨F, heff, hrun⟩ := hasEffect_execWith chip s.voice i
  rw [exec_eq_execWith_chip, hrun s rfl] at hexec
  cases hexec
  have kept : ∃ w, (F s).voice = some w
      ∧ v.BusyKept (i = .toggle false → v.env.nr ≠ 0#32) w := by
    cases heff with
    | answer ws => exact ⟨v, hv, .refl _ v⟩
    | status => exact ⟨v, hv, .refl _ v⟩
    | reset => exact absurd rfl hreset
    | config h => exact absurd rfl (hconfig _ _ _ _ _ _ _ _ _ _ _ _ _)
    | voiceOp hv' h ws =>
      cases hv.symm.trans hv'
      exact ⟨_, rfl, h.busyKept hprocess⟩
  obtain ⟨w, hw, hkept⟩ := kept
  exact ⟨w, hw, hkept.first, hkept.second, hkept.fade, hkept.sweep, hkept.env⟩

end Sys2Proof.Machine

/-!
PROOFS. TOGGLE (`43_voice.md` R205, with `41_envelope.md` R143 to R145, R149): the stage that a
request lands in, the first factor of a stage, the cases of the trigger, and the obligations O20 and
O21.
-/

namespace Sys2Proof.Machine

/-! ### The stage landed in and the factors of a stage (R142, R143) -/

/-- R143: a request for the attack. -/
theorem Envelope.landing_attack (e : Envelope) :
    e.landing .attack = if e.na = 0#32 then e.landing .decay else .attack := by
  by_cases h : e.na = 0#32 <;> simp [Envelope.landing, h]

/-- R143: a request for the decay. -/
theorem Envelope.landing_decay (e : Envelope) :
    e.landing .decay = if e.nd = 0#32 then .sustain else .decay := by
  by_cases h : e.nd = 0#32 <;> simp [Envelope.landing, h]

/-- R143: a request for the release. -/
theorem Envelope.landing_release_cases (e : Envelope) :
    e.landing .release = if e.nr = 0#32 then .idle else .release := by
  by_cases h : e.nr = 0#32 <;> simp [Envelope.landing, h]

@[simp] theorem Envelope.landing_sustain (e : Envelope) : e.landing .sustain = .sustain := rfl

@[simp] theorem Envelope.landing_idle (e : Envelope) : e.landing .idle = .idle := rfl

theorem Envelope.fac_attack (e : Envelope) (k : Nat) :
    e.fac .attack k = k * 2 ^ 23 / e.na.toNat := by
  rw [mul_comm]
  rfl

theorem Envelope.fac_decay (e : Envelope) (k : Nat) :
    e.fac .decay k = 2 ^ 23 - k * (2 ^ 23 - e.s.toNat) / e.nd.toNat := rfl

theorem Envelope.fac_release (e : Envelope) (k : Nat) :
    e.fac .release k = e.s.toNat - k * e.s.toNat / e.nr.toNat := rfl

@[simp] theorem Envelope.fac_sustain (e : Envelope) (k : Nat) :
    e.fac .sustain k = e.s.toNat := rfl

@[simp] theorem Envelope.fac_idle (e : Envelope) (k : Nat) : e.fac .idle k = 0 := rfl

/-- The sustain factor written to the factor register is itself. -/
theorem ureg_toNat_factor (x : BitVec 24) : ureg 24 x.toNat = x :=
  BitVec.eq_of_toNat_eq (toNat_ureg x.isLt)

/-- R143: the factor on entering each stage that is not the idle one. -/
theorem Envelope.fac_zero (e : Envelope) :
    e.fac .attack 0 = 0 ∧ e.fac .decay 0 = 2 ^ 23 ∧ e.fac .release 0 = e.s.toNat := by
  rw [Envelope.fac_attack, Envelope.fac_decay, Envelope.fac_release]
  simp

/-- R145, R149: the envelope after a request for the release. -/
theorem Envelope.enter_release (e : Envelope) :
    e.enter .release
      = { e with
          stage := if e.nr = 0#32 then .idle else .release
          idx := 0#32
          factor := if e.nr = 0#32 then 0#24 else e.s } := by
  obtain ⟨-, -, hfac⟩ := e.fac_zero
  rw [Envelope.enter, e.landing_release_cases]
  split_ifs
  · rfl
  · rw [hfac, ureg_toNat_factor]

/-! ### The trigger (R144, R145) -/

/-- R144: note on in `IDLE`. -/
theorem Envelope.trigger_on_idle {e : Envelope} (h : e.stage = .idle) (i : BitVec 24) :
    e.trigger true i = .ok (Envelope.enter { e with cap := i } .attack) := by
  simp [Envelope.trigger, Envelope.noteOn, h]

/-- R144: note on in `SUSTAIN`. -/
theorem Envelope.trigger_on_sustain {e : Envelope} (h : e.stage = .sustain) (i : BitVec 24) :
    e.trigger true i = .ok e := by
  simp [Envelope.trigger, Envelope.noteOn, h]

/-- R144: note on in the other stages. -/
theorem Envelope.trigger_on_busy {e : Envelope}
    (h : e.stage = .attack ∨ e.stage = .decay ∨ e.stage = .release) (i : BitVec 24) :
    e.trigger true i = .error .eagain :=
  e.noteOn_while_busy (Stage.busy_iff.2 h) i

/-- R145: note off where nothing sounds or the release runs already. -/
theorem Envelope.trigger_off_released {e : Envelope} (h : e.stage = .idle ∨ e.stage = .release)
    (i : BitVec 24) : e.trigger false i = .ok e := by
  rcases h with h | h <;> simp [Envelope.trigger, Envelope.noteOff, h]

/-- R145: note off in the other stages. -/
theorem Envelope.trigger_off_held {e : Envelope}
    (h : e.stage = .attack ∨ e.stage = .decay ∨ e.stage = .sustain) (i : BitVec 24) :
    e.trigger false i = .ok (e.enter .release) := by
  rcases h with h | h | h <;> simp [Envelope.trigger, Envelope.noteOff, h]

/-! ### The command (R205) -/

/-- R205: TOGGLE where the trigger succeeds. -/
theorem exec_toggle_ok {s : State} {v : Voice} {on : Bool} {e : Envelope}
    (hv : s.voice = some v) (h : v.env.trigger on v.int = .ok e) :
    exec (.toggle on) s
      = .next { s with resp := s.resp ++ [0#32], voice := some { v with env := e } } :=
  control_quiet_ok (op := Voice.toggle on) hv (by rw [Voice.toggle, h])

/-- R205: TOGGLE where the trigger leaves the envelope as it is answers `OK` alone. -/
theorem exec_toggle_unchanged {s : State} {v : Voice} {on : Bool}
    (hv : s.voice = some v) (h : v.env.trigger on v.int = .ok v.env) :
    exec (.toggle on) s = .next { s with resp := s.resp ++ [0#32] } := by
  rw [exec_toggle_ok hv h, ← hv]

/-- R205, R243: TOGGLE where the trigger fails. -/
theorem exec_toggle_error {s : State} {v : Voice} {on : Bool} {st : Status}
    (hv : s.voice = some v) (h : v.env.trigger on v.int = .error st) :
    exec (.toggle on) s = .next { s with resp := s.resp ++ [st.word] } :=
  control_quiet_error (op := Voice.toggle on) hv (by rw [Voice.toggle, h])

/-- Settles O20, by the stage that note on finds the envelope in. -/
theorem noteOnEffect : Obligations.NoteOnEffect := by
  intro s v hv
  refine ⟨rfl, fun hidle => ?_, fun hsustain => ?_, fun hbusy => ?_, fun e => exec_toggle_ok hv⟩
  · have hattack := v.env.landing_attack
    have hdecay := v.env.landing_decay
    obtain ⟨hfacA, hfacD, -⟩ := v.env.fac_zero
    refine ⟨v.env.landing .attack, ureg 24 (v.env.fac (v.env.landing .attack) 0),
      exec_toggle_ok hv (Envelope.trigger_on_idle hidle v.int), fun hna => ?_, fun hna hnd => ?_,
      fun hna hnd => ?_⟩
    · rw [hattack, if_neg hna, hfacA]
      exact ⟨rfl, rfl⟩
    · rw [hattack, if_pos hna, hdecay, if_neg hnd, hfacD]
      exact ⟨rfl, toNat_ureg (by decide)⟩
    · rw [hattack, if_pos hna, hdecay, if_pos hnd, Envelope.fac_sustain]
      exact ⟨rfl, ureg_toNat_factor _⟩
  · exact exec_toggle_unchanged hv (Envelope.trigger_on_sustain hsustain v.int)
  · exact exec_toggle_error hv (Envelope.trigger_on_busy hbusy v.int)

/-- Settles O21, by the stage that note off finds the envelope in. -/
theorem noteOffEffect : Obligations.NoteOffEffect := by
  intro s v hv
  refine ⟨rfl, fun hreleased => ?_, fun hheld => ?_, fun e => exec_toggle_ok hv⟩
  · exact exec_toggle_unchanged hv (Envelope.trigger_off_released hreleased v.int)
  · rw [exec_toggle_ok hv (Envelope.trigger_off_held hheld v.int), Envelope.enter_release]

end Sys2Proof.Machine

/-!
PROOFS. The pipeline of one voice sample (`43_voice.md` R212): the mix of the oscillators and the
obligation O25.
-/

namespace Sys2Proof.Machine

/-- R10: the clamp to full scale as a maximum and a minimum. -/
theorem satFs_eq_max_min (v : Int) : satFs v = max (-8388607) (min 8388607 v) := by
  have hfsc : (Config.fsc : Int) = 8388607 := rfl
  unfold satFs
  split_ifs <;> omega

/-- R212: the mixed value with one oscillator. -/
theorem Voice.oscillators_single (P : Params) {v : Voice} (h : v.o2 = none) :
    (v.oscillators P).o = (v.o1.sample P v.cfg.fs).1 := by
  simp [Voice.oscillators, h]

/-- R212: the mixed value with two oscillators. -/
theorem Voice.oscillators_sum (P : Params) {v : Voice} {b : Osc} (h : v.o2 = some b) :
    (v.oscillators P).o = satFs ((v.o1.sample P v.cfg.fs).1 + (b.sample P v.cfg.fs).1) := by
  simp [Voice.oscillators, h]

/-- Settles O25: the mixed value and the gain determine what reaches the filter; the rest is the
voice sample component by component. -/
theorem voiceSamplePipeline : Obligations.VoiceSamplePipeline := by
  intro P v g o e hg hsingle hsum he
  have ho : o = (v.oscillators P).o := by
    cases h : v.o2 with
    | none => rw [hsingle h, Voice.oscillators_single P h]
    | some b => rw [hsum b h, Voice.oscillators_sum P h, satFs_eq_max_min]
  have hfilter : v.filterOut P = v.filt.sample P v.cfg.fs e := by
    rw [he, ho, hg]
    rfl
  obtain ⟨ho1, ho2⟩ := v.oscillators_regs P
  rw [Voice.sample_eq, hfilter, ho1, ho2, Voice.oscillators_wrapped]
  exact ⟨rfl, rfl, rfl⟩

end Sys2Proof.Machine

/-!
PROOFS. The envelope over many samples (`41_envelope.md` R142, R143, R146, R148): a segment index by
index, the stages one after the other from note on and from note off, and the obligation O45.
-/

namespace Sys2Proof.Machine

/-! ### An index of a stage -/

/-- R27, R142: the envelope at the index `k` of a stage. -/
def Envelope.atIndex (e : Envelope) (stage : Stage) (k : Nat) : Envelope :=
  { e with stage := stage, idx := ureg 32 k, factor := ureg 24 (e.fac stage k) }

/-- R143: entering a stage is to stand at the index 0 of the stage landed in. -/
theorem Envelope.enter_eq_atIndex (e : Envelope) (stage : Stage) :
    e.enter stage = e.atIndex (e.landing stage) 0 := rfl

/-- R146: the gain at an index of a stage. -/
theorem Envelope.gain_atIndex {e : Envelope} (hs : UnitOk e.s.toNat) {stage : Stage} {k : Nat}
    (hk : stage = .attack → k ≤ e.na.toNat) :
    (e.atIndex stage k).gain = e.cap.toNat * e.fac stage k / 2 ^ 23 :=
  congrArg (e.cap.toNat * · / 2 ^ 23) (Envelope.toNat_fac hs hk)

section
variable {e : Envelope} (hs : UnitOk e.s.toNat) {k : Nat}
include hs

theorem Envelope.gain_attack (hk : k ≤ e.na.toNat) :
    (e.atIndex .attack k).gain = e.cap.toNat * (k * 2 ^ 23 / e.na.toNat) / 2 ^ 23 := by
  rw [Envelope.gain_atIndex hs fun _ => hk, Envelope.fac_attack]

theorem Envelope.gain_decay :
    (e.atIndex .decay k).gain
      = e.cap.toNat * (2 ^ 23 - k * (2 ^ 23 - e.s.toNat) / e.nd.toNat) / 2 ^ 23 :=
  Envelope.gain_atIndex hs (by nofun)

theorem Envelope.gain_sustain : (e.atIndex .sustain k).gain = e.cap.toNat * e.s.toNat / 2 ^ 23 :=
  Envelope.gain_atIndex hs (by nofun)

theorem Envelope.gain_release :
    (e.atIndex .release k).gain
      = e.cap.toNat * (e.s.toNat - k * e.s.toNat / e.nr.toNat) / 2 ^ 23 :=
  Envelope.gain_atIndex hs (by nofun)

theorem Envelope.gain_idle : (e.atIndex .idle k).gain = 0 := by
  rw [Envelope.gain_atIndex hs (by nofun), Envelope.fac_idle, mul_zero, Nat.zero_div]

/-- R142: the gains of the attack never fall. -/
theorem Envelope.gain_attack_mono {j : Nat} (hjk : j ≤ k) (hk : k ≤ e.na.toNat) :
    (e.atIndex .attack j).gain ≤ (e.atIndex .attack k).gain := by
  rw [Envelope.gain_attack hs hk, Envelope.gain_attack hs (hjk.trans hk)]
  gcongr

end

/-! ### A segment (R146) -/

section
variable {e : Envelope} {stage next : Stage} {len : Word} {k : Nat}

/-- R143: a stage with a segment is skipped if the segment is empty. -/
theorem Envelope.landing_of_segment (hseg : (e.atIndex stage 0).segment = some (len, next)) :
    e.landing stage = if len = 0#32 then e.landing next else stage := by
  cases stage with
  | idle | sustain => cases hseg
  | attack => cases hseg; exact e.landing_attack
  | decay => cases hseg; exact e.landing_decay
  | release => cases hseg; exact e.landing_release_cases

/-- R146: an advance inside a segment. -/
theorem Envelope.advance_inside (hseg : (e.atIndex stage 0).segment = some (len, next))
    (hk : k + 1 < len.toNat) : (e.atIndex stage k).advance = e.atIndex stage (k + 1) := by
  have hseg' : (e.atIndex stage k).segment = some (len, next) := hseg
  have hidx : (e.atIndex stage k).idx.toNat = k := toNat_ureg (by have := len.isLt; omega)
  rw [Envelope.advance, hseg']
  dsimp only
  rw [hidx, if_neg (Nat.not_le.2 hk)]
  rfl

/-- R146: the advance at the last index of a segment. -/
theorem Envelope.advance_last (hseg : (e.atIndex stage 0).segment = some (len, next))
    (hk : k + 1 = len.toNat) : (e.atIndex stage k).advance = e.enter next := by
  have hseg' : (e.atIndex stage k).segment = some (len, next) := hseg
  have hidx : (e.atIndex stage k).idx.toNat = k := toNat_ureg (by have := len.isLt; omega)
  rw [Envelope.advance, hseg']
  dsimp only
  rw [hidx, if_pos hk.ge]
  rfl

/-- R146: `k` samples into a segment the index is `k`. -/
theorem Envelope.iterate_advance_inside
    (hseg : (e.atIndex stage 0).segment = some (len, next)) (hk : k < len.toNat) :
    Envelope.advance^[k] (e.enter stage) = e.atIndex stage k := by
  induction k with
  | zero =>
    have hlen : len ≠ 0#32 := by
      rintro rfl
      exact absurd hk (by decide)
    rw [Function.iterate_zero_apply, Envelope.enter_eq_atIndex, Envelope.landing_of_segment hseg,
      if_neg hlen]
  | succ k ih =>
    rw [Function.iterate_succ_apply', ih (by omega), Envelope.advance_inside hseg hk]

/-- R143, R146: after a whole segment, an empty one too, the stage behind it is entered. -/
theorem Envelope.iterate_advance_segment
    (hseg : (e.atIndex stage 0).segment = some (len, next)) :
    Envelope.advance^[len.toNat] (e.enter stage) = e.enter next := by
  by_cases hlen : len = 0#32
  · rw [Envelope.enter_eq_atIndex, Envelope.landing_of_segment hseg, if_pos hlen, hlen]
    rfl
  · obtain ⟨k, hk⟩ := Nat.exists_eq_succ_of_ne_zero (toNat_pos_of_ne hlen).ne'
    rw [hk, Function.iterate_succ_apply', Envelope.iterate_advance_inside hseg (by omega),
      Envelope.advance_last hseg hk.symm]

end

/-- R148: the envelope rests in a stage without a segment. -/
theorem Envelope.iterate_advance_resting {e : Envelope} (h : e.segment = none) (k : Nat) :
    Envelope.advance^[k] e = e :=
  Function.iterate_fixed (by rw [Envelope.advance, h]) k

/-! ### The stages one after the other (R142, R143, R148) -/

/-- R148: from the decay on, skipped or not. -/
theorem Envelope.iterate_advance_decay (e : Envelope) (k : Nat) :
    Envelope.advance^[k] (e.enter .decay)
      = if k < e.nd.toNat then e.atIndex .decay k else e.atIndex .sustain 0 := by
  split_ifs with hk
  · exact Envelope.iterate_advance_inside rfl hk
  · obtain ⟨j, rfl⟩ := Nat.exists_eq_add_of_le' (Nat.not_lt.1 hk)
    rw [Function.iterate_add_apply, Envelope.iterate_advance_segment rfl]
    exact Envelope.iterate_advance_resting rfl j

/-- R148: from the attack on, skipped or not. -/
theorem Envelope.iterate_advance_attack (e : Envelope) (k : Nat) :
    Envelope.advance^[k] (e.enter .attack)
      = if k < e.na.toNat then e.atIndex .attack k
        else if k < e.na.toNat + e.nd.toNat then e.atIndex .decay (k - e.na.toNat)
        else e.atIndex .sustain 0 := by
  split_ifs with hk hkd
  · exact Envelope.iterate_advance_inside rfl hk
  all_goals
    obtain ⟨j, rfl⟩ := Nat.exists_eq_add_of_le' (Nat.not_lt.1 hk)
    rw [Function.iterate_add_apply, Envelope.iterate_advance_segment rfl,
      Envelope.iterate_advance_decay]
  · rw [if_pos (by omega), Nat.add_sub_cancel]
  · rw [if_neg (by omega)]

/-- R148: from the release on, skipped or not. -/
theorem Envelope.iterate_advance_release (e : Envelope) (k : Nat) :
    Envelope.advance^[k] (e.enter .release)
      = if k < e.nr.toNat then e.atIndex .release k else e.atIndex .idle 0 := by
  split_ifs with hk
  · exact Envelope.iterate_advance_inside rfl hk
  · obtain ⟨j, rfl⟩ := Nat.exists_eq_add_of_le' (Nat.not_lt.1 hk)
    rw [Function.iterate_add_apply, Envelope.iterate_advance_segment rfl]
    exact Envelope.iterate_advance_resting rfl j

/-- Settles O45: the gain at the index that each sample stands at. -/
theorem envelopeTimeline : Obligations.EnvelopeTimeline := by
  refine ⟨fun e i hidle hs _ => ?_, fun e i hs hheld => ?_⟩
  · have hs : UnitOk ({ e with cap := i } : Envelope).s.toNat := hs
    refine ⟨_, Envelope.trigger_on_idle hidle i, fun k => ?_, fun j k hjk hk => ?_⟩
    · rw [Envelope.iterate_advance_attack]
      split_ifs with hattack hdecay
      · exact ⟨rfl, Envelope.gain_attack hs hattack.le⟩
      · exact ⟨rfl, Envelope.gain_decay hs⟩
      · exact ⟨rfl, Envelope.gain_sustain hs⟩
    · rw [Envelope.iterate_advance_attack, Envelope.iterate_advance_attack,
        if_pos (hjk.trans_lt hk), if_pos hk]
      exact Envelope.gain_attack_mono hs hjk hk.le
  · refine ⟨_, Envelope.trigger_off_held hheld i, fun k => ?_⟩
    rw [Envelope.iterate_advance_release]
    refine ⟨fun hk => ?_, fun hk => ?_⟩
    · rw [if_pos hk]
      exact ⟨rfl, Envelope.gain_release hs⟩
    · rw [if_neg (Nat.not_lt.2 hk)]
      exact ⟨rfl, rfl, Envelope.gain_idle hs⟩

end Sys2Proof.Machine
